-- ==== Sys2Proof/Word.lean ====
section
/-! DEFINITION. The words of the hardware (spec/00_scope.md R7: bit 0 is the least significant bit, every value is
unsigned): the 8-bit byte of every register, address space and bus transfer, the 16-bit index and marker, the 32-bit
request word. -/

namespace Sys2Proof

/-- A byte: a bus byte, a framebuffer byte, an 8-bit register (R7, R20 to R40). -/
abbrev Byte := BitVec 8

/-- A 16-bit value: the pointers CTP and IDX, the counters INNER and OUTER, the marker (R26, R27, R32, R39). -/
abbrev Half := BitVec 16

/-- A request word: OP in bits 31..24, A in 23..16, B in 15..8, C in 7..0 (R90). -/
abbrev Word := BitVec 32

end Sys2Proof
end

