-- ==== Sys2Proof/Syntax.lean ====
section
/-! DEFINITION. The operations: one constructor for each of the 24 rows of spec/opcode_table.json (spec/30_encoding.md
R92). The operands are the fields R93 assembles from the request word. -/

namespace Sys2Proof

/-- An operation with its operands (R91, R92, R93): `imm8` = w[23:16], `f` = w[16], `ch` = w[17:16], `v` = w[15:8]. -/
inductive Instr where
  | cfgbus
  | xfer (imm8 : Byte)
  | cmdmode
  | datamode
  | sendcmd (imm8 : Byte)
  | bootdisp
  | shutdown
  | invert (f : Bool)
  | fliph (f : Bool)
  | flipv (f : Bool)
  | allon (f : Bool)
  | contrast (f : Bool)
  | paint (f : Bool)
  | rdbtn
  | safemode
  | cfgpins
  | cfgpwr
  | setch (ch : BitVec 2) (v : Byte)
  | relch
  | boot
  | idle
  | mrestart
  | getw
  | geth
  deriving DecidableEq, Repr

end Sys2Proof
end

