-- ==== Sys2Proof/WellFormed.lean ====
section
/-! DEFINITION. Which operand values an operation admits (spec/30_encoding.md R93, R96). Every other field of every
format takes all its values. -/

namespace Sys2Proof

/-- SETCH's channel 3 is reserved (R93, R96); nothing else is restricted. -/
def WellFormed : Instr → Bool
  | .setch ch _ => ch != 3#2
  | .cfgbus | .xfer _ | .cmdmode | .datamode | .sendcmd _ | .bootdisp | .shutdown => true
  | .invert _ | .fliph _ | .flipv _ | .allon _ | .contrast _ | .paint _ => true
  | .rdbtn | .safemode | .cfgpins | .cfgpwr | .relch => true
  | .boot | .idle | .mrestart | .getw | .geth => true

end Sys2Proof
end

