-- ==== Sys2Proof/Decode.lean ====
section
/-! DEFINITION. The request word (spec/30_encoding.md R90 to R96): its four fields, the decoder, total on every word and
rejecting by name, the encoder written from the same table, and the host's view of the decoder. -/

namespace Sys2Proof

/-- Why a request word is reserved (R96): an OP of no row, a nonzero bit outside its row's fields, SETCH of channel 3. -/
inductive Reject where
  | unassignedOp
  | operandBits
  | reservedChannel
  deriving DecidableEq, Repr

/-- OP = w[31:24] (R90). -/
def opField (w : Word) : Byte := w.extractLsb' 24 8
/-- A = w[23:16] (R90). -/
def aField (w : Word) : Byte := w.extractLsb' 16 8
/-- B = w[15:8] (R90). -/
def bField (w : Word) : Byte := w.extractLsb' 8 8
/-- C = w[7:0] (R90). -/
def cField (w : Word) : Byte := w.extractLsb' 0 8

/-- Format N: A = B = C = 0 (R91). -/
def decodeN (w : Word) (i : Instr) : Except Reject Instr :=
  if aField w = 0#8 ∧ bField w = 0#8 ∧ cField w = 0#8 then .ok i else .error .operandBits

/-- Format B: A = imm8, B = C = 0 (R91, R93). -/
def decodeB (w : Word) (mk : Byte → Instr) : Except Reject Instr :=
  if bField w = 0#8 ∧ cField w = 0#8 then .ok (mk (aField w)) else .error .operandBits

/-- Format F: A[0] = f, A[7:1] = 0, B = C = 0 (R91, R93). -/
def decodeF (w : Word) (mk : Bool → Instr) : Except Reject Instr :=
  if (aField w).extractLsb' 1 7 = 0#7 ∧ bField w = 0#8 ∧ cField w = 0#8 then .ok (mk ((aField w).getLsbD 0))
  else .error .operandBits

/-- Format C: A[1:0] = ch, A[7:2] = 0, B = v, C = 0; ch = 3 is reserved (R91, R93, R96). -/
def decodeC (w : Word) (mk : BitVec 2 → Byte → Instr) : Except Reject Instr :=
  if (aField w).extractLsb' 2 6 = 0#6 ∧ cField w = 0#8 then
    if (aField w).extractLsb' 0 2 = 3#2 then .error .reservedChannel
    else .ok (mk ((aField w).extractLsb' 0 2) (bField w))
  else .error .operandBits

/-- The decoder: the rows of R92, everything else reserved (R96). -/
def decode (w : Word) : Except Reject Instr :=
  match opField w with
  | 0x01#8 => decodeN w .cfgbus
  | 0x02#8 => decodeB w .xfer
  | 0x10#8 => decodeN w .cmdmode
  | 0x11#8 => decodeN w .datamode
  | 0x12#8 => decodeB w .sendcmd
  | 0x13#8 => decodeN w .bootdisp
  | 0x14#8 => decodeN w .shutdown
  | 0x16#8 => decodeF w .invert
  | 0x17#8 => decodeF w .fliph
  | 0x18#8 => decodeF w .flipv
  | 0x19#8 => decodeF w .allon
  | 0x1A#8 => decodeF w .contrast
  | 0x20#8 => decodeF w .paint
  | 0x30#8 => decodeN w .rdbtn
  | 0x31#8 => decodeN w .safemode
  | 0x40#8 => decodeN w .cfgpins
  | 0x41#8 => decodeN w .cfgpwr
  | 0x42#8 => decodeC w .setch
  | 0x43#8 => decodeN w .relch
  | 0x50#8 => decodeN w .boot
  | 0x51#8 => decodeN w .idle
  | 0x52#8 => decodeN w .mrestart
  | 0x53#8 => decodeN w .getw
  | 0x54#8 => decodeN w .geth
  | _ => .error .unassignedOp

/-- The word with fields OP, A, B, and C = 0 (R90). -/
def requestWord (op a b : Byte) : Word := op ++ a ++ b ++ 0#8

/-- The A field of format F: the flag in bit 0 (R91). -/
def flagByte (f : Bool) : Byte := 0#7 ++ BitVec.ofBool f

/-- The encoder: the words of R92's rows with the operands of R93. -/
def encode : Instr → Word
  | .cfgbus     => requestWord 0x01#8 0#8 0#8
  | .xfer b     => requestWord 0x02#8 b 0#8
  | .cmdmode    => requestWord 0x10#8 0#8 0#8
  | .datamode   => requestWord 0x11#8 0#8 0#8
  | .sendcmd b  => requestWord 0x12#8 b 0#8
  | .bootdisp   => requestWord 0x13#8 0#8 0#8
  | .shutdown   => requestWord 0x14#8 0#8 0#8
  | .invert f   => requestWord 0x16#8 (flagByte f) 0#8
  | .fliph f    => requestWord 0x17#8 (flagByte f) 0#8
  | .flipv f    => requestWord 0x18#8 (flagByte f) 0#8
  | .allon f    => requestWord 0x19#8 (flagByte f) 0#8
  | .contrast f => requestWord 0x1A#8 (flagByte f) 0#8
  | .paint f    => requestWord 0x20#8 (flagByte f) 0#8
  | .rdbtn      => requestWord 0x30#8 0#8 0#8
  | .safemode   => requestWord 0x31#8 0#8 0#8
  | .cfgpins    => requestWord 0x40#8 0#8 0#8
  | .cfgpwr     => requestWord 0x41#8 0#8 0#8
  | .setch ch v => requestWord 0x42#8 (0#6 ++ ch) v
  | .relch      => requestWord 0x43#8 0#8 0#8
  | .boot       => requestWord 0x50#8 0#8 0#8
  | .idle       => requestWord 0x51#8 0#8 0#8
  | .mrestart   => requestWord 0x52#8 0#8 0#8
  | .getw       => requestWord 0x53#8 0#8 0#8
  | .geth       => requestWord 0x54#8 0#8 0#8

/-- The request word the host's table bits stand for: a request word is presented in parallel, so it has no byte order
(R68), and bits above `nbits` are 0. -/
def tableWord (nbits w : Nat) : Word := BitVec.ofNat 32 (w % 2 ^ nbits)

/-- What the decoder reads from a table row's bits; none where it refuses. -/
def decodeTableWord (nbits w : Nat) : Option Instr :=
  match decode (tableWord nbits w) with
  | .ok i => some i
  | .error _ => none

end Sys2Proof
end

