-- ==== Sys2Proof/Config.lean ====
section
/-! DEFINITION. What one build fixes (the record CFG of spec/00_scope.md R6), the build State.reset carries, and the
free values: `Config.free` and `Config.shifterLife` have no body, so no proof can see what they are. The constraints
R6 puts on a CFG are checked by Machine/Legal.lean. -/

namespace Sys2Proof

/-- The controller family tag (R6): it selects the arm of PAINT. -/
inductive Family where
  | paged1 | linear1 | exp4 | exp2
  deriving DecidableEq, Repr

/-- One of the "two supported physical wiring variants" (R6, R210). No rule reads it: what differs between the two is
given by the parameters pwmCapable and inverted. -/
inductive Wiring where
  | wiringA | wiringB
  deriving DecidableEq, Repr

/-- The three RGB channels, R = 0, G = 1, B = 2 (R213). -/
inductive Channel where
  | r | g | b
  deriving DecidableEq, Repr

/-- The indicator lines: the three RGB channels, and one further indicator line (R98; log entry 18). -/
inductive LedLine where
  | rgb (ch : Channel)
  | aux
  deriving DecidableEq, Repr

/-- The lines of the block (R98). -/
inductive Pin where
  | sck | mosi | miso | dc | drst | led (line : LedLine) | button (b : Nat)
  deriving DecidableEq, Repr

/-- The names of the three fixed delays (R256, R290). They have no durations. -/
inductive Delay where
  | rstLow | rstRecover | offSettle
  deriving DecidableEq, Repr

/-- What CFGBUS programs: the record BUS_CFG (R6, R122). `order` false = most significant bit first (R20). -/
structure BusSetup where
  cpol  : Bool
  cpha  : Bool
  order : Bool
  div   : Byte
  deriving DecidableEq, Repr

/-- The "two predefined opcode bytes" of one logical toggle, OPC_x[0] and OPC_x[1] (R6, R150). -/
structure OpPair where
  off : Byte
  on  : Byte
  deriving DecidableEq, Repr

/-- The traversal constants and the on-levels of the expander families (R6, R181, R182). -/
structure Expander where
  pairOffset  : Nat
  innerStride : Nat
  innerCount  : Nat
  outerCount  : Nat
  backOffset  : Nat
  on4         : BitVec 4
  on2         : BitVec 2
  deriving DecidableEq, Repr

/-- One Bool for each channel: PWM_CAPABLE and INVERTED (R6, R213). -/
structure PerChannel where
  r : Bool
  g : Bool
  b : Bool
  deriving DecidableEq, Repr

/-- The record CFG of R6: constants of one build, never changed by any step. State carries it because exec's type has
no other place for "an argument of the step relation" (log entry 1). Functions of a small index are lists:
`pageSelect` holds PAGE_SELECT(0), PAGE_SELECT(1), ..; `btnBit` holds BTN_BIT(0), BTN_BIT(1), ... -/
structure Cfg where
  width         : Nat
  height        : Nat
  family        : Family
  wiring        : Wiring
  cmdTable      : List Byte
  ramClearCount : Nat
  busSetup      : BusSetup
  opcInvert     : OpPair
  opcFlipH      : OpPair
  opcFlipV      : OpPair
  opcAllOn      : OpPair
  opcContrast   : OpPair
  shutdownSeq   : List Byte
  pageSelect    : List Byte
  columnReset   : Byte
  expander      : Expander
  btnBit        : List Nat
  btnUp         : Nat
  safeIndicator : LedLine
  markerAddr    : Nat
  markerValue   : Half
  pwmCapable    : PerChannel
  inverted      : PerChannel
  auxInverted   : Bool
  rgbThreshold  : Byte
  dcCmdLevel    : Bool
  deriving DecidableEq, Repr

/-- The default expander constants of decision D19 for a geometry (R6, R181). -/
def Config.expanderDefaults (w p : Nat) : Expander where
  pairOffset := w
  innerStride := 2 * w
  innerCount := p / 2
  outerCount := w
  backOffset := w * p - 1
  on4 := 0xF#4
  on2 := 3#2

/-- The build State.reset carries: the defaults of R6 and of spec/93_implementation_defined.md G1 to G8, and, where
R6 gives no default, the values the spec's own vectors use (R155, spec/95_test_vectors.md): PRESUMED and DESIGN CHOICE,
log entry 2. `auxInverted`, the polarity of the further indicator line, is in neither (R202 (e): "not in the source"): false
is the model's own choice (log entries 2 and 18). A statement for every state quantifies over every build and does not rest on these. -/
def Config.default : Cfg where
  width := 128
  height := 64
  family := .linear1
  wiring := .wiringA
  cmdTable := [0xD5#8, 0xF0#8, 0x8D#8, 0x14#8, 0xA1#8, 0xC8#8, 0x81#8, 0xCF#8, 0xD9#8, 0xF1#8, 0xAF#8, 0x20#8, 0x00#8]
  ramClearCount := 0
  busSetup := { cpol := false, cpha := false, order := false, div := 2#8 }
  opcInvert := ⟨0xA6#8, 0xA7#8⟩
  opcFlipH := ⟨0xA1#8, 0xA0#8⟩
  opcFlipV := ⟨0xC8#8, 0xC0#8⟩
  opcAllOn := ⟨0xA4#8, 0xA5#8⟩
  opcContrast := ⟨0x01#8, 0x02#8⟩
  shutdownSeq := [0xAE#8, 0x8D#8, 0x10#8]
  pageSelect := [0xB0#8, 0xB1#8, 0xB2#8, 0xB3#8, 0xB4#8, 0xB5#8, 0xB6#8, 0xB7#8]
  columnReset := 0x10#8
  expander := Config.expanderDefaults 128 8
  btnBit := [5, 6, 7, 4, 3, 2]
  btnUp := 2
  safeIndicator := .rgb .r
  markerAddr := 0x0800
  markerValue := 0x7777#16
  pwmCapable := ⟨true, true, true⟩
  inverted := ⟨true, true, true⟩
  auxInverted := false
  rgbThreshold := 128#8
  dcCmdLevel := false

/-- Where a value the spec leaves open is drawn: one name for each (R8 `draw`; spec/93_implementation_defined.md U10,
U11, U12, U14). The name keeps the draws of different places apart; the counter keeps the draws of one place apart. -/
inductive Draw where
  | miso | buttons | wake | tear
  | pinDc | pinDrst | pinLed (line : LedLine) | pinSck | pinMosi
  | rstOrder | rstCpol | rstCpha | rstDiv | rstSdr | rstBitcnt
  | rstCtp | rstIdx | rstPage | rstCol | rstSrcA | rstSrcB | rstShcnt | rstInner | rstOuter | rstClr
  | rstOpWord | rstResult | rstPwmCmp (ch : Channel)
  | regRead
  | fbByte (index : Nat) | mkByte (index : Nat) | sinkByte (life : Nat) (index : Nat)
  | level (p : Pin) (events bits : Nat)
  | strayGroup (group : Nat) | allOnInverted | brightness (on contrast lit : Bool) | unshown (x y : Nat)
  deriving DecidableEq, Repr

/-- The free values: nothing constrains them (log entry 5). The second argument is a counter of State. -/
opaque Config.free : Draw → Nat → Nat

/-- How many more bit exchanges the shifter takes in the life of that number before it stops for good; none = it never
stops (R126: its step is enabled, not guaranteed). Nothing constrains it (log entry 6). -/
opaque Config.shifterLife : Nat → Option Nat

end Sys2Proof
end

