-- ==== Sys2Proof/Machine/State.lean ====
section
/-! DEFINITION. The machine's state: everything spec/10_state.md gives the block (R20 to R44), the two memories it can
write (FB, MK), the trace TR, and, as plain data, the inputs of the outside world. The command table CT is a constant
of the build (`cfg.cmdTable`), the register map REG and the sink are views (Machine/Flags.lean, Machine/Sink.lean). -/

namespace Sys2Proof.Machine

/-- The mode of the DC line (R29), symbolic; the level of the line is `State.lineLevel`. -/
inductive DcMode where
  | cmd | data
  deriving DecidableEq, Repr

/-- DSTATE (R31), in the order of its codes 0 to 3. -/
inductive DState where
  | uninitialized | commandMode | dataMode | off
  deriving DecidableEq, Repr

/-- OPSTAT.LIFE (R35), in the order of its codes 0 to 2. -/
inductive Life where
  | running | safeHalt | resetPending
  deriving DecidableEq, Repr

/-- The events of the observable trace (R9). A level is a Bool, true = 1. -/
inductive Event where
  | bus (m : DcMode) (tx rx : Byte)
  | dc (m : DcMode)
  | rst (level : Bool)
  | delay (t : Delay)
  | btn (v : Byte)
  | led (line : LedLine) (level : Bool)
  | pwm (ch : Channel) (on : Bool) (cmp : Byte)
  | pins
  | power
  | marker (v : Half)
  | sleep
  | wake
  | wdReset
  deriving DecidableEq, Repr

/-- The sources of a hardware reset (R270). -/
inductive ResetKind where
  | powerOn | external | watchdog
  deriving DecidableEq, Repr

/-- What the outside can do to the block (R18): request an operation, read a register (R40), write a framebuffer byte (the
graphics layer), write a marker byte (the bootloader, which consumes and clears it: R39, R272), reset the block by its power
or by `rst_n` (R98, R270). -/
inductive HostAct where
  | request (w : Word)
  | readReg (idx : BitVec 3)
  | fbWrite (index : Nat) (v : Byte)
  | markerWrite (index : Nat) (v : Byte)
  | powerOn
  | externalReset
  deriving DecidableEq, Repr

/-- A memory: the bytes written so far, addresses strictly rising. An unlisted address holds a byte nothing has written
yet: it has no value of its own and reads as a free value (R44: unspecified; log entry 11). -/
abbrev Memory := List Host.Cell

/-- The Bus Driver's state (R20 to R25). `order` false = most significant bit first. `inFlight`: the bits of the current
frame the sink has received, oldest first (R41). -/
structure BusUnit where
  en       : Bool
  role     : Bool
  order    : Bool
  cpol     : Bool
  cpha     : Bool
  div      : Byte
  sdr      : Byte
  doneFlag : Bool
  busyFlag : Bool
  bitcnt   : BitVec 4
  sck      : Bool
  mosi     : Bool
  inFlight : List Bool
  deriving DecidableEq, Repr

/-- The Display Controller Driver's state, with the command-table pointer (R26, R29 to R31). `drst` false = asserted. -/
structure Display where
  dc     : DcMode
  drst   : Bool
  dstate : DState
  ctp    : Half
  deriving DecidableEq, Repr

/-- The Transfer Engine's working registers (R27, R32). -/
structure Engine where
  idx   : Half
  page  : Byte
  col   : Byte
  srcA  : Byte
  srcB  : Byte
  shcnt : BitVec 4
  inner : Half
  outer : Half
  clr   : Bool
  deriving DecidableEq, Repr

/-- The requester interface: OPSTAT, OPWORD, RESULT (R28, R34, R35), the level op_ack was left at (R95; log entry 21),
and the byte the register read port last put out (R98 reg_data). -/
structure Port where
  opBusy  : Bool
  opWord  : Word
  opAck   : Bool
  result  : Byte
  life    : Life
  regData : Byte
  deriving DecidableEq, Repr

/-- One RGB channel: LEDLINE, PWM_EN, PWM_CMP (R37). `line` is the level the channel is driven to digitally; the level of the
pin is `State.lineLevel` (R36, R216). -/
structure RgbChan where
  line   : Bool
  pwmEn  : Bool
  pwmCmp : Byte
  deriving DecidableEq, Repr

/-- The platform state around CORE (R36 to R38): the two ghost flags, the three channels, the level of the further
indicator line (R98; log entry 18), SLEEPING. -/
structure Platform where
  pinsOk   : Bool
  pwrSaved : Bool
  red      : RgbChan
  green    : RgbChan
  blue     : RgbChan
  auxLine  : Bool
  sleeping : Bool
  deriving DecidableEq, Repr

/-- What an external reset does to the two byte writes of an MRESTART, which "are not atomic with respect to a reset" (R66):
nothing (`whole`), or it falls between them. The order of the two writes is not in the spec, so either byte may be the one
that is in memory (log entry 8). -/
inductive MarkerTear where
  | whole | lowOnly | highOnly
  deriving DecidableEq, Repr

/-- What the environment will do (R11 agent 4, R8 `draw`), as plain data. `shifterLeft`: how many more bit exchanges the
shifter takes, none = it is live for ever (R126, R243 BusLive; log entry 6). `miso`, `buttons`, `wake`: the next levels
sampled; `tears`: whether a reset falls between the marker writes of each coming MRESTART (R66, R252). When a list is used up
the value is free (log entry 5), and `draws` counts the free values taken. -/
structure Env where
  shifterLeft : Option Nat
  miso        : List Bool
  buttons     : List Byte
  wake        : List Bool
  tears       : List MarkerTear
  draws       : Nat
  deriving DecidableEq, Repr

/-- The whole machine. `tr` is the trace TR, oldest event first (R43). `host`: what the outside does next, in order
(R18, R110; log entry 9). `lives` and `powerOns` count the hardware resets and the power-ons so far: the model's
own, they tell apart the free contents of FB and MK of different lives (log entry 29). -/
structure State where
  cfg      : Cfg
  bus      : BusUnit
  disp     : Display
  eng      : Engine
  port     : Port
  plat     : Platform
  fb       : Memory
  marker   : Memory
  tr       : List Event
  env      : Env
  host     : List HostAct
  lives    : Nat
  powerOns : Nat
  deriving DecidableEq, Repr

/-- The reasons a step stops with a fault. The hardware itself raises none (R240); these are accesses of the outside
to an index the spec says does not exist. All are safe: the model stops where nothing is specified (log entry 12). -/
inductive Fault where
  /-- Raised by step for a graphics-layer write at an index not below FB_SIZE (R60, R61). Safe. -/
  | noSuchFbIndex (index : Nat)
  /-- Raised by step for a bootloader write at a marker index other than 0 and 1 (R60, R64). Safe. -/
  | noSuchMarkerIndex (index : Nat)
  /-- Raised by step for a register read of index 7 (R40, R60: the map has indices 0 to 6). Safe. -/
  | noSuchRegister
  deriving DecidableEq, Repr

/-- The reasons a step is refused. -/
inductive Refusal where
  /-- An instruction without a meaning yet, by its mnemonic: raised by exec's arm. Safe. No arm uses it now. -/
  | notModelled (mnemonic : String)
  /-- Raised by step for a reserved request word, with the decoder's reason (R96: "the model must refuse such a request").
  Safe. -/
  | reservedRequest (why : Reject)
  /-- Raised by SETCH's meaning for the ill-formed operand ch = 3 (R96, R214). No decoded word reaches it. Safe. -/
  | reservedChannel
  /-- Raised by step for a CFG that breaks a constraint of R6, R21, R182 (R182: "A model must refuse a CFG that violates the
  constraint"). Safe. -/
  | illegalConfig
  deriving DecidableEq, Repr

/-- The machine right after power-on reset (R44, R271). R44's values: EN = ROLE = DONE = BUSY = 0, DSTATE = Uninitialized,
OPBUSY = 0, LIFE = Running, PINS_OK = PWR_SAVED = SLEEPING = 0, PWM_EN = 0, TR empty. Every field R44 leaves unspecified
is zero here (DESIGN CHOICE, log entry 3), but for the shifter's life, which is free (log entry 6). The build is
Config.default (log entry 2). No input is pending and no memory byte is written. -/
def State.reset : State where
  cfg := Config.default
  bus := { en := false, role := false, order := false, cpol := false, cpha := false, div := 0#8, sdr := 0#8,
           doneFlag := false, busyFlag := false, bitcnt := 0#4, sck := false, mosi := false, inFlight := [] }
  disp := { dc := .cmd, drst := false, dstate := .uninitialized, ctp := 0#16 }
  eng := { idx := 0#16, page := 0#8, col := 0#8, srcA := 0#8, srcB := 0#8, shcnt := 0#4, inner := 0#16, outer := 0#16,
           clr := false }
  port := { opBusy := false, opWord := 0#32, opAck := false, result := 0#8, life := .running, regData := 0#8 }
  plat := { pinsOk := false, pwrSaved := false, red := ⟨false, false, 0#8⟩, green := ⟨false, false, 0#8⟩,
            blue := ⟨false, false, 0#8⟩, auxLine := false, sleeping := false }
  fb := []
  marker := []
  tr := []
  env := { shifterLeft := Config.shifterLife 0, miso := [], buttons := [], wake := [], tears := [], draws := 0 }
  host := []
  lives := 0
  powerOns := 0

end Sys2Proof.Machine
end

