-- ==== Sys2Proof/Machine/Operands.lean ====
section
/-! DEFINITION. The operand forms (spec/30_encoding.md R91, R93): the flag that selects one of two opcode bytes, the
channel; what is derived from the build's geometry (spec/00_scope.md R6, spec/20_memory.md R61, R62, R64); the framebuffer
indices of the expander traversal (spec/42_transfer_engine.md R181); the packed bytes (R106, R107); the button mask
(R108). Pure functions: none reads or writes State. -/

namespace Sys2Proof.Machine

/-- The channel an operand `ch` names: 0 = R, 1 = G, 2 = B, 3 reserved (R93). -/
def channelOfBits (ch : BitVec 2) : Option Channel :=
  match ch with
  | 0#2 => some .r
  | 1#2 => some .g
  | 2#2 => some .b
  | _ => none

/-- The operand bits that name a channel (R93, R213). -/
def channelBits : Channel → BitVec 2
  | .r => 0#2
  | .g => 1#2
  | .b => 2#2

/-- OPC_x[f] (R150). -/
def opcSelect (p : OpPair) (f : Bool) : Byte := if f then p.on else p.off

/-- One channel's entry of PWM_CAPABLE or INVERTED (R213). -/
def perChannel (p : PerChannel) : Channel → Bool
  | .r => p.r
  | .g => p.g
  | .b => p.b

/-- lit(ch): the level that lights the LED, 0 if INVERTED(ch), else 1 (R213). -/
def litLevel (c : Cfg) (ch : Channel) : Bool := !perChannel c.inverted ch

/-- dark(ch): the other level (R213). -/
def darkLevel (c : Cfg) (ch : Channel) : Bool := perChannel c.inverted ch

/-- The lit level of any indicator line; for the further line INVERTED is the build's auxInverted (R202 (e); log entry
18). -/
def indicatorLit (c : Cfg) : LedLine → Bool
  | .rgb ch => litLevel c ch
  | .aux => !c.auxInverted

/-- P = H / 8, the page count (R6). -/
def pageCount (c : Cfg) : Nat := c.height / 8

/-- FB_SIZE = W*H/8 (R6, R61), for every family. -/
def fbSize (c : Cfg) : Nat := c.width * c.height / 8

/-- NB, the number of button lines (R6). -/
def buttonCount (c : Cfg) : Nat := c.btnBit.length

/-- PAGE_SELECT(p) (R6, R105). -/
def pageSelectByte (c : Cfg) (p : Nat) : Byte := c.pageSelect.getD p 0#8

/-- The address in the host's data memory of marker byte `i`: MARKER_ADDR and MARKER_ADDR + 1 (R64, R69). -/
def markerHostAddr (c : Cfg) (i : Nat) : Nat := c.markerAddr + i

/-- The framebuffer index of the byte that holds pixel (x, y) (R62). -/
def pixelIndex (c : Cfg) (x y : Nat) : Nat := y / 8 * c.width + x

/-- The bit of that byte that is pixel (x, y) (R62). -/
def pixelBit (y : Nat) : Nat := y % 8

/-- IDX at the start of the inner loop of outer iteration `x` (R181), on naturals (R186). -/
def columnStart (e : Expander) : Nat → Nat
  | 0 => 0
  | x + 1 => columnStart e x + e.innerCount * e.innerStride - e.backOffset

/-- The index `i` of outer iteration `x`, inner iteration `q` (R181); its partner `j` is `i + pairOffset`. -/
def pairIndex (e : Expander) (x q : Nat) : Nat := columnStart e x + q * e.innerStride

/-- Every index R181 reads, in its order: i then j of each pair. -/
def traversal (e : Expander) : List Nat :=
  (List.range e.outerCount).flatMap fun x =>
    (List.range e.innerCount).flatMap fun q => [pairIndex e x q, pairIndex e x q + e.pairOffset]

/-- One 4-bit group of EXP4: EXP_ON4 for a set source bit, else 0 (R106). -/
def group4 (e : Expander) (on : Bool) : BitVec 4 := if on then e.on4 else 0#4

/-- The EXP4 output byte: low nibble from SRCA, high nibble from SRCB (R106). -/
def pack4 (e : Expander) (a b : Byte) : Byte := group4 e (b.getLsbD 0) ++ group4 e (a.getLsbD 0)

/-- One 2-bit group of EXP2: EXP_ON2 for a set source bit, else 0 (R107). -/
def group2 (e : Expander) (on : Bool) : BitVec 2 := if on then e.on2 else 0#2

/-- The EXP2 output byte: SRCA[0], SRCA[1], SRCB[0], SRCB[1] from bit 0 up, two bits each (R107). -/
def pack2 (e : Expander) (a b : Byte) : Byte :=
  group2 e (b.getLsbD 1) ++ group2 e (b.getLsbD 0) ++ group2 e (a.getLsbD 1) ++ group2 e (a.getLsbD 0)

/-- The NB-bit line vector in a sampled byte: the bits of the NB lines, the others 0 (R200). -/
def buttonLines (c : Cfg) (v : Byte) : Byte := v &&& BitVec.ofNat 8 (2 ^ buttonCount c - 1)

/-- The bits the pressed lines among `bits` set, the first of them being line `b` (R108): low = pressed = set bit. -/
def buttonMaskFrom (v : Byte) : Nat → List Nat → Byte
  | _, [] => 0#8
  | b, k :: ks => (if v.getLsbD b then 0#8 else BitVec.twoPow 8 k) ||| buttonMaskFrom v (b + 1) ks

/-- The button mask of the line vector `v` (R108, R200). -/
def buttonMask (c : Cfg) (v : Byte) : Byte := buttonMaskFrom v 0 c.btnBit

end Sys2Proof.Machine
end

