-- ==== Sys2Proof/Machine/Ops.lean ====
section
/-! DEFINITION. The named operations every meaning is built from: the memories, the draws, the trace, the group updates
of State, the lines, the flow of an operation (completed or stuck), its acceptance and completion, and the hardware reset,
which stands where other hardware has an exception entry (spec/60_exceptions.md R240, R246; spec/70_reset_and_hazards.md
R270). -/

namespace Sys2Proof.Machine

/-! ### Memory (spec/20_memory.md R60, R70) -/

/-- The byte written last at address `k`, if one was. -/
def Memory.read : Memory → Nat → Option Byte
  | [], _ => none
  | (a, v) :: m, k => if a = k then some v else Memory.read m k

/-- Write one byte, keeping the addresses strictly rising. -/
def Memory.write : Memory → Nat → Byte → Memory
  | [], k, v => [(k, v)]
  | (a, w) :: m, k, v =>
    if k < a then (k, v) :: (a, w) :: m
    else if k = a then (k, v) :: m
    else (a, w) :: Memory.write m k v

/-- The canonical form: addresses strictly rising. (An unlisted address has no value of its own, so no entry can equal it.) -/
def Memory.wf (m : Memory) : Bool := decide ((m.map Prod.fst).Pairwise (· < ·))

/-- Every listed address is below `n`. -/
def Memory.below (m : Memory) (n : Nat) : Bool := m.all fun c => decide (c.1 < n)

/-! ### Group updates of State -/

def State.setBus (s : State) (x : BusUnit) : State := { s with bus := x }
def State.setDisp (s : State) (x : Display) : State := { s with disp := x }
def State.setEng (s : State) (x : Engine) : State := { s with eng := x }
def State.setPort (s : State) (x : Port) : State := { s with port := x }
def State.setPlat (s : State) (x : Platform) : State := { s with plat := x }
def State.setFb (s : State) (x : Memory) : State := { s with fb := x }
def State.setMarker (s : State) (x : Memory) : State := { s with marker := x }
def State.setEnv (s : State) (x : Env) : State := { s with env := x }

/-- `emit E`: append an event to the trace (R8, R9). -/
def State.emit (s : State) (e : Event) : State := { s with tr := s.tr ++ [e] }

/-! ### Draws (R8; log entry 5) -/

/-- A free bit of one place at one count. -/
def freeBit (d : Draw) (n : Nat) : Bool := (Config.free d n).testBit 0

/-- A free value of `w` bits of one place at one count. -/
def freeBits (w : Nat) (d : Draw) (n : Nat) : BitVec w := BitVec.ofNat w (Config.free d n)

/-- Count one use of the free values, so that the next draw is a fresh one. -/
def State.tick (s : State) : State := s.setEnv { s.env with draws := s.env.draws + 1 }

/-- The level of MISO at a sampling edge (R25, R100: `draw bit`) and the state after it. -/
def State.drawMiso (s : State) : Bool × State :=
  match s.env.miso with
  | r :: rest => (r, s.setEnv { s.env with miso := rest })
  | [] => (freeBit .miso s.env.draws, s.tick)

/-- The levels of the button lines at this moment, all in one sample (R200 (d)), and the state after it. -/
def State.drawButtons (s : State) : Byte × State :=
  match s.env.buttons with
  | v :: rest => (buttonLines s.cfg v, s.setEnv { s.env with buttons := rest })
  | [] => (buttonLines s.cfg (freeBits 8 .buttons s.env.draws), s.tick)

/-- Whether `wake_irq` occurs after this IDLE's entry (R226, R252), and the state after it. -/
def State.drawWake (s : State) : Bool × State :=
  match s.env.wake with
  | w :: rest => (w, s.setEnv { s.env with wake := rest })
  | [] => (freeBit .wake s.env.draws, s.tick)

/-- A free tear: any of the three (log entry 8). -/
def freeTear (n : Nat) : MarkerTear :=
  match Config.free .tear n % 3 with
  | 0 => .whole
  | 1 => .lowOnly
  | _ => .highOnly

/-- Whether an external reset falls between the marker writes of this MRESTART (R66, R252), and the state after it. -/
def State.drawTear (s : State) : MarkerTear × State :=
  match s.env.tears with
  | t :: rest => (t, s.setEnv { s.env with tears := rest })
  | [] => (freeTear s.env.draws, s.tick)

/-! ### The address spaces (R60 to R64) -/

/-- MemRead(FB:i, 1): no side effect (R70 (a)). A byte nothing has written in this life is free (R44). -/
def State.fbRead (s : State) (i : Nat) : Byte := (s.fb.read i).getD (freeBits 8 (.fbByte i) s.lives)

/-- MemWrite(FB:i, 1, v). -/
def State.fbWrite (s : State) (i : Nat) (v : Byte) : State := s.setFb (s.fb.write i v)

/-- The marker byte `i`. A byte nothing has written since power-on is free (R39, R44). -/
def State.mkRead (s : State) (i : Nat) : Byte := (s.marker.read i).getD (freeBits 8 (.mkByte i) s.powerOns)

/-- MemWrite(MK:i, 1, v). -/
def State.mkWrite (s : State) (i : Nat) (v : Byte) : State := s.setMarker (s.marker.write i v)

/-- MemRead(CT:k, 1): the command table is a constant of the build (R63). -/
def State.ctRead (s : State) (k : Nat) : Byte := s.cfg.cmdTable.getD k 0#8

/-! ### The display lines (R29 to R31) -/

/-- Drive the DC line: `S.DC <- m ; emit EvDc(m)`. -/
def State.driveDc (s : State) (m : DcMode) : State := (s.setDisp { s.disp with dc := m }).emit (.dc m)

/-- Drive the display reset line: `S.DRST <- l ; emit EvRst(l)`. -/
def State.driveRst (s : State) (l : Bool) : State := (s.setDisp { s.disp with drst := l }).emit (.rst l)

def State.setDState (s : State) (d : DState) : State := s.setDisp { s.disp with dstate := d }

/-- DSTATE after the DC line is moved to `m`: it follows the line in CommandMode and DataMode and stays in Uninitialized
and Off (R31, R140 to R142). -/
def followDc (m : DcMode) : DState → DState
  | .uninitialized => .uninitialized
  | .off => .off
  | .commandMode | .dataMode => match m with
    | .cmd => .commandMode
    | .data => .dataMode

/-- enterCommandMode / enterDataMode (R141, R142). -/
def State.enterMode (s : State) (m : DcMode) : State := (s.driveDc m).setDState (followDc m s.disp.dstate)

/-- The electrical level the DC line is driven to (R29): DC_CMD_LEVEL for CMD, the other level for DATA. -/
def State.dcLevel (s : State) : Bool :=
  match s.disp.dc with
  | .cmd => s.cfg.dcCmdLevel
  | .data => !s.cfg.dcCmdLevel

/-- `delay(T)`: the event and nothing else (R290). -/
def State.delayFor (s : State) (t : Delay) : State := s.emit (.delay t)

/-! ### RGB channels (R37) -/

def Platform.chan (p : Platform) : Channel → RgbChan
  | .r => p.red
  | .g => p.green
  | .b => p.blue

def Platform.setChan (p : Platform) (ch : Channel) (x : RgbChan) : Platform :=
  match ch with
  | .r => { p with red := x }
  | .g => { p with green := x }
  | .b => { p with blue := x }

def State.chan (s : State) (ch : Channel) : RgbChan := s.plat.chan ch
def State.setChan (s : State) (ch : Channel) (x : RgbChan) : State := s.setPlat (s.plat.setChan ch x)

/-- Set the digital level of an indicator line (R37, R202 (e)); PWM_EN and PWM_CMP keep their values. -/
def State.setLedLine (s : State) (line : LedLine) (l : Bool) : State :=
  match line with
  | .rgb ch => s.setChan ch { s.chan ch with line := l }
  | .aux => s.setPlat { s.plat with auxLine := l }

/-! ### Pins (R36, R210) -/

inductive PinDir where
  | output | input | inputPullUp
  deriving DecidableEq, Repr

/-- The direction CFGPINS gives a line (R210). -/
def pinDirAfterCfg : Pin → PinDir
  | .sck | .mosi | .dc | .drst | .led _ => .output
  | .miso => .input
  | .button _ => .inputPullUp

/-- The direction of a line: unspecified (none) while PINS_OK = 0 (R36). -/
def State.pinDir (s : State) (p : Pin) : Option PinDir := if s.plat.pinsOk then some (pinDirAfterCfg p) else none

/-- A level of a line that the spec leaves open at this moment (R36, R216; spec/93_implementation_defined.md U10: `any value`):
free, and another one after each event, bit and draw. -/
def State.openLevel (s : State) (p : Pin) : Bool := freeBit (.level p s.tr.length s.bus.bitcnt.toNat) s.env.draws

/-- The level a configured line has: an output is where the block drives it (R25, R29, R30, R37), but for a pin the waveform
generator drives (R216); an input is where the next sample would find it (R25, R200). -/
def State.wiredLevel (s : State) : Pin → Bool
  | .sck => s.bus.sck
  | .mosi => s.bus.mosi
  | .miso => s.drawMiso.1
  | .dc => s.dcLevel
  | .drst => s.disp.drst
  | .led (.rgb ch) => if (s.chan ch).pwmEn then s.openLevel (.led (.rgb ch)) else (s.chan ch).line
  | .led .aux => s.plat.auxLine
  | .button b => s.drawButtons.1.getLsbD b

/-- The level of a line: unspecified, so free, while PINS_OK = 0 (R36, R280; log entry 22). -/
def State.lineLevel (s : State) (p : Pin) : Bool := if s.plat.pinsOk then s.wiredLevel p else s.openLevel p

/-! ### The flow of an operation -/

/-- Where an operation's pseudocode stands: it reached its end, or it stopped for good at this state (a `wait until` that
never becomes true, the endless loop of safe mode, the watchdog reset it triggered): R242, R245, R246, R247. -/
inductive Run where
  | reached (s : State)
  | stuck (s : State)
  deriving DecidableEq, Repr

/-- Sequencing: what follows a stuck part never happens (R247, R252). -/
def Run.bind : Run → (State → Run) → Run
  | .reached s, f => f s
  | .stuck s, _ => .stuck s

/-- A part that always reaches its end. -/
def Run.map (x : Run) (f : State → State) : Run := x.bind fun s => .reached (f s)

/-- The state a flow ends at, either way. -/
def Run.state : Run → State
  | .reached s => s
  | .stuck s => s

/-- `for k in start, start+1, .., start+n-1: body k`. -/
def loopFrom (body : Nat → State → Run) : Nat → Nat → State → Run
  | _, 0, s => .reached s
  | start, n + 1, s => (body start s).bind (loopFrom body (start + 1) n)

/-- `for k in 0, 1, .., n-1: body k`. -/
def loop (n : Nat) (body : Nat → State → Run) (s : State) : Run := loopFrom body 0 n s

/-- Acceptance of a request (R95, R28): OPBUSY <- 1, OPWORD <- op_word. -/
def State.accept (s : State) (i : Instr) : State :=
  s.setPort { s.port with opBusy := true, opWord := encode i, opAck := false }

/-- Completion (R95): OPBUSY <- 0 and op_ack is pulsed. -/
def State.complete (s : State) : State := s.setPort { s.port with opBusy := false, opAck := true }

/-- Completion of what reached its end; an operation that is stuck never acknowledges (R95, R242). -/
def Run.settle : Run → State
  | .reached s => s.complete
  | .stuck s => s

/-- One host-requested operation: accept, run the pseudocode, acknowledge (R95). -/
def runOp (i : Instr) (body : State → Run) (s : State) : Host.Outcome State Fault Refusal :=
  .next (body (s.accept i)).settle

/-- `S.RESULT <- v` (R34, R94). -/
def State.setResult (s : State) (v : Byte) : State := s.setPort { s.port with result := v }

/-! ### The hardware reset (R270, R44) -/

/-- The Bus Driver after a reset: EN = ROLE = DONE = BUSY = 0, everything else unspecified, so free (R44; log entry 4). -/
def resetBus (n : Nat) : BusUnit where
  en := false
  role := false
  order := freeBit .rstOrder n
  cpol := freeBit .rstCpol n
  cpha := freeBit .rstCpha n
  div := freeBits 8 .rstDiv n
  sdr := freeBits 8 .rstSdr n
  doneFlag := false
  busyFlag := false
  bitcnt := freeBits 4 .rstBitcnt n
  sck := freeBit .pinSck n
  mosi := freeBit .pinMosi n
  inFlight := []

/-- A line's free mode. -/
def freeDc (n : Nat) : DcMode := if freeBit .pinDc n then .data else .cmd

/-- The display driver after a reset: Uninitialized, its lines and CTP unspecified (R44). -/
def resetDisp (n : Nat) : Display where
  dc := freeDc n
  drst := freeBit .pinDrst n
  dstate := .uninitialized
  ctp := freeBits 16 .rstCtp n

/-- The working registers after a reset: unspecified (R44). -/
def resetEng (n : Nat) : Engine where
  idx := freeBits 16 .rstIdx n
  page := freeBits 8 .rstPage n
  col := freeBits 8 .rstCol n
  srcA := freeBits 8 .rstSrcA n
  srcB := freeBits 8 .rstSrcB n
  shcnt := freeBits 4 .rstShcnt n
  inner := freeBits 16 .rstInner n
  outer := freeBits 16 .rstOuter n
  clr := freeBit .rstClr n

/-- The requester interface after a reset: OPBUSY = 0, LIFE = Running, OPWORD and RESULT unspecified (R44). The byte on the
read port is the outside's and stays. -/
def resetPort (n : Nat) (p : Port) : Port where
  opBusy := false
  opWord := freeBits 32 .rstOpWord n
  opAck := false
  result := freeBits 8 .rstResult n
  life := .running
  regData := p.regData

/-- One RGB channel after a reset: PWM_EN = 0, LEDLINE and PWM_CMP unspecified (R44). -/
def resetChan (n : Nat) (ch : Channel) : RgbChan where
  line := freeBit (.pinLed (.rgb ch)) n
  pwmEn := false
  pwmCmp := freeBits 8 (.rstPwmCmp ch) n

/-- The platform after a reset: PINS_OK = PWR_SAVED = SLEEPING = 0, no waveform output, the lines unspecified (R44). -/
def resetPlat (n : Nat) : Platform where
  pinsOk := false
  pwrSaved := false
  red := resetChan n .r
  green := resetChan n .g
  blue := resetChan n .b
  auxLine := freeBit (.pinLed .aux) n
  sleeping := false

/-- The environment after a reset: what it will supply is unchanged. A shifter that is live for ever stays so (BusLive is a
premise about the whole execution, R243); one that was going to stop has a new, free, life (log entry 6). -/
def resetEnv (life : Nat) (e : Env) : Env :=
  { e with shifterLeft := match e.shifterLeft with
             | none => none
             | some _ => Config.shifterLife life
           draws := e.draws + 1 }

/-- A hardware reset (R270): every field takes its value of R44, an operation in progress is abandoned without
acknowledgement, TR of the new life starts empty, FB is unspecified. Kept: the build with its command table; MK, but for a
power-on, which leaves it unspecified; what the outside has not done yet. -/
def State.hardReset (s : State) (k : ResetKind) : State where
  cfg := s.cfg
  bus := resetBus s.env.draws
  disp := resetDisp s.env.draws
  eng := resetEng s.env.draws
  port := resetPort s.env.draws s.port
  plat := resetPlat s.env.draws
  fb := []
  marker := match k with
    | .powerOn => []
    | .external | .watchdog => s.marker
  tr := []
  env := resetEnv (s.lives + 1) s.env
  host := s.host
  lives := s.lives + 1
  powerOns := match k with
    | .powerOn => s.powerOns + 1
    | .external | .watchdog => s.powerOns

end Sys2Proof.Machine
end

