-- ==== Sys2Proof/Machine/Flags.lean ====
section
/-! DEFINITION. The flags and the register map: DONE and BUSY (spec/10_state.md R23, R24), the codes of DSTATE, LIFE and
DC, and the seven read-only registers REG[0..6] as a view of the state (R40). -/

namespace Sys2Proof.Machine

/-- The flags at the load of SDR: DONE <- 0, BUSY <- 1, BITCNT <- 0 (R23, R24, R124). -/
def BusUnit.loadFlags (b : BusUnit) : BusUnit := { b with doneFlag := false, busyFlag := true, bitcnt := 0#4 }

/-- The flags when the eighth bit has been exchanged: DONE <- 1, BUSY <- 0 (R23, R125). -/
def BusUnit.completeFlags (b : BusUnit) : BusUnit := { b with doneFlag := true, busyFlag := false }

/-- The 2-bit code of DSTATE (R31, R40). -/
def dstateCode : DState → BitVec 2
  | .uninitialized => 0#2
  | .commandMode => 1#2
  | .dataMode => 2#2
  | .off => 3#2

/-- The 2-bit code of LIFE (R35, R40). -/
def lifeCode : Life → BitVec 2
  | .running => 0#2
  | .safeHalt => 1#2
  | .resetPending => 2#2

/-- The DC bit of REG[4]: 0 = CMD, 1 = DATA; the symbolic mode, not the level (R40). -/
def dcCode : DcMode → Bool
  | .cmd => false
  | .data => true

/-- REG[0] BUSCFG: EN ROLE ORDER CPOL CPHA 0 0 0, from bit 7 down (R40). -/
def regBusCfg (b : BusUnit) : Byte :=
  BitVec.ofBool b.en ++ BitVec.ofBool b.role ++ BitVec.ofBool b.order ++ BitVec.ofBool b.cpol ++ BitVec.ofBool b.cpha
    ++ 0#3

/-- REG[2] BUSSTAT: DONE BUSY 0 0 0 0 0 0 (R40). -/
def regBusStat (b : BusUnit) : Byte := BitVec.ofBool b.doneFlag ++ BitVec.ofBool b.busyFlag ++ 0#6

/-- REG[4] DISPCTL: 0 0 0 0 DSTATE[1:0] DRST DC (R40). -/
def regDispCtl (d : Display) : Byte :=
  0#4 ++ dstateCode d.dstate ++ BitVec.ofBool d.drst ++ BitVec.ofBool (dcCode d.dc)

/-- REG[5] OPSTAT: OPBUSY 0 0 0 0 0 LIFE[1:0] (R40). -/
def regOpStat (p : Port) : Byte := BitVec.ofBool p.opBusy ++ 0#5 ++ lifeCode p.life

/-- The contents of register `idx` of the map; none for index 7, which the map does not have (R40, R60). -/
def State.reg (s : State) (idx : BitVec 3) : Option Byte :=
  match idx with
  | 0#3 => some (regBusCfg s.bus)
  | 1#3 => some s.bus.div
  | 2#3 => some (regBusStat s.bus)
  | 3#3 => some s.bus.sdr
  | 4#3 => some (regDispCtl s.disp)
  | 5#3 => some (regOpStat s.port)
  | 6#3 => some s.port.result
  | _ => none

/-- What the read port answers: REG[5] at any time, the others only while OPBUSY = 0; while an operation runs they answer
an unspecified, so free, value (R40; spec/93_implementation_defined.md U12; log entry 20). -/
def State.regRead (s : State) (idx : BitVec 3) : Option Byte :=
  if s.port.opBusy && idx != 5#3 then (s.reg idx).map fun _ => freeBits 8 .regRead s.env.draws
  else s.reg idx

/-- A register read by the host: the byte on reg_data. No register of the block changes (R40, R70 (d)); the draw counter
moves so that the next unspecified read is a fresh one. -/
def State.readPort (s : State) (v : Byte) : State := (s.setPort { s.port with regData := v }).tick

end Sys2Proof.Machine
end

