-- ==== Sys2Proof/Machine/Bus.lean ====
section
/-! DEFINITION. The Bus Driver (spec/40_bus_driver.md): the shifter and its serial frame (spec/30_encoding.md R100), the
byte transfer every unit uses, and the operations CFGBUS and XFER. -/

namespace Sys2Proof.Machine

/-! ### The serial frame (R100) -/

/-- The bit SDR puts out next: bit 7 if ORDER = 0, bit 0 if ORDER = 1 (R22, R67, R100). -/
def outBit (order : Bool) (sdr : Byte) : Bool := if order then sdr.getLsbD 0 else sdr.getLsbD 7

/-- SDR after one bit has left at one end and `r` has entered at the other (R22, R100). -/
def shiftIn (order : Bool) (sdr : Byte) (r : Bool) : Byte :=
  if order then BitVec.ofBool r ++ sdr.extractLsb' 1 7 else sdr.extractLsb' 0 7 ++ BitVec.ofBool r

/-- MOSI takes the bit SDR puts out. -/
def State.putBit (s : State) : State := s.setBus { s.bus with mosi := outBit s.bus.order s.bus.sdr }

/-- A sampling edge: the sink receives the level of the MOSI line, which is open while PINS_OK = 0 (R36, R280 (a)), SDR takes
in the level of MISO, one more bit is exchanged (R41, R100, R125). That the sink receives one bit at every such edge, so as many as
BITCNT counts, also while PINS_OK = 0, when the level of SCK is unspecified and the spec leaves open what the sink receives (R36,
R280 (a)), is the model's choice: log entry 34. -/
def State.sampleBit (s : State) : State :=
  s.drawMiso.2.setBus { s.bus with sdr := shiftIn s.bus.order s.bus.sdr s.drawMiso.1
                                   bitcnt := s.bus.bitcnt + 1#4
                                   inFlight := s.bus.inFlight ++ [s.lineLevel .mosi] }

/-- The leading edge of a pulse: SCK leaves CPOL; CPHA = 0 samples, CPHA = 1 changes MOSI (R100). -/
def State.leadingEdge (s : State) : State :=
  let s := s.setBus { s.bus with sck := !s.bus.cpol }
  if s.bus.cpha then s.putBit else s.sampleBit

/-- The trailing edge: SCK returns to CPOL; CPHA = 0 changes MOSI to the next bit, if one is left, CPHA = 1 samples (R100). -/
def State.trailingEdge (s : State) : State :=
  let s := s.setBus { s.bus with sck := s.bus.cpol }
  if s.bus.cpha then s.sampleBit
  else if s.bus.bitcnt = 8#4 then s
  else s.putBit

/-- One pulse: with CPHA = 0 the first bit is on MOSI before the first leading edge (R100; log entry 17). -/
def State.pulse (s : State) : State :=
  let s := if !s.bus.cpha && decide (s.bus.bitcnt = 0#4) then s.putBit else s
  s.leadingEdge.trailingEdge

/-! ### The shifter (R125, R126) -/

/-- The shifter can step: EN = 1, ROLE = 1, BUSY = 1 (R125), and it has not stopped for good (R126). -/
def State.shifterReady (s : State) : Bool :=
  s.bus.en && s.bus.role && s.bus.busyFlag && decide (s.env.shifterLeft ≠ some 0)

/-- One bit exchange less is left to a shifter that will stop. -/
def State.useShifter (s : State) : State :=
  s.setEnv { s.env with shifterLeft := s.env.shifterLeft.map (· - 1) }

/-- The shifter's step (R125): exchange one bit; the step that makes BITCNT = 8 also sets DONE and clears BUSY. -/
def State.shifterStep (s : State) : State :=
  let s := s.useShifter.pulse
  if s.bus.bitcnt = 8#4 then s.setBus s.bus.completeFlags else s

/-- Up to `n` shifter steps: none is taken once the shifter cannot step. -/
def State.shift : Nat → State → State
  | 0, s => s
  | n + 1, s => if s.shifterReady then State.shift n s.shifterStep else s

/-! ### The byte transfer (R124) -/

/-- The load of SDR (R124): `SDR <- b`, DONE <- 0, BUSY <- 1, BITCNT <- 0; the sink has received no bit of it (R41). -/
def State.loadSdr (s : State) (b : Byte) : State :=
  s.setBus { s.bus.loadFlags with sdr := b, inFlight := [] }

/-- `XFER(b)` inside any operation (R124 from its second line on): load, wait for DONE while the shifter steps, record the
byte. If DONE never rises it is stuck with BUSY = 1, DONE = 0 and no EvBus (R126, R127, R242). The received byte is left in
SDR. -/
def State.transfer (s : State) (b : Byte) : Run :=
  let t := State.shift 8 (s.loadSdr b)
  if t.bus.doneFlag then .reached (t.emit (.bus t.disp.dc b t.bus.sdr)) else .stuck t

/-! ### CFGBUS and XFER -/

/-- The pseudocode of CFGBUS (R122): the configuration of the build, role controller, enabled, SCK at its idle level. -/
def cfgbusBody (s : State) : Run :=
  .reached (s.setBus { s.bus with role := true
                                  cpol := s.cfg.busSetup.cpol
                                  cpha := s.cfg.busSetup.cpha
                                  order := s.cfg.busSetup.order
                                  div := s.cfg.busSetup.div
                                  en := true
                                  sck := s.cfg.busSetup.cpol })

/-- CFGBUS, `configureBus()` (R122). -/
def execCfgbus (s : State) : Host.Outcome State Fault Refusal := runOp .cfgbus cfgbusBody s

/-- XFER, `transferByte(byte) -> byte` (R124): RESULT takes the received byte. -/
def execXfer (b : Byte) (s : State) : Host.Outcome State Fault Refusal :=
  runOp (.xfer b) (fun s => (s.transfer b).map fun t => t.setResult t.bus.sdr) s

end Sys2Proof.Machine
end

