-- ==== Sys2Proof/Machine/Display.lean ====
section
/-! DEFINITION. The Display Controller Driver (spec/41_display_controller.md): CMDMODE, DATAMODE, SENDCMD, BOOTDISP,
SHUTDOWN and the five toggles. No operation consults DSTATE before acting (R161). -/

namespace Sys2Proof.Machine

/-- CMDMODE, `enterCommandMode()` (R141). -/
def execCmdmode (s : State) : Host.Outcome State Fault Refusal :=
  runOp .cmdmode (fun s => .reached (s.enterMode .cmd)) s

/-- DATAMODE, `enterDataMode()` (R142). -/
def execDatamode (s : State) : Host.Outcome State Fault Refusal :=
  runOp .datamode (fun s => .reached (s.enterMode .data)) s

/-- The pseudocode of SENDCMD (R143): Command Mode, one byte, Data Mode; the received byte is discarded. -/
def sendCommand (c : Byte) (s : State) : Run :=
  ((s.enterMode .cmd).transfer c).map fun s => s.enterMode .data

/-- SENDCMD, `sendCommand(byte)` (R143). -/
def execSendcmd (c : Byte) (s : State) : Host.Outcome State Fault Refusal := runOp (.sendcmd c) (sendCommand c) s

/-- The timed reset pulse: low, delay, release, delay (R145). -/
def State.resetPulse (s : State) : State :=
  (((s.driveRst false).delayFor .rstLow).driveRst true).delayFor .rstRecover

/-- The full-RAM-clearing pass: RAM_CLEAR_COUNT zero bytes as data, if the build has it (R145, R146). -/
def ramClear (s : State) : Run :=
  if s.cfg.ramClearCount = 0 then .reached s
  else loop s.cfg.ramClearCount (fun _ s => s.transfer 0x00#8) (s.driveDc .data)

/-- One turn of the command-table dispatch: fetch the byte at CTP, transfer it, advance CTP by one (R26, R147). -/
def sendTableByte (k : Nat) (s : State) : Run :=
  (s.transfer (s.ctRead k)).map fun s => s.setDisp { s.disp with ctp := s.disp.ctp + 1#16 }

/-- Enter Command Mode, send the whole command table, end in Data Mode (R145, R147). -/
def commandTable (s : State) : Run :=
  let s := (s.driveDc .cmd).setDState .commandMode
  let s := s.setDisp { s.disp with ctp := 0#16 }
  (loop s.cfg.cmdTable.length sendTableByte s).map fun s => (s.driveDc .data).setDState .dataMode

/-- The pseudocode of BOOTDISP (R145). -/
def bootDisplay (s : State) : Run := (ramClear s.resetPulse).bind commandTable

/-- BOOTDISP, `bootDisplay()` (R145). -/
def execBootdisp (s : State) : Host.Outcome State Fault Refusal := runOp .bootdisp bootDisplay s

/-- The pseudocode of SHUTDOWN (R148): the sequence in Command Mode, the settle delay, reset asserted and left asserted, DC
left at CMD. -/
def shutdownBody (s : State) : Run :=
  (loop s.cfg.shutdownSeq.length (fun k s => s.transfer (s.cfg.shutdownSeq.getD k 0#8)) (s.driveDc .cmd)).map fun s =>
    ((s.delayFor .offSettle).driveRst false).setDState .off

/-- SHUTDOWN, `shutdown()` (R148). -/
def execShutdown (s : State) : Host.Outcome State Fault Refusal := runOp .shutdown shutdownBody s

/-- INVERT f = SENDCMD OPC_INVERT[f] (R150, R151). -/
def execInvert (f : Bool) (s : State) : Host.Outcome State Fault Refusal :=
  runOp (.invert f) (fun s => sendCommand (opcSelect s.cfg.opcInvert f) s) s

/-- FLIPH f = SENDCMD OPC_FLIPH[f] (R150, R152). -/
def execFliph (f : Bool) (s : State) : Host.Outcome State Fault Refusal :=
  runOp (.fliph f) (fun s => sendCommand (opcSelect s.cfg.opcFlipH f) s) s

/-- FLIPV f = SENDCMD OPC_FLIPV[f] (R150, R153). -/
def execFlipv (f : Bool) (s : State) : Host.Outcome State Fault Refusal :=
  runOp (.flipv f) (fun s => sendCommand (opcSelect s.cfg.opcFlipV f) s) s

/-- ALLON f = SENDCMD OPC_ALLON[f] (R150, R154). -/
def execAllon (f : Bool) (s : State) : Host.Outcome State Fault Refusal :=
  runOp (.allon f) (fun s => sendCommand (opcSelect s.cfg.opcAllOn f) s) s

/-- CONTRAST f = SENDCMD OPC_CONTRAST[f] (R150, R155). -/
def execContrast (f : Bool) (s : State) : Host.Outcome State Fault Refusal :=
  runOp (.contrast f) (fun s => sendCommand (opcSelect s.cfg.opcContrast f) s) s

end Sys2Proof.Machine
end

