-- ==== Sys2Proof/Machine/Input.lean ====
section
/-! DEFINITION. The Input Sampler (spec/43_input_sampler.md): RDBTN and SAFEMODE. -/

namespace Sys2Proof.Machine

/-- The pseudocode of RDBTN (R200): one sample of all lines, its event, RESULT <- the mask. -/
def rdbtnBody (s : State) : Run :=
  let v := s.drawButtons.1
  .reached ((s.drawButtons.2.emit (.btn v)).setResult (buttonMask s.cfg v))

/-- RDBTN, `readButtons() -> bitmask` (R200). -/
def execRdbtn (s : State) : Host.Outcome State Fault Refusal := runOp .rdbtn rdbtnBody s

/-- The safe-mode halt (R202, R245): the indicator at its lit level, its event, then LIFE <- SafeHalt. -/
def State.enterSafeHalt (s : State) : State :=
  let s := (s.setLedLine s.cfg.safeIndicator (indicatorLit s.cfg s.cfg.safeIndicator)).emit
    (.led s.cfg.safeIndicator (indicatorLit s.cfg s.cfg.safeIndicator))
  s.setPort { s.port with life := .safeHalt }

/-- The pseudocode of SAFEMODE (R202): pressed (low) halts for good, otherwise it returns. -/
def safemodeBody (s : State) : Run :=
  let v := s.drawButtons.1
  let t := s.drawButtons.2.emit (.btn v)
  if v.getLsbD s.cfg.btnUp then .reached t else .stuck t.enterSafeHalt

/-- SAFEMODE, `checkSafeMode()` (R202). -/
def execSafemode (s : State) : Host.Outcome State Fault Refusal := runOp .safemode safemodeBody s

end Sys2Proof.Machine
end

