-- ==== Sys2Proof/Machine/Platform.lean ====
section
/-! DEFINITION. The pin and power bootstrap and the RGB indicator driver (spec/44_platform_ops.md §1, §2): CFGPINS, CFGPWR,
SETCH, RELCH. -/

namespace Sys2Proof.Machine

/-- The RGB channels and the further indicator line driven to their default levels, which the spec does not know (R210):
free. PWM_EN and PWM_CMP are not touched. -/
def freeLeds (n : Nat) (p : Platform) : Platform :=
  { p with red := { p.red with line := freeBit (.pinLed (.rgb .r)) n }
           green := { p.green with line := freeBit (.pinLed (.rgb .g)) n }
           blue := { p.blue with line := freeBit (.pinLed (.rgb .b)) n }
           auxLine := freeBit (.pinLed .aux) n }

/-- The bus lines at CFGPINS: free while the bus is not enabled; an enabled bus unit keeps driving them (R25, R210; log
entry 16). -/
def freeBusLines (n : Nat) (b : BusUnit) : BusUnit :=
  if b.en then b else { b with sck := freeBit .pinSck n, mosi := freeBit .pinMosi n }

/-- The pseudocode of CFGPINS (R210): the levels it drives are unspecified, so DC, DRST and the LED lines are free
afterwards; PINS_OK <- 1; EvPins. -/
def cfgpinsBody (s : State) : Run :=
  let n := s.env.draws
  let s := s.tick.setBus (freeBusLines n s.bus)
  let s := s.setDisp { s.disp with dc := freeDc n, drst := freeBit .pinDrst n }
  .reached ((s.setPlat { freeLeds n s.plat with pinsOk := true }).emit .pins)

/-- CFGPINS, `configurePins()` (R210). -/
def execCfgpins (s : State) : Host.Outcome State Fault Refusal := runOp .cfgpins cfgpinsBody s

/-- The pseudocode of CFGPWR (R212). -/
def cfgpwrBody (s : State) : Run := .reached ((s.setPlat { s.plat with pwrSaved := true }).emit .power)

/-- CFGPWR, `configurePowerSaving()` (R212). -/
def execCfgpwr (s : State) : Host.Outcome State Fault Refusal := runOp .cfgpwr cfgpwrBody s

/-- The end values on a capable channel: waveform off, pin driven digitally, compare register kept (R215). -/
def State.driveDigital (s : State) (ch : Channel) (l : Bool) : State :=
  ((s.setChan ch { s.chan ch with pwmEn := false, line := l }).emit (.pwm ch false (s.chan ch).pwmCmp)).emit
    (.led (.rgb ch) l)

/-- The compare value of an intermediate intensity (R216). -/
def pwmCompare (c : Cfg) (ch : Channel) (v : Byte) : Byte := if perChannel c.inverted ch then 255#8 - v else v

/-- An intermediate value on a capable channel: compare register programmed, waveform on, digital level kept (R216). -/
def State.driveWaveform (s : State) (ch : Channel) (v : Byte) : State :=
  (s.setChan ch { s.chan ch with pwmCmp := pwmCompare s.cfg ch v, pwmEn := true }).emit
    (.pwm ch true (pwmCompare s.cfg ch v))

/-- The level of a binary-only channel: lit from RGB_THRESHOLD on (R217). -/
def binaryLevel (c : Cfg) (ch : Channel) (v : Byte) : Bool :=
  if c.rgbThreshold.toNat ≤ v.toNat then litLevel c ch else darkLevel c ch

/-- A binary-only channel: the digital level only (R217). -/
def State.driveBinary (s : State) (ch : Channel) (v : Byte) : State :=
  (s.setChan ch { s.chan ch with line := binaryLevel s.cfg ch v }).emit (.led (.rgb ch) (binaryLevel s.cfg ch v))

/-- The pseudocode of SETCH (R214). -/
def setchBody (ch : Channel) (v : Byte) (s : State) : Run :=
  if perChannel s.cfg.pwmCapable ch then
    if v = 0#8 then .reached (s.driveDigital ch (darkLevel s.cfg ch))
    else if v = 255#8 then .reached (s.driveDigital ch (litLevel s.cfg ch))
    else .reached (s.driveWaveform ch v)
  else .reached (s.driveBinary ch v)

/-- SETCH ch, v, `setChannel(channel, intensity 0-255)` (R214); channel 3 is reserved and refused (R96). -/
def execSetch (ch : BitVec 2) (v : Byte) (s : State) : Host.Outcome State Fault Refusal :=
  match channelOfBits ch with
  | some c => runOp (.setch ch v) (setchBody c v) s
  | none => .refused .reservedChannel

/-- Waveform output off on one channel; its level and compare register are kept (R218). -/
def State.releaseChan (s : State) (ch : Channel) : State :=
  (s.setChan ch { s.chan ch with pwmEn := false }).emit (.pwm ch false (s.chan ch).pwmCmp)

/-- The pseudocode of RELCH (R218): R, G, B. -/
def relchBody (s : State) : Run := .reached (((s.releaseChan .r).releaseChan .g).releaseChan .b)

/-- RELCH, `releaseChannels()` (R218). -/
def execRelch (s : State) : Host.Outcome State Fault Refusal := runOp .relch relchBody s

end Sys2Proof.Machine
end

