-- ==== Sys2Proof/Machine/Lifecycle.lean ====
section
/-! DEFINITION. The lifecycle controller (spec/44_platform_ops.md §3): BOOT, IDLE, MRESTART, GETW, GETH. -/

namespace Sys2Proof.Machine

/-- The pseudocode of BOOT (R225): CFGPINS, CFGBUS, BOOTDISP, CFGPWR, each run to its end before the next. -/
def bootBody (s : State) : Run :=
  (((cfgpinsBody s).bind cfgbusBody).bind bootDisplay).bind cfgpwrBody

/-- BOOT, `boot()` (R225): one operation for the requester. -/
def execBoot (s : State) : Host.Outcome State Fault Refusal := runOp .boot bootBody s

def State.setSleeping (s : State) (b : Bool) : State := s.setPlat { s.plat with sleeping := b }

/-- The pseudocode of IDLE (R226): asleep until wake_irq; if it never occurs, asleep for good (R227). -/
def idleBody (s : State) : Run :=
  let s := (s.setSleeping true).emit .sleep
  if s.drawWake.1 then .reached ((s.drawWake.2.setSleeping false).emit .wake) else .stuck s.drawWake.2

/-- IDLE, `idle()` (R226). -/
def execIdle (s : State) : Host.Outcome State Fault Refusal := runOp .idle idleBody s

/-- The marker write `MemWrite(MK:0, 2, v)`: low byte at index 0, high byte at index 1 (R66). -/
def State.writeMarker (s : State) (v : Half) : State :=
  (s.mkWrite 0 (v.extractLsb' 0 8)).mkWrite 1 (v.extractLsb' 8 8)

/-- The watchdog is triggered (R228, R246): the marker's event, LIFE <- ResetPending, EvWdReset. The reset itself is the
machine's next step (log entry 10). -/
def State.triggerWatchdog (s : State) : State :=
  let s := s.emit (.marker s.cfg.markerValue)
  (s.setPort { s.port with life := .resetPending }).emit .wdReset

/-- An external reset between the two byte writes of the marker: only marker byte `i` is in memory (R66: "not atomic with
respect to a reset"); the operation is abandoned (R270). -/
def State.tornMarker (s : State) (i : Nat) (v : Byte) : State := (s.mkWrite i v).hardReset .external

/-- The pseudocode of MRESTART (R228): it never completes. Which of the marker bytes is written first is not in the spec (R66
gives their places only), so a torn write leaves either one (log entry 8). -/
def mrestartBody (s : State) : Run :=
  let t := s.drawTear.2
  match s.drawTear.1 with
  | .whole => .stuck (t.writeMarker s.cfg.markerValue).triggerWatchdog
  | .lowOnly => .stuck (t.tornMarker 0 (s.cfg.markerValue.extractLsb' 0 8))
  | .highOnly => .stuck (t.tornMarker 1 (s.cfg.markerValue.extractLsb' 8 8))

/-- MRESTART, `requestMaintenanceRestart()` (R228). -/
def execMrestart (s : State) : Host.Outcome State Fault Refusal := runOp .mrestart mrestartBody s

/-- GETW, `width` (R230). -/
def execGetw (s : State) : Host.Outcome State Fault Refusal :=
  runOp .getw (fun s => .reached (s.setResult (BitVec.ofNat 8 s.cfg.width))) s

/-- GETH, `height` (R231). -/
def execGeth (s : State) : Host.Outcome State Fault Refusal :=
  runOp .geth (fun s => .reached (s.setResult (BitVec.ofNat 8 s.cfg.height))) s

end Sys2Proof.Machine
end

