-- ==== Sys2Proof/Machine/Paint.lean ====
section
/-! DEFINITION. The Framebuffer Transfer Engine (spec/42_transfer_engine.md): PAINT in its four variants. The loops run
over naturals (R186); the working registers of spec/10_state.md R27, R32 show the same values in their own widths (log
entry 15). -/

namespace Sys2Proof.Machine

/-- `if S.CLR = 1 then MemWrite(FB:i, 1, 0)` (R78). -/
def State.clearIf (s : State) (i : Nat) : State := if s.eng.clr then s.fbWrite i 0x00#8 else s

/-- One consumed source byte of the 1bpp variants: IDX, read, zero write, transfer, in that order (R78, R172, R174). -/
def paintByte (i : Nat) (s : State) : Run :=
  let s := s.setEng { s.eng with idx := BitVec.ofNat 16 i }
  (s.clearIf i).transfer (s.fbRead i)

/-- LINEAR1: the buffer as one flat run; DC is not touched (R174). -/
def paintLinear (s : State) : Run := loop (fbSize s.cfg) paintByte s

/-- One byte of one page, left to right (R172). -/
def paintColumn (p c : Nat) (s : State) : Run :=
  paintByte (p * s.cfg.width + c) (s.setEng { s.eng with col := BitVec.ofNat 8 c })

/-- One page: the command pair in Command Mode, then W data bytes in Data Mode (R105, R172). -/
def paintPage (p : Nat) (s : State) : Run :=
  let s := (s.setEng { s.eng with page := BitVec.ofNat 8 p }).enterMode .cmd
  (s.transfer (pageSelectByte s.cfg p)).bind fun s =>
    (s.transfer s.cfg.columnReset).bind fun s =>
      loop s.cfg.width (paintColumn p) (s.enterMode .data)

/-- PAGED1: the pages top to bottom (R172). -/
def paintPaged (s : State) : Run := loop (pageCount s.cfg) paintPage s

/-- One output byte of a source pair: pack, transfer, shift both sources right by `sh` (R181). -/
def expandShift (pack : Expander → Byte → Byte → Byte) (sh : Nat) (k : Nat) (s : State) : Run :=
  let s := s.setEng { s.eng with shcnt := BitVec.ofNat 4 k }
  (s.transfer (pack s.cfg.expander s.eng.srcA s.eng.srcB)).map fun s =>
    s.setEng { s.eng with srcA := s.eng.srcA >>> sh, srcB := s.eng.srcB >>> sh }

/-- One source pair: read both, clear both, `nshift` output bytes, IDX <- IDX + stride (R181). -/
def expandPair (pack : Expander → Byte → Byte → Byte) (nshift sh : Nat) (x q : Nat) (s : State) : Run :=
  let i := pairIndex s.cfg.expander x q
  let j := i + s.cfg.expander.pairOffset
  let s := s.setEng { s.eng with inner := BitVec.ofNat 16 q, idx := BitVec.ofNat 16 i, srcA := s.fbRead i, srcB := s.fbRead j }
  (loop nshift (expandShift pack sh) ((s.clearIf i).clearIf j)).map fun s =>
    s.setEng { s.eng with idx := BitVec.ofNat 16 (i + s.cfg.expander.innerStride) }

/-- One column: its pairs top to bottom, then IDX <- IDX - back offset (R181). -/
def expandColumn (pack : Expander → Byte → Byte → Byte) (nshift sh : Nat) (x : Nat) (s : State) : Run :=
  (loop s.cfg.expander.innerCount (expandPair pack nshift sh x)
      (s.setEng { s.eng with outer := BitVec.ofNat 16 x })).map fun s =>
    s.setEng { s.eng with idx := BitVec.ofNat 16 (columnStart s.cfg.expander (x + 1)) }

/-- The expander algorithm (R181): IDX from 0, the columns left to right; DC is not touched. -/
def paintExpand (pack : Expander → Byte → Byte → Byte) (nshift sh : Nat) (s : State) : Run :=
  loop s.cfg.expander.outerCount (expandColumn pack nshift sh) (s.setEng { s.eng with idx := 0#16 })

/-- The pseudocode of PAINT (R170): latch clearAfter, then the build's arm. -/
def paintBody (f : Bool) (s : State) : Run :=
  let s := s.setEng { s.eng with clr := f }
  match s.cfg.family with
  | .paged1 => paintPaged s
  | .linear1 => paintLinear s
  | .exp4 => paintExpand pack4 8 1 s
  | .exp2 => paintExpand pack2 4 2 s

/-- PAINT f, `transfer(buffer, width, height, controllerFamily, clearAfter)` (R170). -/
def execPaint (f : Bool) (s : State) : Host.Outcome State Fault Refusal := runOp (.paint f) (paintBody f) s

end Sys2Proof.Machine
end

