-- ==== Sys2Proof/Machine/Dispatch.lean ====
section
/-! DEFINITION. One arm for each operation of spec/opcode_table.json. -/

namespace Sys2Proof.Machine

def exec (i : Instr) (s : State) : Host.Outcome State Fault Refusal :=
  match i with
  | .cfgbus => Sys2Proof.Machine.execCfgbus s
  | .xfer b => Sys2Proof.Machine.execXfer b s
  | .cmdmode => Sys2Proof.Machine.execCmdmode s
  | .datamode => Sys2Proof.Machine.execDatamode s
  | .sendcmd c => Sys2Proof.Machine.execSendcmd c s
  | .bootdisp => Sys2Proof.Machine.execBootdisp s
  | .shutdown => Sys2Proof.Machine.execShutdown s
  | .invert f => Sys2Proof.Machine.execInvert f s
  | .fliph f => Sys2Proof.Machine.execFliph f s
  | .flipv f => Sys2Proof.Machine.execFlipv f s
  | .allon f => Sys2Proof.Machine.execAllon f s
  | .contrast f => Sys2Proof.Machine.execContrast f s
  | .paint f => Sys2Proof.Machine.execPaint f s
  | .rdbtn => Sys2Proof.Machine.execRdbtn s
  | .safemode => Sys2Proof.Machine.execSafemode s
  | .cfgpins => Sys2Proof.Machine.execCfgpins s
  | .cfgpwr => Sys2Proof.Machine.execCfgpwr s
  | .setch ch v => Sys2Proof.Machine.execSetch ch v s
  | .relch => Sys2Proof.Machine.execRelch s
  | .boot => Sys2Proof.Machine.execBoot s
  | .idle => Sys2Proof.Machine.execIdle s
  | .mrestart => Sys2Proof.Machine.execMrestart s
  | .getw => Sys2Proof.Machine.execGetw s
  | .geth => Sys2Proof.Machine.execGeth s

end Sys2Proof.Machine
end

