-- ==== Sys2Proof/Machine/HostPort.lean ====
section
/-! DEFINITION. What a step does with the outside's next action (spec/00_scope.md R18, spec/30_encoding.md R95 to R97):
the register read port, the graphics layer's and the bootloader's writes, the request at the operation port, a reset. Step.lean
only calls it. -/

namespace Sys2Proof.Machine

/-- The outside has taken its next action. -/
def State.dropHost (s : State) : State := { s with host := s.host.tail }

/-- A register read (R40): allowed at any time; index 7 does not exist (R60). -/
def stepReadReg (idx : BitVec 3) (s : State) : Host.Outcome State Fault Refusal :=
  match s.regRead idx with
  | some v => .next (s.dropHost.readPort v)
  | none => .fault .noSuchRegister

/-- A graphics-layer write (R61, R77, R284): only between operations, at an index below FB_SIZE. -/
def stepFbWrite (index : Nat) (v : Byte) (s : State) : Host.Outcome State Fault Refusal :=
  if s.port.opBusy then .next s
  else if index < fbSize s.cfg then .next (s.dropHost.fbWrite index v)
  else .fault (.noSuchFbIndex index)

/-- A bootloader write to the marker (R39, R64, R272): only between operations, at index 0 or 1. -/
def stepMarkerWrite (index : Nat) (v : Byte) (s : State) : Host.Outcome State Fault Refusal :=
  if s.port.opBusy then .next s
  else if index < 2 then .next (s.dropHost.mkWrite index v)
  else .fault (.noSuchMarkerIndex index)

/-- A request at the operation port (R95, R283): presented only while OPBUSY = 0; a reserved word is refused (R96); any other
runs as one whole operation. -/
def stepRequest (w : Word) (s : State) : Host.Outcome State Fault Refusal :=
  if s.port.opBusy then .next s
  else match decode w with
    | .ok i => exec i s.dropHost
    | .error why => .refused (.reservedRequest why)

/-- The outside's next action; with none, the block waits (R271), for a request or, stuck in an operation, for ever. A reset
needs no OPBUSY = 0: it overrides whatever is in progress (R252, R270). -/
def stepHost (s : State) : Host.Outcome State Fault Refusal :=
  match s.host with
  | [] => .next s
  | .readReg idx :: _ => stepReadReg idx s
  | .fbWrite index v :: _ => stepFbWrite index v s
  | .markerWrite index v :: _ => stepMarkerWrite index v s
  | .request w :: _ => stepRequest w s
  | .powerOn :: _ => .next (s.dropHost.hardReset .powerOn)
  | .externalReset :: _ => .next (s.dropHost.hardReset .external)

/-- What the machine does next: the watchdog's reset at once (R228 (d)); else the outside's next action. -/
def stepLegal (s : State) : Host.Outcome State Fault Refusal :=
  match s.port.life with
  | .resetPending => .next (s.hardReset .watchdog)
  | .running | .safeHalt => stepHost s

/-- The next request is `w`, and nothing stands in its way: no watchdog reset is pending, no operation is in progress. -/
def placeRequest (s : State) (w : Word) : State :=
  { s with port := { s.port with opBusy := false, life := .running }
           host := .request w :: s.host }

/-- A program is a list of requests issued one after the other (R110). -/
def State.withProgram (s : State) (ws : List Word) : State := { s with host := ws.map .request }

end Sys2Proof.Machine
end

