-- ==== Sys2Proof/Machine/Legal.lean ====
section
/-! DEFINITION. Which builds are legal: the constraints of spec/00_scope.md R6, the reserved divisors of
spec/10_state.md R21, and the expander constraint of spec/42_transfer_engine.md R182 with the side condition of R186. The
step refuses a build that is not legal (R182, spec/93_implementation_defined.md U4; log entry 14). -/

namespace Sys2Proof.Machine

/-- 1 <= W <= 255; H a multiple of 8, 8 <= H <= 248 (R6). -/
def legalGeometry (c : Cfg) : Bool :=
  decide (1 ≤ c.width) && decide (c.width ≤ 255) && decide (8 ≤ c.height) && decide (c.height ≤ 248)
    && decide (c.height % 8 = 0)

/-- OPC_x[0] != OPC_x[1] (R6). -/
def legalPair (p : OpPair) : Bool := decide (p.off ≠ p.on)

/-- The command bytes: five toggles, the shutdown sequence, the command table, PAGE_SELECT injective on 0..P-1 (R6). -/
def legalCommands (c : Cfg) : Bool :=
  legalPair c.opcInvert && legalPair c.opcFlipH && legalPair c.opcFlipV && legalPair c.opcAllOn
    && legalPair c.opcContrast && decide (2 ≤ c.shutdownSeq.length) && decide (c.cmdTable.length ≤ 65535)
    && decide (c.pageSelect.length = pageCount c) && decide c.pageSelect.Nodup

/-- 1 <= NB <= 8; BTN_BIT injective into 0..7; BTN_UP < NB (R6). -/
def legalButtons (c : Cfg) : Bool :=
  decide (1 ≤ buttonCount c) && decide (buttonCount c ≤ 8) && c.btnBit.all (fun k => decide (k < 8))
    && decide c.btnBit.Nodup && decide (c.btnUp < buttonCount c)

/-- R182: the traversal's indices are exactly 0 .. FB_SIZE-1, each once. -/
def legalCoverage (c : Cfg) : Bool :=
  decide ((traversal c.expander).length = fbSize c)
    && (traversal c.expander).all (fun a => decide (a < fbSize c))
    && decide (traversal c.expander).Nodup

/-- R186's side condition: IDX fits its 16-bit register after each inner loop, and the subtraction that follows does not go
below zero while another outer iteration comes (R181 (d), (e)). -/
def legalIndexRange (e : Expander) : Bool :=
  (List.range e.outerCount).all fun x =>
    decide (pairIndex e x e.innerCount ≤ 65535)
      && (decide (e.outerCount ≤ x + 1) || decide (e.backOffset ≤ pairIndex e x e.innerCount))

/-- The on-levels are nonzero (R6); the traversal constants are constrained in the two families that use them (R182). -/
def legalExpander (c : Cfg) : Bool :=
  decide (c.expander.on4 ≠ 0#4) && decide (c.expander.on2 ≠ 0#2) &&
    match c.family with
    | .paged1 | .linear1 => true
    | .exp4 | .exp2 => legalCoverage c && legalIndexRange c.expander

/-- A legal build. -/
def legal (c : Cfg) : Bool :=
  legalGeometry c && legalCommands c && decide (2 ≤ c.busSetup.div.toNat) && legalExpander c && legalButtons c

end Sys2Proof.Machine
end

