-- ==== Sys2Proof/Machine/Step.lean ====
section
/-! DEFINITION. One step of the machine, and the placing of one request for the host. -/

namespace Sys2Proof.Machine

/-- One step: a build that is not legal is refused (R182); else the watchdog's reset, or the outside's next action (one
whole operation is one step, R95). -/
def step (s : State) : Host.Outcome State Fault Refusal :=
  if legal s.cfg then stepLegal s else .refused .illegalConfig

/-- `s` with the request word of a table row presented at the operation port, so that the very next step runs it (R95; log
entry 9). -/
def State.withFetchWord (s : State) (nbits w : Nat) : State := placeRequest s (tableWord nbits w)

end Sys2Proof.Machine
end

