-- ==== Sys2Proof/Machine/Sink.lean ====
section
/-! DEFINITION. The reference sink (spec/20_memory.md R72 to R75): the display controller chip and panel as a view of the
trace of the current life. It is outside CORE and no meaning reads it (log entry 19). -/

namespace Sys2Proof.Machine

/-- The sink's state (R42, R72). `known`: the fields mean something. They do once CFGPINS has run in this life (`wired`) and
the reset line has been driven low after it; before that, and after a further CFGPINS, the level of DRST is unspecified
(R36, R270, R282). `epoch` counts the resets of the sink: each leaves RAM unspecified. -/
structure Sink where
  wired    : Bool
  known    : Bool
  inReset  : Bool
  on       : Bool
  inv      : Bool
  flipH    : Bool
  flipV    : Bool
  allOn    : Bool
  contrast : Bool
  ram      : Memory
  epoch    : Nat
  page     : Nat
  col      : Nat
  ptr      : Nat
  deriving DecidableEq, Repr

/-- The sink at the start of a life of CORE: nothing is known of it. -/
def sinkStart : Sink where
  wired := false
  known := false
  inReset := false
  on := false
  inv := false
  flipH := false
  flipV := false
  allOn := false
  contrast := false
  ram := []
  epoch := 0
  page := 0
  col := 0
  ptr := 0

/-- A boolean after the command byte `b`: OPC_x[f] sets it to f, any other byte leaves it (R72). -/
def toggled (p : OpPair) (b : Byte) (old : Bool) : Bool := if b = p.off then false else if b = p.on then true else old

/-- A command byte (R72, R73): the toggles, the shutdown bytes, the page and column commands; others are uninterpreted. Bytes of
a framebuffer sent in Command Mode are decoded so too: their effect on the sink is not defined by the spec (R286, U15), and
that they act as R72 says of any command byte is the model's choice (log entry 32). -/
def sinkCommand (c : Cfg) (b : Byte) (k : Sink) : Sink :=
  { k with inv := toggled c.opcInvert b k.inv
           flipH := toggled c.opcFlipH b k.flipH
           flipV := toggled c.opcFlipV b k.flipV
           allOn := toggled c.opcAllOn b k.allOn
           contrast := toggled c.opcContrast b k.contrast
           on := k.on && !c.shutdownSeq.contains b
           page := (c.pageSelect.idxOf? b).getD k.page
           col := if b = c.columnReset then 0 else k.col }

/-- How many data bytes fill the sink's RAM once (R74, R75). -/
def sinkRamSize (c : Cfg) : Nat :=
  match c.family with
  | .paged1 | .linear1 => fbSize c
  | .exp4 => c.width * c.height / 2
  | .exp2 => c.width * c.height / 4

/-- A data byte (R73 to R75). In the paged family RAM[PAGE][COL] stands at PAGE*W + COL; a byte past the end of a page is
stored nowhere. The zero bytes of BOOTDISP's clear pass are data bytes like any other: when their count is no multiple of the
RAM's size the pointer is not at its origin after BOOTDISP, where R74 and R75 are followed and not R287's summary (log entry
33). -/
def sinkData (c : Cfg) (b : Byte) (k : Sink) : Sink :=
  match c.family with
  | .paged1 =>
    { k with ram := if k.col < c.width then k.ram.write (k.page * c.width + k.col) b else k.ram
             col := k.col + 1 }
  | .linear1 | .exp4 | .exp2 =>
    { k with ram := k.ram.write k.ptr b
             ptr := (k.ptr + 1) % sinkRamSize c }

/-- A low level on the reset line (R72): in reset, the six mode booleans cleared, the pointers zero, RAM unspecified. -/
def sinkReset (k : Sink) : Sink :=
  { sinkStart with wired := k.wired, known := k.wired, inReset := true, epoch := k.epoch + 1 }

/-- One event of the trace, as the sink sees it (R72). -/
def sinkStep (c : Cfg) (k : Sink) : Event → Sink
  | .pins => { k with wired := true, known := false }
  | .rst false => sinkReset k
  | .rst true => { k with inReset := false }
  | .bus m b _ =>
    if k.inReset then k else match m with
      | .cmd => sinkCommand c b k
      | .data => sinkData c b k
  | .dc _ | .delay _ | .btn _ | .led _ _ | .pwm _ _ _ | .power | .marker _ | .sleep | .wake | .wdReset => k

/-- The sink after the events of this life. -/
def State.sink (s : State) : Sink := s.tr.foldl (sinkStep s.cfg) sinkStart

/-- A byte of the sink's RAM: free where nothing was stored since the sink's last reset (R72). -/
def State.sinkByte (s : State) (a : Nat) : Byte :=
  (s.sink.ram.read a).getD (freeBits 8 (.sinkByte s.lives a) s.sink.epoch)

/-- Where a PAINT of an expander family reads the byte that holds pixel (x, y): its place among the indices R181 reads, i
then j of each pair. An even place is a SRCA, an odd one a SRCB. -/
def sourcePlace (c : Cfg) (x y : Nat) : Nat := (traversal c.expander).idxOf (pixelIndex c x y)

/-- The number of the data byte of an EXP4 PAINT that carries pixel (x, y), for the build's own traversal (R75, R181). -/
def exp4ByteOf (c : Cfg) (x y : Nat) : Nat := sourcePlace c x y / 2 * 8 + y % 8

/-- The number of the data byte of an EXP2 PAINT that carries pixel (x, y), for the build's own traversal (R75, R181). -/
def exp2ByteOf (c : Cfg) (x y : Nat) : Nat := sourcePlace c x y / 2 * 4 + y % 8 / 2

/-- Whether a group of an expander byte is a pixel that is on: 0 is off, the on-level on (R106, R107). The spec does not say
what any other group shows (stray data bytes): free (log entry 31). -/
def groupOn (group on : Nat) : Bool :=
  if group = 0 then false else if group = on then true else freeBit (.strayGroup group) 0

/-- Whether the sink's RAM has pixel (x, y) on (R73 to R75; in the expander families through the engine's traversal). -/
def State.sinkPixel (s : State) (x y : Nat) : Bool :=
  match s.cfg.family with
  | .paged1 | .linear1 => (s.sinkByte (pixelIndex s.cfg x y)).getLsbD (pixelBit y)
  | .exp4 =>
    groupOn ((s.sinkByte (exp4ByteOf s.cfg x y)).extractLsb' (sourcePlace s.cfg x y % 2 * 4) 4).toNat s.cfg.expander.on4.toNat
  | .exp2 =>
    groupOn ((s.sinkByte (exp2ByteOf s.cfg x y)).extractLsb' (sourcePlace s.cfg x y % 2 * 4 + y % 2 * 2) 2).toNat
      s.cfg.expander.on2.toNat

/-! ### The rendered picture (R72; log entry 30) -/

/-- Whether the panel lights pixel (x, y), given the pixels `ram` of the RAM: mirrored left-right and top-bottom (R152, R153),
all lit regardless of the RAM (R154), inverted (R151). The spec does not say what inversion makes of an all-lit panel: free. -/
def Sink.lit (k : Sink) (c : Cfg) (ram : Nat → Nat → Bool) (x y : Nat) : Bool :=
  match k.allOn, k.inv with
  | true, true => freeBit .allOnInverted 0
  | true, false => true
  | false, inv =>
    ram (if k.flipH then c.width - 1 - x else x) (if k.flipV then c.height - 1 - y else y) ^^ inv

/-- Something may be said about the picture: the sink is known and out of reset, and the driver is neither Uninitialized nor
Off (R161, R280, R288). -/
def State.sinkShows (s : State) : Bool :=
  s.sink.known && !s.sink.inReset && (s.disp.dstate == .commandMode || s.disp.dstate == .dataMode)

/-- The rendered picture at (x, y), a brightness: a function of RAM and the six booleans of the sink (R72). How ON and CONTRAST
enter is not in the spec, so the brightness of a lit and of an unlit pixel is a free value for each setting of the two; where
nothing may be said about the picture it is free at every moment. -/
def State.picture (s : State) (x y : Nat) : Nat :=
  if s.sinkShows then Config.free (.brightness s.sink.on s.sink.contrast (s.sink.lit s.cfg s.sinkPixel x y)) 0
  else Config.free (.unshown x y) s.tr.length

end Sys2Proof.Machine
end

