-- ==== Sys2Proof/Safety.lean ====
section
/-! DEFINITION. The words claims are made in: what the trace shows apart from the received bytes, what the bus must supply
for an operation to complete, frames, the byte streams of PAINT, the obligations on the requester
(spec/70_reset_and_hazards.md R280 to R288), and the invariant of the machine. -/

namespace Sys2Proof.Machine

/-! ### The trace -/

/-- An event without the received byte, which is a draw (R124 (b)). -/
def Event.shape : Event → Event
  | .bus m tx _ => .bus m tx 0#8
  | e => e

/-- `t`'s trace is `s`'s trace followed by events that read `l` apart from the received bytes. -/
def Emits (s t : State) (l : List Event) : Prop := ∃ ev, t.tr = s.tr ++ ev ∧ ev.map Event.shape = l

/-- The transfers of the bytes `bs` in mode `m`. -/
def transfers (m : DcMode) (bs : List Byte) : List Event := bs.map fun b => .bus m b 0#8

/-! ### What the environment supplies -/

/-- The level of MISO at the `k`-th sampling edge from now (R25, R100). -/
def State.misoAt (s : State) (k : Nat) : Bool :=
  match s.env.miso[k]? with
  | some r => r
  | none => freeBit .miso (s.env.draws + (k - s.env.miso.length))

/-- The place in a byte of the `k`-th bit of its frame: 7 - k if ORDER = 0, k if ORDER = 1 (R100). -/
def framePos (order : Bool) (k : Nat) : Nat := if order then k else 7 - k

/-- The premise BusLive (R126, R243): an enabled shifter step is eventually taken. -/
def BusLive (s : State) : Prop := s.env.shifterLeft = none

/-- The shifter does not stop within the next `n` bytes: what an operation of `n` transfers needs of BusLive (R243). -/
def ShifterLasts (s : State) (n : Nat) : Prop := ∀ m, s.env.shifterLeft = some m → 8 * n ≤ m

/-- The shifter is enabled (R125) and lasts for `n` more bytes: all an operation of `n` transfers needs (R243). -/
def BusReady (s : State) (n : Nat) : Prop := s.bus.en = true ∧ s.bus.role = true ∧ ShifterLasts s n

/-- The levels of the NB button lines at the next sample (R200). -/
def State.buttonsNow (s : State) : Byte :=
  buttonLines s.cfg (match s.env.buttons with
    | v :: _ => v
    | [] => freeBits 8 .buttons s.env.draws)

/-- Whether wake_irq occurs after the entry of an IDLE requested now (R226). -/
def State.wakeNow (s : State) : Bool :=
  match s.env.wake with
  | w :: _ => w
  | [] => freeBit .wake s.env.draws

/-- Whether an external reset falls between the marker writes of an MRESTART requested now (R66). -/
def State.tearNow (s : State) : MarkerTear :=
  match s.env.tears with
  | t :: _ => t
  | [] => freeTear s.env.draws

/-! ### Frames -/

/-- Every byte of both memories reads as before. -/
def SameMemory (s t : State) : Prop := (∀ a, t.fbRead a = s.fbRead a) ∧ ∀ a, t.mkRead a = s.mkRead a

/-- The bus configuration is as before (R20, R21). -/
def SameBusSetup (s t : State) : Prop :=
  t.bus.en = s.bus.en ∧ t.bus.role = s.bus.role ∧ t.bus.order = s.bus.order ∧ t.bus.cpol = s.bus.cpol
    ∧ t.bus.cpha = s.bus.cpha ∧ t.bus.div = s.bus.div

/-- The build, what the outside does next, and the life are as before. -/
def SameSystem (s t : State) : Prop :=
  t.cfg = s.cfg ∧ t.host = s.host ∧ t.lives = s.lives ∧ t.powerOns = s.powerOns

/-- Nothing of the block changes but its memories, nor what the environment will supply. -/
def OnlyMemory (s t : State) : Prop :=
  t.cfg = s.cfg ∧ t.bus = s.bus ∧ t.disp = s.disp ∧ t.eng = s.eng ∧ t.port = s.port ∧ t.plat = s.plat ∧ t.tr = s.tr
    ∧ t.env = s.env ∧ t.lives = s.lives ∧ t.powerOns = s.powerOns

/-- The operation `i` has been acknowledged; RESULT, LIFE and the read port are as before (R94, R95; op_ack is
shown as a level, log entry 21). -/
def Acked (i : Instr) (s t : State) : Prop :=
  t.port = { s.port with opBusy := false, opWord := encode i, opAck := true }

/-- As `Acked`, with `r` in RESULT (R94). -/
def AckedWith (i : Instr) (r : Byte) (s t : State) : Prop :=
  t.port = { s.port with opBusy := false, opWord := encode i, opAck := true, result := r }

/-- The operation `i` was accepted and has not completed: no acknowledgement, RESULT and LIFE as before (R95, R242). -/
def Pending (i : Instr) (s t : State) : Prop :=
  t.port = { s.port with opBusy := true, opWord := encode i, opAck := false }

/-- After an operation that ends with a byte transfer: DONE = 1, BUSY = 0, SCK at its idle level (R23 to R25). -/
def BusIdle (t : State) : Prop := t.bus.doneFlag = true ∧ t.bus.busyFlag = false ∧ t.bus.sck = t.bus.cpol

/-- The state at a hang (R242): BUSY = 1, DONE = 0. -/
def BusStuck (t : State) : Prop := t.bus.busyFlag = true ∧ t.bus.doneFlag = false

/-- The values R44 gives for the state after a hardware reset. -/
structure AtReset (t : State) : Prop where
  bus    : t.bus.en = false ∧ t.bus.role = false ∧ t.bus.doneFlag = false ∧ t.bus.busyFlag = false
  driver : t.disp.dstate = .uninitialized
  port   : t.port.opBusy = false ∧ t.port.life = .running
  ghosts : t.plat.pinsOk = false ∧ t.plat.pwrSaved = false ∧ t.plat.sleeping = false
  pwm    : ∀ ch, (t.chan ch).pwmEn = false
  trace  : t.tr = []

/-! ### Command bytes (R143, R145, R150) -/

/-- The byte of an operation that is one SENDCMD (R143, R150 to R155). -/
def singleCommand (c : Cfg) : Instr → Option Byte
  | .sendcmd b => some b
  | .invert f => some (if f then c.opcInvert.on else c.opcInvert.off)
  | .fliph f => some (if f then c.opcFlipH.on else c.opcFlipH.off)
  | .flipv f => some (if f then c.opcFlipV.on else c.opcFlipV.off)
  | .allon f => some (if f then c.opcAllOn.on else c.opcAllOn.off)
  | .contrast f => some (if f then c.opcContrast.on else c.opcContrast.off)
  | .cfgbus | .xfer _ | .cmdmode | .datamode | .bootdisp | .shutdown | .paint _ | .rdbtn | .safemode | .cfgpins => none
  | .cfgpwr | .setch _ _ | .relch | .boot | .idle | .mrestart | .getw | .geth => none

/-- The two INVERT bytes are no other command of the reference sink (R72). -/
def InvertBytesOwn (c : Cfg) : Prop :=
  ∀ b ∈ [c.opcInvert.off, c.opcInvert.on], b ∉ [c.opcFlipH.off, c.opcFlipH.on, c.opcFlipV.off, c.opcFlipV.on,
    c.opcAllOn.off, c.opcAllOn.on, c.opcContrast.off, c.opcContrast.on] ++ c.shutdownSeq

/-- DSTATE after an operation that leaves the line in the mode of `d`, from a state with DSTATE `old` (R140). -/
def dstateThen (d old : DState) : DState := if old = .uninitialized ∨ old = .off then old else d

/-- The events of BOOTDISP (R145 to R147): the pulse, the optional clear pass in Data Mode, the table in Command Mode. -/
def bootEvents (c : Cfg) : List Event :=
  [.rst false, .delay .rstLow, .rst true, .delay .rstRecover]
    ++ (if c.ramClearCount = 0 then [] else .dc .data :: transfers .data (List.replicate c.ramClearCount 0x00#8))
    ++ .dc .cmd :: transfers .cmd c.cmdTable ++ [.dc .data]

/-- The display driver after a completed BOOTDISP (R145). -/
def bootedDisplay (c : Cfg) : Display :=
  { dc := .data, drst := true, dstate := .dataMode, ctp := BitVec.ofNat 16 c.cmdTable.length }

/-! ### The byte streams of PAINT (R172, R174, R181) -/

/-- The source bytes in index order (R174). -/
def linearBytes (s : State) : List Byte := (List.range (fbSize s.cfg)).map s.fbRead

/-- One page: the command pair, then its W bytes left to right (R172). -/
def pageEvents (s : State) (p : Nat) : List Event :=
  [.dc .cmd, .bus .cmd (pageSelectByte s.cfg p) 0#8, .bus .cmd s.cfg.columnReset 0#8, .dc .data]
    ++ transfers .data ((List.range s.cfg.width).map fun c => s.fbRead (p * s.cfg.width + c))

/-- The whole paged PAINT (R172). -/
def pagedEvents (s : State) : List Event := (List.range (pageCount s.cfg)).flatMap (pageEvents s)

/-- The output bytes of one source pair: shift step `k` packs the sources shifted right by `k * sh` (R181). -/
def pairBytes (pack : Expander → Byte → Byte → Byte) (nshift sh : Nat) (s : State) (i : Nat) : List Byte :=
  (List.range nshift).map fun k =>
    pack s.cfg.expander (s.fbRead i >>> (k * sh)) (s.fbRead (i + s.cfg.expander.pairOffset) >>> (k * sh))

/-- The output bytes of an expander PAINT, column by column (R181). -/
def expanderBytes (pack : Expander → Byte → Byte → Byte) (nshift sh : Nat) (s : State) : List Byte :=
  (List.range s.cfg.expander.outerCount).flatMap fun x =>
    (List.range s.cfg.expander.innerCount).flatMap fun q => pairBytes pack nshift sh s (pairIndex s.cfg.expander x q)

/-- How many bytes a PAINT transfers (R172, R174, R181 Counts). -/
def paintLength (c : Cfg) : Nat :=
  match c.family with
  | .paged1 => pageCount c * (c.width + 2)
  | .linear1 => fbSize c
  | .exp4 => c.expander.outerCount * c.expander.innerCount * 8
  | .exp2 => c.expander.outerCount * c.expander.innerCount * 4

/-- The events of a whole PAINT, apart from the received bytes. -/
def paintEvents (s : State) : List Event :=
  match s.cfg.family with
  | .paged1 => pagedEvents s
  | .linear1 => transfers s.disp.dc (linearBytes s)
  | .exp4 => transfers s.disp.dc (expanderBytes pack4 8 1 s)
  | .exp2 => transfers s.disp.dc (expanderBytes pack2 4 2 s)

/-- Pixel (x, y) of the framebuffer is on (R62). -/
def State.pixelOn (s : State) (x y : Nat) : Bool := (s.fbRead (pixelIndex s.cfg x y)).getLsbD (pixelBit y)

/-- The build has the default traversal constants of decision D19, with any on-levels (R181 Defaults). -/
def DefaultTraversal (c : Cfg) : Prop :=
  c.expander = { Config.expanderDefaults c.width (pageCount c) with on4 := c.expander.on4, on2 := c.expander.on2 }

/-- The framebuffer after PAINT f: zeroed if f, else as before; no index from FB_SIZE on changes (R185). -/
def FbAfterPaint (f : Bool) (s t : State) : Prop :=
  ∀ a, t.fbRead a = if f && decide (a < fbSize s.cfg) then 0#8 else s.fbRead a

/-! ### The requester's obligations (R280 to R288) -/

/-- The operations that contain a byte transfer (R242). -/
def usesBus : Instr → Bool
  | .xfer _ | .sendcmd _ | .bootdisp | .shutdown | .invert _ | .fliph _ | .flipv _ | .allon _ | .contrast _ => true
  | .paint _ | .boot => true
  | .cfgbus | .cmdmode | .datamode | .rdbtn | .safemode | .cfgpins | .cfgpwr | .setch _ _ | .relch => false
  | .idle | .mrestart | .getw | .geth => false

/-- The operations that may only be requested after CFGPINS (R280). -/
def needsPins : Instr → Bool
  | .cfgbus | .xfer _ | .cmdmode | .datamode | .sendcmd _ | .bootdisp | .shutdown => true
  | .invert _ | .fliph _ | .flipv _ | .allon _ | .contrast _ | .paint _ => true
  | .rdbtn | .safemode | .setch _ _ | .relch => true
  | .cfgpins | .cfgpwr | .boot | .idle | .mrestart | .getw | .geth => false

/-- The display operations that need an initialised driver to have an effect on the picture (R275, R288). -/
def needsDisplay : Instr → Bool
  | .sendcmd _ | .invert _ | .fliph _ | .flipv _ | .allon _ | .contrast _ | .paint _ => true
  | .cfgbus | .xfer _ | .cmdmode | .datamode | .bootdisp | .shutdown | .rdbtn | .safemode | .cfgpins | .cfgpwr => false
  | .setch _ _ | .relch | .boot | .idle | .mrestart | .getw | .geth => false

/-- A request that breaks none of the obligations: pins first (R280), bus before transfers (R281; BOOT configures it
itself), no second CFGPINS (R282), one operation at a time (R283), Data Mode at PAINT (R286), re-initialisation after Off
(R288). -/
structure Orderly (i : Instr) (s : State) : Prop where
  pinsFirst   : needsPins i = true → s.plat.pinsOk = true
  busFirst    : usesBus i = true → i ≠ .boot → s.bus.en = true
  pinsOnce    : i = .cfgpins → s.plat.pinsOk = false
  oneAtATime  : s.port.opBusy = false
  dataMode    : ∀ f, i = .paint f → s.cfg.family ≠ .paged1 → s.disp.dc = .data
  initialised : needsDisplay i = true → s.disp.dstate ≠ .uninitialized ∧ s.disp.dstate ≠ .off

/-! ### The machine's invariant -/

/-- What every step keeps (Certificates/Slice0/Obligations.lean states it). -/
structure Inv (s : State) : Prop where
  /-- FB is canonical and lists only indices below FB_SIZE (R60, R61). -/
  fb         : s.fb.wf = true ∧ s.fb.below (fbSize s.cfg) = true
  /-- MK is canonical and has two bytes (R60, R64). -/
  marker     : s.marker.wf = true ∧ s.marker.below 2 = true
  /-- BUSY = 1 implies DONE = 0 (R24). -/
  flags      : s.bus.busyFlag = true → s.bus.doneFlag = false
  /-- A byte in flight belongs to an operation in progress, and BITCNT counts the bits the sink has of it (R24, R41;
  while PINS_OK = 0 the count is the model's choice, log entry 34). -/
  inFlight   : s.bus.busyFlag = true →
    s.port.opBusy = true ∧ s.bus.bitcnt.toNat < 8 ∧ s.bus.inFlight.length = s.bus.bitcnt.toNat
  /-- An enabled bus is controller and carries the build's configuration: nothing but CFGBUS writes it (R123). -/
  configured : s.bus.en = true → s.bus.role = true ∧ s.bus.cpol = s.cfg.busSetup.cpol ∧ s.bus.cpha = s.cfg.busSetup.cpha
    ∧ s.bus.order = s.cfg.busSetup.order ∧ s.bus.div = s.cfg.busSetup.div
  /-- SCK idles at CPOL (R25). -/
  idleClock  : s.bus.en = true → s.bus.busyFlag = false → s.bus.sck = s.bus.cpol
  /-- OPBUSY = 1 in the terminal states and during IDLE (R28, R97, R266). -/
  occupied   : s.port.life ≠ .running ∨ s.plat.sleeping = true → s.port.opBusy = true
  /-- No acknowledgement stands while an operation is in progress (R95). -/
  ack        : s.port.opBusy = true → s.port.opAck = false
  /-- Waveform output is on only on a capable channel, with a compare value from 1 to 254 (R216, R217). -/
  waveform   : ∀ ch, (s.chan ch).pwmEn = true →
    perChannel s.cfg.pwmCapable ch = true ∧ 1 ≤ (s.chan ch).pwmCmp.toNat ∧ (s.chan ch).pwmCmp.toNat ≤ 254

/-- While DSTATE is CommandMode or DataMode: DSTATE = CommandMode iff DC = CMD (R31). -/
def ModesAgree (s : State) : Prop :=
  (s.disp.dstate = .commandMode → s.disp.dc = .cmd) ∧ (s.disp.dstate = .dataMode → s.disp.dc = .data)

/-- The driver is between two operations of a normal run: DC = DATA and DSTATE = DataMode (R160). -/
def InDataMode (s : State) : Prop := s.disp.dc = .data ∧ s.disp.dstate = .dataMode

end Sys2Proof.Machine
end

