-- ==== Sys2Proof/Certificates/Slice0/Obligations.lean ====
section
/-! DEFINITION. The statements for the provers. Each speaks of every state its hypotheses admit, whichever build it
carries; the words are those of Safety.lean. `exec i s = .next t` with `Acked` in its conclusion says that the operation
completes. -/

open Sys2Proof Sys2Proof.Machine

/-! ### Encoding -/

/-- Decoding the encoding of a well-formed operation gives it back, with every operand (R91 to R93). -/
def Obligations.DecodeEncodeRoundTrip : Prop := ∀ i, WellFormed i = true → decode (encode i) = .ok i

/-- Each request word has one meaning: a decoded word is the encoding of what was decoded (R91 to R93, R96). -/
def Obligations.EncodeDecodeRoundTrip : Prop := ∀ w i, decode w = .ok i → encode i = w ∧ WellFormed i = true

/-- The words of spec/95_test_vectors.md 2.1 decode as that table says; the names of the reasons to reject are the model's (log
entry 13). -/
def Obligations.SampleWordsDecode : Prop :=
  decode 0x01000000#32 = .ok .cfgbus ∧ decode 0x02A50000#32 = .ok (.xfer 0xA5#8) ∧ decode 0x02000000#32 = .ok (.xfer 0#8)
    ∧ decode 0x10000000#32 = .ok .cmdmode ∧ decode 0x12AF0000#32 = .ok (.sendcmd 0xAF#8)
    ∧ decode 0x16010000#32 = .ok (.invert true) ∧ decode 0x20010000#32 = .ok (.paint true)
    ∧ decode 0x30000000#32 = .ok .rdbtn ∧ decode 0x42016400#32 = .ok (.setch 1#2 100#8) ∧ decode 0x54000000#32 = .ok .geth
    ∧ decode 0x02A50100#32 = .error .operandBits ∧ decode 0x15000000#32 = .error .unassignedOp
    ∧ decode 0x20000001#32 = .error .operandBits ∧ decode 0x42030000#32 = .error .reservedChannel
    ∧ decode 0x42040000#32 = .error .operandBits

/-- A request word that no row of R92 with its fields' values gives is reserved, and the step refuses it (R96). -/
def Obligations.ReservedWordRefused : Prop :=
  ∀ (s : State) (w : Word) (rest : List HostAct), legal s.cfg = true → s.port.life ≠ .resetPending →
    s.port.opBusy = false → s.host = .request w :: rest → (∀ i, WellFormed i = true → encode i ≠ w) →
    ∃ why, step s = .refused (.reservedRequest why)

/-! ### The step -/

/-- A step runs the decoded request: exec of it at the state in which the request has been taken from the port (R95). -/
def Obligations.StepRunsDecodedRequest : Prop :=
  ∀ (s : State) (w : Word) (i : Instr) (rest : List HostAct), legal s.cfg = true → s.port.life ≠ .resetPending →
    s.port.opBusy = false → s.host = .request w :: rest → decode w = .ok i →
    step s = exec i { s with host := rest }

/-- While OPBUSY = 1 and no reset comes, nothing happens but register reads: a request or a write waits (R95, R97, R283).
That it waits by the step answering the same state is the model's form (log entries 7 and 23). -/
def Obligations.BusyBlockWaits : Prop :=
  ∀ s : State, legal s.cfg = true → s.port.opBusy = true → s.port.life ≠ .resetPending →
    (∀ idx rest, s.host ≠ .readReg idx :: rest) → (∀ rest, s.host ≠ .powerOn :: rest ∧ s.host ≠ .externalReset :: rest) → step s = .next s

/-- A reset from outside overrides everything: whatever is in progress, a hang, a sleep, the safe-mode halt, the step is the
reset of R270. MK is kept but for a power-on, which leaves every byte of it unlisted; FB is left unlisted.
That a reset is an action of the outside's list and that unlisted bytes are free is the model's form (log entries 11, 28). -/
def Obligations.ResetOverrides : Prop :=
  ∀ (s : State) (rest : List HostAct), legal s.cfg = true → s.port.life ≠ .resetPending →
    (s.host = .powerOn :: rest →
      ∃ t, step s = .next t ∧ AtReset t ∧ t.cfg = s.cfg ∧ t.host = rest ∧ t.fb = [] ∧ t.marker = [])
    ∧ (s.host = .externalReset :: rest →
      ∃ t, step s = .next t ∧ AtReset t ∧ t.cfg = s.cfg ∧ t.host = rest ∧ t.fb = [] ∧ ∀ a, t.mkRead a = s.mkRead a)

/-- After MRESTART nothing comes between EvWdReset and the reset: the next step is the watchdog's reset, with MK kept
(R228 (b), (d), R246); that it is a step of its own is the model's form (log entry 10). -/
def Obligations.WatchdogResetAtOnce : Prop :=
  ∀ s : State, legal s.cfg = true → s.port.life = .resetPending →
    ∃ t, step s = .next t ∧ AtReset t ∧ t.cfg = s.cfg ∧ t.host = s.host ∧ t.fb = [] ∧ ∀ a, t.mkRead a = s.mkRead a

/-- A build that violates a constraint is refused, each constraint of R6 that a build can break (R6, R182; for the divisor R21
and log entry 14): the geometry, the toggle bytes, the shutdown sequence, the command table, PAGE_SELECT, the buttons, the
divisor, the on-levels, and in the expander families the coverage. -/
def Obligations.IllegalBuildRefused : Prop :=
  ∀ s : State,
    (s.cfg.width < 1 ∨ 255 < s.cfg.width ∨ s.cfg.height < 8 ∨ 248 < s.cfg.height ∨ s.cfg.height % 8 ≠ 0
      ∨ (∃ p ∈ [s.cfg.opcInvert, s.cfg.opcFlipH, s.cfg.opcFlipV, s.cfg.opcAllOn, s.cfg.opcContrast], p.off = p.on)
      ∨ s.cfg.shutdownSeq.length < 2 ∨ 65535 < s.cfg.cmdTable.length
      ∨ s.cfg.pageSelect.length ≠ s.cfg.height / 8 ∨ ¬ s.cfg.pageSelect.Nodup
      ∨ s.cfg.btnBit.length < 1 ∨ 8 < s.cfg.btnBit.length ∨ (∃ k ∈ s.cfg.btnBit, 8 ≤ k) ∨ ¬ s.cfg.btnBit.Nodup
      ∨ s.cfg.btnBit.length ≤ s.cfg.btnUp
      ∨ s.cfg.busSetup.div.toNat < 2 ∨ s.cfg.expander.on4 = 0#4 ∨ s.cfg.expander.on2 = 0#2
      ∨ ((s.cfg.family = .exp4 ∨ s.cfg.family = .exp2) ∧ ¬ (traversal s.cfg.expander).Perm (List.range (fbSize s.cfg)))) →
    step s = .refused .illegalConfig

/-- A register read changes no state of the block. While OPBUSY = 0, and at any time for REG[5], it answers the register;
index 7 does not exist (R40).
That the byte stays on the port is the model's form, that index 7 faults its choice (log entries 12, 20). -/
def Obligations.RegisterReadHasNoSideEffect : Prop :=
  ∀ (s : State) (idx : BitVec 3) (rest : List HostAct), legal s.cfg = true → s.port.life ≠ .resetPending →
    s.host = .readReg idx :: rest →
    (idx = 7#3 → step s = .fault .noSuchRegister)
      ∧ (idx ≠ 7#3 → ∃ t v, step s = .next t ∧ t.port = { s.port with regData := v }
          ∧ (s.port.opBusy = false ∨ idx = 5#3 → s.reg idx = some v)
          ∧ t.bus = s.bus ∧ t.disp = s.disp ∧ t.eng = s.eng ∧ t.plat = s.plat ∧ t.tr = s.tr ∧ SameMemory s t
          ∧ t.cfg = s.cfg ∧ t.host = rest ∧ t.lives = s.lives ∧ t.powerOns = s.powerOns)

/-- The layout of the register map, bit by bit (R40). -/
def Obligations.RegisterMapLayout : Prop :=
  ∀ s : State, ∃ r0 r2 r4 r5 : Byte,
    s.reg 0#3 = some r0 ∧ s.reg 1#3 = some s.bus.div ∧ s.reg 2#3 = some r2 ∧ s.reg 3#3 = some s.bus.sdr
      ∧ s.reg 4#3 = some r4 ∧ s.reg 5#3 = some r5 ∧ s.reg 6#3 = some s.port.result ∧ s.reg 7#3 = none
      ∧ (r0.getLsbD 7 = s.bus.en ∧ r0.getLsbD 6 = s.bus.role ∧ r0.getLsbD 5 = s.bus.order ∧ r0.getLsbD 4 = s.bus.cpol
          ∧ r0.getLsbD 3 = s.bus.cpha ∧ r0.getLsbD 2 = false ∧ r0.getLsbD 1 = false ∧ r0.getLsbD 0 = false)
      ∧ (r2.getLsbD 7 = s.bus.doneFlag ∧ r2.getLsbD 6 = s.bus.busyFlag ∧ ∀ k < 6, r2.getLsbD k = false)
      ∧ (r4.getLsbD 0 = (s.disp.dc == .data) ∧ r4.getLsbD 1 = s.disp.drst
          ∧ r4.getLsbD 2 = (s.disp.dstate == .commandMode || s.disp.dstate == .off)
          ∧ r4.getLsbD 3 = (s.disp.dstate == .dataMode || s.disp.dstate == .off) ∧ ∀ k, 4 ≤ k → r4.getLsbD k = false)
      ∧ (r5.getLsbD 7 = s.port.opBusy ∧ r5.getLsbD 0 = (s.port.life == .safeHalt)
          ∧ r5.getLsbD 1 = (s.port.life == .resetPending) ∧ ∀ k, 2 ≤ k → k < 7 → r5.getLsbD k = false)

/-- Between operations the graphics layer writes one framebuffer byte and the bootloader one marker byte, and nothing else
changes; an index that does not exist faults, which is the model's choice (log entry 12). -/
def Obligations.OutsideWritesOneByte : Prop :=
  ∀ (s : State) (a : Nat) (v : Byte) (rest : List HostAct), legal s.cfg = true → s.port.life ≠ .resetPending →
    s.port.opBusy = false →
    (s.host = .fbWrite a v :: rest →
      (a < fbSize s.cfg → ∃ t, step s = .next t ∧ (∀ b, t.fbRead b = if b = a then v else s.fbRead b)
          ∧ (∀ b, t.mkRead b = s.mkRead b) ∧ t.host = rest ∧ OnlyMemory s t)
      ∧ (¬ a < fbSize s.cfg → step s = .fault (.noSuchFbIndex a)))
    ∧ (s.host = .markerWrite a v :: rest →
      (a < 2 → ∃ t, step s = .next t ∧ (∀ b, t.mkRead b = if b = a then v else s.mkRead b)
          ∧ (∀ b, t.fbRead b = s.fbRead b) ∧ t.host = rest ∧ OnlyMemory s t)
      ∧ (¬ a < 2 → step s = .fault (.noSuchMarkerIndex a)))

/-! ### The Bus Driver -/

/-- CFGBUS programs the build's configuration and enables the bus; SDR, DONE, BUSY, RESULT and TR are not changed (R122). -/
def Obligations.CfgbusCompletes : Prop :=
  ∀ s : State, ∃ t, exec .cfgbus s = .next t ∧ Acked .cfgbus s t
    ∧ t.bus.en = true ∧ t.bus.role = true ∧ t.bus.cpol = s.cfg.busSetup.cpol ∧ t.bus.cpha = s.cfg.busSetup.cpha
    ∧ t.bus.order = s.cfg.busSetup.order ∧ t.bus.div = s.cfg.busSetup.div ∧ t.bus.sck = s.cfg.busSetup.cpol
    ∧ t.bus.sdr = s.bus.sdr ∧ t.bus.doneFlag = s.bus.doneFlag ∧ t.bus.busyFlag = s.bus.busyFlag
    ∧ t.bus.bitcnt = s.bus.bitcnt ∧ t.bus.mosi = s.bus.mosi ∧ t.bus.inFlight = s.bus.inFlight
    ∧ t.disp = s.disp ∧ t.eng = s.eng ∧ t.plat = s.plat ∧ t.tr = s.tr ∧ t.env = s.env ∧ SameMemory s t ∧ SameSystem s t

/-- A second CFGBUS leaves the state exactly as the first did (R122 (a)). -/
def Obligations.CfgbusIdempotent : Prop := ∀ s t : State, exec .cfgbus s = .next t → exec .cfgbus t = .next t

/-- XFER with an enabled bus and a shifter that lasts: eight bits reach the sink, those of the byte in the order of ORDER once the
pins are configured (before that what the sink receives is unspecified, R280 (a), and that it is eight bits is the model's choice, log entry 34); the
eight samples of MISO make the received byte, which is in SDR and RESULT; DONE = 1, BUSY = 0 (R100, R124, R125). -/
def Obligations.XferCompletes : Prop :=
  ∀ (b : Byte) (s : State), BusReady s 1 → ∃ t, exec (.xfer b) s = .next t ∧ AckedWith (.xfer b) t.bus.sdr s t
    ∧ (∀ k < 8, t.bus.sdr.getLsbD (framePos s.bus.order k) = s.misoAt k)
    ∧ t.bus.inFlight.length = 8
    ∧ (s.plat.pinsOk = true → t.bus.inFlight = (List.range 8).map (fun k => b.getLsbD (framePos s.bus.order k)))
    ∧ t.tr = s.tr ++ [.bus s.disp.dc b t.bus.sdr] ∧ BusIdle t ∧ t.bus.bitcnt = 8#4
    ∧ SameBusSetup s t ∧ t.disp = s.disp ∧ t.eng = s.eng ∧ t.plat = s.plat ∧ SameMemory s t ∧ SameSystem s t

/-- XFER hangs when the bus is not enabled, whatever the shifter would do (R127), and when the shifter stops before the
eighth bit (R126): OPBUSY = 1, BUSY = 1, DONE = 0, no EvBus (R242). That a hang is a
next state, and the shifter's life a budget, is the model's form (log entries 6, 7). -/
def Obligations.XferHangs : Prop :=
  ∀ (b : Byte) (s : State), ¬ BusReady s 1 → ∃ t, exec (.xfer b) s = .next t ∧ Pending (.xfer b) s t ∧ BusStuck t
    ∧ t.tr = s.tr ∧ (s.bus.en = false → t.bus.sdr = b ∧ t.bus.bitcnt = 0#4)
    ∧ (∀ m, s.bus.en = true → s.bus.role = true → s.env.shifterLeft = some m → t.bus.bitcnt = BitVec.ofNat 4 m)
    ∧ SameBusSetup s t ∧ t.disp = s.disp ∧ t.eng = s.eng ∧ t.plat = s.plat ∧ SameMemory s t ∧ SameSystem s t

/-! ### The Display Controller Driver -/

/-- CMDMODE and DATAMODE drive the DC line and move DSTATE only between CommandMode and DataMode; no bus activity (R140 to
R142). The level of a configured DC line is DC_CMD_LEVEL for CMD and the other for DATA (R29, R36). -/
def Obligations.ModeTogglesComplete : Prop :=
  ∀ s : State,
    (∃ t, exec .cmdmode s = .next t ∧ Acked .cmdmode s t
      ∧ t.disp = { s.disp with dc := .cmd, dstate := dstateThen .commandMode s.disp.dstate } ∧ t.tr = s.tr ++ [.dc .cmd]
      ∧ (s.plat.pinsOk = true → t.lineLevel .dc = s.cfg.dcCmdLevel)
      ∧ t.bus = s.bus ∧ t.eng = s.eng ∧ t.plat = s.plat ∧ t.env = s.env ∧ SameMemory s t ∧ SameSystem s t)
    ∧ ∃ t, exec .datamode s = .next t ∧ Acked .datamode s t
      ∧ t.disp = { s.disp with dc := .data, dstate := dstateThen .dataMode s.disp.dstate } ∧ t.tr = s.tr ++ [.dc .data]
      ∧ (s.plat.pinsOk = true → t.lineLevel .dc = !s.cfg.dcCmdLevel)
      ∧ t.bus = s.bus ∧ t.eng = s.eng ∧ t.plat = s.plat ∧ t.env = s.env ∧ SameMemory s t ∧ SameSystem s t

/-- SENDCMD, INVERT, FLIPH, FLIPV, ALLON and CONTRAST: Command Mode, one byte, Data Mode; RESULT is not written
(R140, R143, R150 to R155). -/
def Obligations.SingleCommandCompletes : Prop :=
  ∀ (i : Instr) (c : Byte) (s : State), singleCommand s.cfg i = some c → BusReady s 1 →
    ∃ t, exec i s = .next t ∧ Acked i s t ∧ Emits s t [.dc .cmd, .bus .cmd c 0#8, .dc .data]
      ∧ t.disp = { s.disp with dc := .data, dstate := dstateThen .dataMode s.disp.dstate }
      ∧ BusIdle t ∧ SameBusSetup s t ∧ t.eng = s.eng ∧ t.plat = s.plat ∧ SameMemory s t ∧ SameSystem s t

/-- If the byte of such an operation hangs, DC is left at CMD and EvDc(CMD) is all that is seen (R143 Exceptions, R242). -/
def Obligations.SingleCommandHangs : Prop :=
  ∀ (i : Instr) (c : Byte) (s : State), singleCommand s.cfg i = some c → ¬ BusReady s 1 →
    ∃ t, exec i s = .next t ∧ Pending i s t ∧ BusStuck t ∧ t.tr = s.tr ++ [.dc .cmd]
      ∧ t.disp = { s.disp with dc := .cmd, dstate := dstateThen .commandMode s.disp.dstate }
      ∧ SameBusSetup s t ∧ t.eng = s.eng ∧ t.plat = s.plat ∧ SameMemory s t ∧ SameSystem s t

/-- BOOTDISP: the reset pulse, the optional clear pass, the whole command table in Command Mode, in order and once, Data Mode
at the end (R145, R146, R147). -/
def Obligations.BootdispCompletes : Prop :=
  ∀ s : State, s.cfg.ramClearCount + s.cfg.cmdTable.length = 0 ∨ BusReady s (s.cfg.ramClearCount + s.cfg.cmdTable.length) →
    ∃ t, exec .bootdisp s = .next t ∧ Acked .bootdisp s t ∧ Emits s t (bootEvents s.cfg) ∧ t.disp = bootedDisplay s.cfg
      ∧ SameBusSetup s t ∧ t.eng = s.eng ∧ t.plat = s.plat ∧ SameMemory s t ∧ SameSystem s t

/-- BOOTDISP before CFGBUS, with a byte to send: the whole reset pulse happens and, with a clear pass, EvDc(DATA), without one
EvDc(CMD) and the entry into CommandMode; then the first transfer hangs (R281, R127, R145, R146). That the hang is a next state
is the model's form (log entry 7). -/
def Obligations.BootdispBeforeCfgbusHangs : Prop :=
  ∀ s : State, s.bus.en = false → 0 < s.cfg.ramClearCount + s.cfg.cmdTable.length →
    ∃ t, exec .bootdisp s = .next t ∧ Pending .bootdisp s t ∧ BusStuck t
      ∧ t.tr = s.tr ++ [.rst false, .delay .rstLow, .rst true, .delay .rstRecover,
          .dc (if s.cfg.ramClearCount = 0 then .cmd else .data)]
      ∧ (s.cfg.ramClearCount = 0 → t.disp = { dc := .cmd, drst := true, dstate := .commandMode, ctp := 0#16 })
      ∧ (s.cfg.ramClearCount ≠ 0 → t.disp = { s.disp with dc := .data, drst := true })
      ∧ SameBusSetup s t ∧ t.eng = s.eng ∧ t.plat = s.plat ∧ SameMemory s t ∧ SameSystem s t

/-- SHUTDOWN: the whole sequence in Command Mode, the settle delay, reset asserted and left asserted, DSTATE = Off, DC left at
CMD, the bus configuration kept (R148). -/
def Obligations.ShutdownCompletes : Prop :=
  ∀ s : State, legal s.cfg = true → BusReady s s.cfg.shutdownSeq.length →
    ∃ t, exec .shutdown s = .next t ∧ Acked .shutdown s t
      ∧ Emits s t (.dc .cmd :: transfers .cmd s.cfg.shutdownSeq ++ [.delay .offSettle, .rst false])
      ∧ t.disp = { s.disp with dc := .cmd, drst := false, dstate := .off }
      ∧ BusIdle t ∧ SameBusSetup s t ∧ t.eng = s.eng ∧ t.plat = s.plat ∧ SameMemory s t ∧ SameSystem s t

/-- Data Mode between operations: BOOTDISP and BOOT end in it, and every operation but CMDMODE, SHUTDOWN, CFGPINS and MRESTART
that completes keeps it (R160, R282). -/
def Obligations.DataModeBetweenOperations : Prop :=
  ∀ (i : Instr) (s t : State), exec i s = .next t → t.port.opBusy = false →
    (i = .bootdisp ∨ i = .boot → InDataMode t)
      ∧ (InDataMode s → i ≠ .cmdmode → i ≠ .shutdown → i ≠ .cfgpins → i ≠ .mrestart → InDataMode t)

/-- While DSTATE is CommandMode or DataMode it agrees with the DC line: every operation that completes keeps this, but for a
CFGPINS, which drives DC to a level the spec does not know (R31, R282). -/
def Obligations.DriverStateAgreesWithLine : Prop :=
  ∀ (i : Instr) (s t : State), i ≠ .cfgpins → ModesAgree s → exec i s = .next t → t.port.opBusy = false → ModesAgree t

/-- INVERT 1 then INVERT 0 leaves what INVERT 0 alone leaves, but for the byte last received and the trace. On the sink side
(R72), where something may be said of the picture (`sinkShows`: log entry 19, R161, R280): the sink is not inverted after
either; and when the two INVERT bytes are no other command of the sink, the rendered picture is the same after either, and, from
a sink that is not inverted, the same as before (R156). The picture is the model's reading of R72 (log entry 30). -/
def Obligations.InvertRoundTrip : Prop :=
  ∀ s t u v : State, exec (.invert true) s = .next t → t.port.opBusy = false → exec (.invert false) t = .next u →
    u.port.opBusy = false → exec (.invert false) s = .next v → v.port.opBusy = false →
    u.port = v.port ∧ u.disp = v.disp ∧ u.eng = v.eng ∧ u.plat = v.plat ∧ SameBusSetup v u ∧ SameMemory v u
      ∧ (s.sinkShows = true → u.sink.inv = false ∧ v.sink.inv = false
        ∧ (InvertBytesOwn s.cfg → (∀ x y, u.picture x y = v.picture x y)
          ∧ (s.sink.inv = false → ∀ x y, u.picture x y = s.picture x y)))

/-! ### The Framebuffer Transfer Engine -/

/-- LINEAR1: exactly the FB_SIZE source bytes in index order, in whatever mode DC is, no command byte, DC untouched; with
clearAfter the buffer ends all zero, without it unchanged (R174, R185). -/
def Obligations.PaintLinearCompletes : Prop :=
  ∀ (f : Bool) (s : State), legal s.cfg = true → s.cfg.family = .linear1 → BusReady s (paintLength s.cfg) →
    ∃ t, exec (.paint f) s = .next t ∧ Acked (.paint f) s t ∧ Emits s t (transfers s.disp.dc (linearBytes s))
      ∧ FbAfterPaint f s t ∧ (∀ a, t.mkRead a = s.mkRead a) ∧ t.disp = s.disp ∧ BusIdle t ∧ SameBusSetup s t
      ∧ t.plat = s.plat ∧ SameSystem s t

/-- PAGED1: for each page the command pair in Command Mode, then its W bytes in Data Mode; ends in Data Mode (R172, R185). -/
def Obligations.PaintPagedCompletes : Prop :=
  ∀ (f : Bool) (s : State), legal s.cfg = true → s.cfg.family = .paged1 → BusReady s (paintLength s.cfg) →
    ∃ t, exec (.paint f) s = .next t ∧ Acked (.paint f) s t ∧ Emits s t (pagedEvents s)
      ∧ FbAfterPaint f s t ∧ (∀ a, t.mkRead a = s.mkRead a)
      ∧ t.disp = { s.disp with dc := .data, dstate := dstateThen .dataMode s.disp.dstate }
      ∧ BusIdle t ∧ SameBusSetup s t ∧ t.plat = s.plat ∧ SameSystem s t

/-- EXP4, for any traversal constants that satisfy R182: eight output bytes per source pair (R181, R106, R185). -/
def Obligations.PaintExp4Completes : Prop :=
  ∀ (f : Bool) (s : State), legal s.cfg = true → s.cfg.family = .exp4 → BusReady s (paintLength s.cfg) →
    ∃ t, exec (.paint f) s = .next t ∧ Acked (.paint f) s t ∧ Emits s t (transfers s.disp.dc (expanderBytes pack4 8 1 s))
      ∧ FbAfterPaint f s t ∧ (∀ a, t.mkRead a = s.mkRead a) ∧ t.disp = s.disp ∧ BusIdle t ∧ SameBusSetup s t
      ∧ t.plat = s.plat ∧ SameSystem s t

/-- EXP2, for any traversal constants that satisfy R182: four output bytes per source pair (R181, R107, R185). -/
def Obligations.PaintExp2Completes : Prop :=
  ∀ (f : Bool) (s : State), legal s.cfg = true → s.cfg.family = .exp2 → BusReady s (paintLength s.cfg) →
    ∃ t, exec (.paint f) s = .next t ∧ Acked (.paint f) s t ∧ Emits s t (transfers s.disp.dc (expanderBytes pack2 4 2 s))
      ∧ FbAfterPaint f s t ∧ (∀ a, t.mkRead a = s.mkRead a) ∧ t.disp = s.disp ∧ BusIdle t ∧ SameBusSetup s t
      ∧ t.plat = s.plat ∧ SameSystem s t

/-- A PAINT that hangs: what it has sent is a beginning of the whole PAINT, and a byte of FB is as before or, with clearAfter,
zeroed (R170 Exceptions, R242, R247). -/
def Obligations.PaintHangsPartWay : Prop :=
  ∀ (f : Bool) (s : State), legal s.cfg = true → ¬ BusReady s (paintLength s.cfg) →
    ∃ t l, exec (.paint f) s = .next t ∧ Pending (.paint f) s t ∧ BusStuck t ∧ Emits s t l ∧ l <+: paintEvents s
      ∧ (∀ a, t.fbRead a = s.fbRead a ∨ (f = true ∧ a < fbSize s.cfg ∧ t.fbRead a = 0#8))
      ∧ (∀ a, t.mkRead a = s.mkRead a) ∧ SameBusSetup s t ∧ t.plat = s.plat ∧ SameSystem s t

/-- EXP4 with the default constants: output byte (x*(P/2) + q)*8 + k carries pixel (x, 16q + k) in its low nibble and pixel
(x, 16q + 8 + k) in its high nibble (R183). -/
def Obligations.Exp4PixelMapping : Prop :=
  ∀ (s : State) (x q k : Nat), DefaultTraversal s.cfg → pageCount s.cfg % 2 = 0 → x < s.cfg.width →
    q < pageCount s.cfg / 2 → k < 8 →
    ∃ out, (expanderBytes pack4 8 1 s)[(x * (pageCount s.cfg / 2) + q) * 8 + k]? = some out
      ∧ out.extractLsb' 0 4 = (if s.pixelOn x (16 * q + k) then s.cfg.expander.on4 else 0#4)
      ∧ out.extractLsb' 4 4 = (if s.pixelOn x (16 * q + 8 + k) then s.cfg.expander.on4 else 0#4)

/-- EXP2 with the default constants: output byte (x*(P/2) + q)*4 + k carries four pixels, two bits each (R184). -/
def Obligations.Exp2PixelMapping : Prop :=
  ∀ (s : State) (x q k : Nat), DefaultTraversal s.cfg → pageCount s.cfg % 2 = 0 → x < s.cfg.width →
    q < pageCount s.cfg / 2 → k < 4 →
    ∃ out, (expanderBytes pack2 4 2 s)[(x * (pageCount s.cfg / 2) + q) * 4 + k]? = some out
      ∧ out.extractLsb' 0 2 = (if s.pixelOn x (16 * q + 2 * k) then s.cfg.expander.on2 else 0#2)
      ∧ out.extractLsb' 2 2 = (if s.pixelOn x (16 * q + 2 * k + 1) then s.cfg.expander.on2 else 0#2)
      ∧ out.extractLsb' 4 2 = (if s.pixelOn x (16 * q + 8 + 2 * k) then s.cfg.expander.on2 else 0#2)
      ∧ out.extractLsb' 6 2 = (if s.pixelOn x (16 * q + 8 + 2 * k + 1) then s.cfg.expander.on2 else 0#2)

/-- Each index 0 .. FB_SIZE-1 is visited exactly once: by the pages and columns of the paged variant in every legal build, and
by the traversal of an expander build (R182, R185). -/
def Obligations.EachIndexVisitedOnce : Prop :=
  ∀ c : Cfg, legal c = true →
    (List.range (pageCount c)).flatMap (fun p => (List.range c.width).map fun k => p * c.width + k) = List.range (fbSize c)
      ∧ (c.family = .exp4 ∨ c.family = .exp2 → (traversal c.expander).Perm (List.range (fbSize c)))

/-- With an all-zero framebuffer every data byte of a PAINT is 0x00, in every family, and no byte is nonzero but those of the
paged command pairs (R187). -/
def Obligations.ZeroFramebufferPaintsZero : Prop :=
  ∀ (f : Bool) (s : State), legal s.cfg = true → (∀ a < fbSize s.cfg, s.fbRead a = 0#8) →
    ∃ t ev, exec (.paint f) s = .next t ∧ t.tr = s.tr ++ ev ∧ (∀ tx rx, Event.bus .data tx rx ∈ ev → tx = 0#8)
      ∧ ∀ m tx rx, Event.bus m tx rx ∈ ev → tx ≠ 0#8 →
        s.cfg.family = .paged1 ∧ m = .cmd ∧ (tx ∈ s.cfg.pageSelect ∨ tx = s.cfg.columnReset)

/-- Under the reference sink a completed LINEAR1 PAINT that starts with the pointer at its origin shows the framebuffer, and
the pointer is at its origin again (R74, R175, R287). Only where something may be said of the sink (R161, R280); when it is known
is the model's choice (log entry 19). -/
def Obligations.SinkShowsLinearPaint : Prop :=
  ∀ (f : Bool) (s : State), legal s.cfg = true → s.cfg.family = .linear1 → BusReady s (paintLength s.cfg) →
    s.disp.dc = .data → s.sinkShows = true → s.sink.ptr = 0 →
    ∃ t, exec (.paint f) s = .next t ∧ t.port.opBusy = false ∧ t.sink.ptr = 0
      ∧ ∀ x y, x < s.cfg.width → y < s.cfg.height → t.sinkPixel x y = s.pixelOn x y

/-- Under the reference sink a completed PAGED1 PAINT shows the framebuffer, when the column command is not also a page
command (R73, R173; R161, R280; log entry 19). -/
def Obligations.SinkShowsPagedPaint : Prop :=
  ∀ (f : Bool) (s : State), legal s.cfg = true → s.cfg.family = .paged1 → BusReady s (paintLength s.cfg) →
    s.cfg.columnReset ∉ s.cfg.pageSelect → s.sinkShows = true →
    ∃ t, exec (.paint f) s = .next t ∧ t.port.opBusy = false
      ∧ ∀ x y, x < s.cfg.width → y < s.cfg.height → t.sinkPixel x y = s.pixelOn x y

/-- Under the reference sink a completed EXP4 or EXP2 PAINT that starts with the pointer at its origin shows the framebuffer, for
any traversal constants that satisfy R182, and the pointer is at its origin again (R75, R181, R287; R161, R280; log entries 19
and 31). -/
def Obligations.SinkShowsExpanderPaint : Prop :=
  ∀ (f : Bool) (s : State), legal s.cfg = true → (s.cfg.family = .exp4 ∨ s.cfg.family = .exp2) →
    BusReady s (paintLength s.cfg) → s.disp.dc = .data → s.sinkShows = true → s.sink.ptr = 0 →
    ∃ t, exec (.paint f) s = .next t ∧ t.port.opBusy = false ∧ t.sink.ptr = 0
      ∧ ∀ x y, x < s.cfg.width → y < s.cfg.height → t.sinkPixel x y = s.pixelOn x y

/-! ### The Input Sampler -/

/-- RDBTN: one sample; bit BTN_BIT(b) of RESULT is 1 iff line b is low, bits no button maps to are 0; nothing else is written
but the trace and the inputs used up (R108, R200). -/
def Obligations.RdbtnCompletes : Prop :=
  ∀ s : State, legal s.cfg = true → ∃ t m, exec .rdbtn s = .next t ∧ AckedWith .rdbtn m s t
    ∧ (∀ b k, s.cfg.btnBit[b]? = some k → m.getLsbD k = !s.buttonsNow.getLsbD b)
    ∧ (∀ k, k ∉ s.cfg.btnBit → m.getLsbD k = false)
    ∧ t.tr = s.tr ++ [.btn s.buttonsNow]
    ∧ t.bus = s.bus ∧ t.disp = s.disp ∧ t.eng = s.eng ∧ t.plat = s.plat ∧ SameMemory s t ∧ SameSystem s t

/-- RDBTN is a function of the sample and the build alone: no state field is read (R201). -/
def Obligations.RdbtnPure : Prop :=
  ∀ s s' t t' : State, s.cfg = s'.cfg → s.buttonsNow = s'.buttonsNow → exec .rdbtn s = .next t → exec .rdbtn s' = .next t' →
    t.port.result = t'.port.result

/-- SAFEMODE with the up button released: it completes and the trace is all that changes (R202 (b)). -/
def Obligations.SafemodeReleasedCompletes : Prop :=
  ∀ s : State, s.buttonsNow.getLsbD s.cfg.btnUp = true → ∃ t, exec .safemode s = .next t ∧ Acked .safemode s t
    ∧ t.tr = s.tr ++ [.btn s.buttonsNow]
    ∧ t.bus = s.bus ∧ t.disp = s.disp ∧ t.eng = s.eng ∧ t.plat = s.plat ∧ SameMemory s t ∧ SameSystem s t

/-- SAFEMODE with the up button pressed: the indicator driven to its lit level, an RGB channel's or the further line's, then
LIFE = SafeHalt with OPBUSY = 1 and no acknowledgement; nothing else changes (R202, R245). The level is claimed once the pins are
configured (R280 (c)). That op_ack is a level, and the further line with its polarity, are the model's form (log entries 18,
21). -/
def Obligations.SafemodePressedHalts : Prop :=
  ∀ s : State, s.buttonsNow.getLsbD s.cfg.btnUp = false → ∃ t lit, exec .safemode s = .next t
    ∧ t.port = { s.port with opBusy := true, opWord := encode .safemode, opAck := false, life := .safeHalt }
    ∧ t.tr = s.tr ++ [.btn s.buttonsNow, .led s.cfg.safeIndicator lit]
    ∧ (s.plat.pinsOk = true → lit = indicatorLit s.cfg s.cfg.safeIndicator)
    ∧ (∀ ch, t.chan ch = if s.cfg.safeIndicator = .rgb ch then { s.chan ch with line := lit } else s.chan ch)
    ∧ t.plat.auxLine = (if s.cfg.safeIndicator = .aux then lit else s.plat.auxLine)
    ∧ t.plat.pinsOk = s.plat.pinsOk ∧ t.plat.pwrSaved = s.plat.pwrSaved ∧ t.plat.sleeping = s.plat.sleeping
    ∧ t.bus = s.bus ∧ t.disp = s.disp ∧ t.eng = s.eng ∧ SameMemory s t ∧ SameSystem s t

/-! ### The platform -/

/-- CFGPINS: PINS_OK = 1 and EvPins; the levels it drives are free and no value of them is stated; the registers of the bus,
DSTATE, CTP, PWM_EN and PWM_CMP, RESULT, the memories are not changed (R210; which lines are free: log entry 16). -/
def Obligations.CfgpinsCompletes : Prop :=
  ∀ s : State, ∃ t, exec .cfgpins s = .next t ∧ Acked .cfgpins s t ∧ t.plat.pinsOk = true ∧ t.tr = s.tr ++ [.pins]
    ∧ t.bus = { s.bus with sck := t.bus.sck, mosi := t.bus.mosi }
    ∧ t.disp = { s.disp with dc := t.disp.dc, drst := t.disp.drst }
    ∧ (∀ ch, t.chan ch = { s.chan ch with line := (t.chan ch).line })
    ∧ t.plat.pwrSaved = s.plat.pwrSaved ∧ t.plat.sleeping = s.plat.sleeping
    ∧ t.eng = s.eng ∧ SameMemory s t ∧ SameSystem s t

/-- CFGPWR: PWR_SAVED = 1 and EvPower, nothing else (R212). -/
def Obligations.CfgpwrCompletes : Prop :=
  ∀ s : State, ∃ t, exec .cfgpwr s = .next t ∧ Acked .cfgpwr s t ∧ t.plat = { s.plat with pwrSaved := true }
    ∧ t.tr = s.tr ++ [.power] ∧ t.bus = s.bus ∧ t.disp = s.disp ∧ t.eng = s.eng ∧ t.env = s.env ∧ SameMemory s t
    ∧ SameSystem s t

/-- SETCH on the channel its operand names: the three branches of a capable channel and the binary-only one; no other channel
and nothing outside the channel changes (R214 to R217). A level, in LEDLINE, on the pin and in the event, is claimed once the pins
are configured (R280 (c)); the pin shows it while no waveform drives it (R216). -/
def Obligations.SetchCompletes : Prop :=
  ∀ (ch : BitVec 2) (c : Channel) (v : Byte) (s : State), channelOfBits ch = some c →
    ∃ t l, exec (.setch ch v) s = .next t ∧ Acked (.setch ch v) s t
      ∧ (perChannel s.cfg.pwmCapable c = true → v = 0#8 ∨ v = 255#8 →
          (s.plat.pinsOk = true → l = (if v = 0#8 then perChannel s.cfg.inverted c else !perChannel s.cfg.inverted c)
            ∧ t.lineLevel (.led (.rgb c)) = l)
          ∧ t.chan c = { s.chan c with pwmEn := false, line := l }
          ∧ t.tr = s.tr ++ [.pwm c false (s.chan c).pwmCmp, .led (.rgb c) l])
      ∧ (perChannel s.cfg.pwmCapable c = true → v ≠ 0#8 → v ≠ 255#8 → ∃ cmp : Byte,
          cmp.toNat = (if perChannel s.cfg.inverted c then 255 - v.toNat else v.toNat)
          ∧ t.chan c = { s.chan c with pwmEn := true, pwmCmp := cmp } ∧ t.tr = s.tr ++ [.pwm c true cmp])
      ∧ (perChannel s.cfg.pwmCapable c = false →
          (s.plat.pinsOk = true →
            l = (if s.cfg.rgbThreshold.toNat ≤ v.toNat then !perChannel s.cfg.inverted c else perChannel s.cfg.inverted c)
              ∧ ((s.chan c).pwmEn = false → t.lineLevel (.led (.rgb c)) = l))
          ∧ t.chan c = { s.chan c with line := l } ∧ t.tr = s.tr ++ [.led (.rgb c) l])
      ∧ (∀ d, d ≠ c → t.chan d = s.chan d)
      ∧ t.plat.pinsOk = s.plat.pinsOk ∧ t.plat.pwrSaved = s.plat.pwrSaved ∧ t.plat.auxLine = s.plat.auxLine
      ∧ t.plat.sleeping = s.plat.sleeping
      ∧ t.bus = s.bus ∧ t.disp = s.disp ∧ t.eng = s.eng ∧ t.env = s.env ∧ SameMemory s t ∧ SameSystem s t

/-- SETCH of channel 3 is refused (R96). -/
def Obligations.SetchReservedRefused : Prop := ∀ (v : Byte) (s : State), exec (.setch 3#2 v) s = .refused .reservedChannel

/-- Intensity 0, then 255, then 0 ends in the same channel state as a single 0: on a capable channel digital-off, the compare
register never written, and no step of the three enables the waveform generator (R219). The dark level is
claimed once the pins are configured (R280 (c)). -/
def Obligations.SetchRoundTrip : Prop :=
  ∀ (ch : BitVec 2) (c : Channel) (s t u v : State), channelOfBits ch = some c → exec (.setch ch 0#8) s = .next t →
    exec (.setch ch 255#8) t = .next u → exec (.setch ch 0#8) u = .next v →
    v.chan c = t.chan c ∧ (v.chan c).pwmCmp = (s.chan c).pwmCmp
      ∧ (perChannel s.cfg.pwmCapable c = true →
        (t.chan c).pwmEn = false ∧ (u.chan c).pwmEn = false ∧ (u.chan c).pwmCmp = (s.chan c).pwmCmp
          ∧ (v.chan c).pwmEn = false ∧ (s.plat.pinsOk = true → (v.chan c).line = perChannel s.cfg.inverted c))

/-- RELCH: waveform output off on all channels, levels and compare registers kept, three events (R218). -/
def Obligations.RelchCompletes : Prop :=
  ∀ s : State, ∃ t, exec .relch s = .next t ∧ Acked .relch s t ∧ (∀ ch, t.chan ch = { s.chan ch with pwmEn := false })
    ∧ t.tr = s.tr ++ [.pwm .r false (s.chan .r).pwmCmp, .pwm .g false (s.chan .g).pwmCmp, .pwm .b false (s.chan .b).pwmCmp]
    ∧ t.plat.pinsOk = s.plat.pinsOk ∧ t.plat.pwrSaved = s.plat.pwrSaved ∧ t.plat.auxLine = s.plat.auxLine
    ∧ t.plat.sleeping = s.plat.sleeping
    ∧ t.bus = s.bus ∧ t.disp = s.disp ∧ t.eng = s.eng ∧ t.env = s.env ∧ SameMemory s t ∧ SameSystem s t

/-! ### The lifecycle -/

/-- BOOT: pins, bus, display, power, in that order; its end state, with the levels of the lines it has driven (R225). -/
def Obligations.BootCompletes : Prop :=
  ∀ s : State, ShifterLasts s (s.cfg.ramClearCount + s.cfg.cmdTable.length) →
    ∃ t, exec .boot s = .next t ∧ Acked .boot s t ∧ Emits s t (.pins :: bootEvents s.cfg ++ [.power])
      ∧ t.disp = bootedDisplay s.cfg ∧ t.bus.en = true ∧ t.bus.role = true ∧ t.bus.cpol = s.cfg.busSetup.cpol
      ∧ t.bus.cpha = s.cfg.busSetup.cpha ∧ t.bus.order = s.cfg.busSetup.order ∧ t.bus.div = s.cfg.busSetup.div
      ∧ t.lineLevel .sck = s.cfg.busSetup.cpol ∧ t.lineLevel .dc = (!s.cfg.dcCmdLevel) ∧ t.lineLevel .drst = true
      ∧ t.bus.sck = t.bus.cpol ∧ t.plat.pinsOk = true ∧ t.plat.pwrSaved = true ∧ t.plat.sleeping = s.plat.sleeping
      ∧ (∀ ch, t.chan ch = { s.chan ch with line := (t.chan ch).line }) ∧ t.eng = s.eng ∧ SameMemory s t ∧ SameSystem s t

/-- IDLE: if the wake interrupt comes it completes, EvSleep and EvWake its only trace and all state as before; if it never
comes the block stays asleep with OPBUSY = 1 (R226, R227). That the wake is decided once at the entry and that the endless sleep
is a next state is the model's form (log entries 7 and 24). -/
def Obligations.IdleSleepsUntilWake : Prop :=
  ∀ s : State,
    (s.wakeNow = true → ∃ t, exec .idle s = .next t ∧ Acked .idle s t ∧ t.tr = s.tr ++ [.sleep, .wake]
      ∧ t.plat = { s.plat with sleeping := false } ∧ t.bus = s.bus ∧ t.disp = s.disp ∧ t.eng = s.eng ∧ SameMemory s t
      ∧ SameSystem s t)
    ∧ (s.wakeNow = false → ∃ t, exec .idle s = .next t ∧ Pending .idle s t ∧ t.tr = s.tr ++ [.sleep]
      ∧ t.plat = { s.plat with sleeping := true } ∧ t.bus = s.bus ∧ t.disp = s.disp ∧ t.eng = s.eng ∧ SameMemory s t
      ∧ SameSystem s t)

/-- MRESTART: both marker bytes written, low byte first in memory, then LIFE = ResetPending with OPBUSY = 1 and no
acknowledgement; nothing else changes but the input used up. If an external reset falls between the two byte writes, only one of
the bytes is in memory, either one, and the state is that of a reset (R66, R228, R252; that the reset is drawn so is the model's
form, log entry 8). -/
def Obligations.MrestartWritesMarker : Prop :=
  ∀ s : State, ∃ t, exec .mrestart s = .next t ∧ t.port.opAck = false ∧ t.cfg = s.cfg ∧ t.host = s.host
    ∧ (s.tearNow = .whole →
      t.port = { s.port with opBusy := true, opWord := encode .mrestart, opAck := false, life := .resetPending }
      ∧ (∀ a, t.mkRead a = if a = 0 then s.cfg.markerValue.extractLsb' 0 8
          else if a = 1 then s.cfg.markerValue.extractLsb' 8 8 else s.mkRead a)
      ∧ (∀ a, t.fbRead a = s.fbRead a) ∧ t.tr = s.tr ++ [.marker s.cfg.markerValue, .wdReset]
      ∧ t.bus = s.bus ∧ t.disp = s.disp ∧ t.eng = s.eng ∧ t.plat = s.plat ∧ SameSystem s t)
    ∧ (s.tearNow ≠ .whole → AtReset t ∧ t.fb = [])
    ∧ (s.tearNow = .lowOnly → ∀ a, t.mkRead a = if a = 0 then s.cfg.markerValue.extractLsb' 0 8 else s.mkRead a)
    ∧ (s.tearNow = .highOnly → ∀ a, t.mkRead a = if a = 1 then s.cfg.markerValue.extractLsb' 8 8 else s.mkRead a)

/-- GETW and GETH return the build's W and H, exactly, and write nothing but RESULT (R230, R231). -/
def Obligations.GeometryReadsComplete : Prop :=
  ∀ s : State, legal s.cfg = true →
    (∃ t r, exec .getw s = .next t ∧ AckedWith .getw r s t ∧ r.toNat = s.cfg.width ∧ t.bus = s.bus ∧ t.disp = s.disp
      ∧ t.eng = s.eng ∧ t.plat = s.plat ∧ t.tr = s.tr ∧ t.env = s.env ∧ SameMemory s t ∧ SameSystem s t)
    ∧ ∃ t r, exec .geth s = .next t ∧ AckedWith .geth r s t ∧ r.toNat = s.cfg.height ∧ t.bus = s.bus ∧ t.disp = s.disp
      ∧ t.eng = s.eng ∧ t.plat = s.plat ∧ t.tr = s.tr ∧ t.env = s.env ∧ SameMemory s t ∧ SameSystem s t

/-- MRESTART and the step after it: the block is as after a hardware reset and the marker survives (R39, R246, R270). -/
def Obligations.MarkerSurvivesMaintenanceRestart : Prop :=
  ∀ s t : State, legal s.cfg = true → s.tearNow = .whole → exec .mrestart s = .next t →
    ∃ u, step t = .next u ∧ AtReset u ∧ u.mkRead 0 = s.cfg.markerValue.extractLsb' 0 8
      ∧ u.mkRead 1 = s.cfg.markerValue.extractLsb' 8 8

/-! ### The whole machine -/

/-- The values R44 and R271 give for reset hold in State.reset; that no action of the outside is pending is the model's choice (log entry 9). -/
def Obligations.ResetValues : Prop := AtReset State.reset ∧ State.reset.host = []

/-- The invariant holds after reset. -/
def Obligations.ResetMeetsInvariant : Prop := Inv State.reset

/-- Every step keeps the invariant. That BITCNT counts the bits the sink has also while PINS_OK = 0 is the model's choice (log
entry 34). -/
def Obligations.StepKeepsInvariant : Prop := ∀ s t : State, Inv s → Sys2Proof.core.step s = .next t → Inv t

/-- No step changes the build (R6, R63: "Read-only for the lifetime of the process"). -/
def Obligations.BuildNeverChanges : Prop := ∀ s t : State, step s = .next t → t.cfg = s.cfg

/-- Only CFGBUS, alone or inside BOOT, writes the bus configuration; a reset clears it (R20, R21, R123). -/
def Obligations.OnlyCfgbusConfiguresBus : Prop :=
  ∀ (i : Instr) (s t : State), i ≠ .cfgbus → i ≠ .boot → (i = .mrestart → s.tearNow = .whole) →
    exec i s = .next t → SameBusSetup s t

/-- RESULT is written only by XFER, RDBTN, GETW and GETH (R34, R94). -/
def Obligations.OnlyFourWriteResult : Prop :=
  ∀ (i : Instr) (s t : State), (∀ b, i ≠ .xfer b) → i ≠ .rdbtn → i ≠ .getw → i ≠ .geth →
    (i = .mrestart → s.tearNow = .whole) → exec i s = .next t → t.port.result = s.port.result

/-- FB is written only by PAINT with clearAfter, and only with zero; MK only by MRESTART (R60, R70 (b)). -/
def Obligations.OnlyPaintAndMrestartWriteMemory : Prop :=
  ∀ (i : Instr) (s t : State), (i = .mrestart → s.tearNow = .whole) → exec i s = .next t →
    (∀ a, t.fbRead a = s.fbRead a ∨ (i = .paint true ∧ t.fbRead a = 0#8))
      ∧ (i ≠ .mrestart → ∀ a, t.mkRead a = s.mkRead a)

/-- What completes: an operation without a transfer always, one with transfers when EN = ROLE = 1 and BusLive; SAFEMODE, IDLE
and MRESTART apart (R243, R244). -/
def Obligations.CompletesUnderBusLive : Prop :=
  ∀ (i : Instr) (s : State), WellFormed i = true → i ≠ .safemode → i ≠ .idle → i ≠ .mrestart →
    (usesBus i = true → s.bus.en = true ∧ s.bus.role = true ∧ BusLive s) →
    ∃ t, exec i s = .next t ∧ t.port.opBusy = false ∧ t.port.opAck = true
end

