-- ==== Sys2Proof/Laws/State.lean ====
section
/-! SUPPORT. One lemma per field of State per group update, each true by rfl: later proofs never unfold a record update. -/

namespace Sys2Proof.Machine

@[simp] theorem State.setBus_cfg (s : State) (x : BusUnit) : (s.setBus x).cfg = s.cfg := rfl
@[simp] theorem State.setBus_bus (s : State) (x : BusUnit) : (s.setBus x).bus = x := rfl
@[simp] theorem State.setBus_disp (s : State) (x : BusUnit) : (s.setBus x).disp = s.disp := rfl
@[simp] theorem State.setBus_eng (s : State) (x : BusUnit) : (s.setBus x).eng = s.eng := rfl
@[simp] theorem State.setBus_port (s : State) (x : BusUnit) : (s.setBus x).port = s.port := rfl
@[simp] theorem State.setBus_plat (s : State) (x : BusUnit) : (s.setBus x).plat = s.plat := rfl
@[simp] theorem State.setBus_fb (s : State) (x : BusUnit) : (s.setBus x).fb = s.fb := rfl
@[simp] theorem State.setBus_marker (s : State) (x : BusUnit) : (s.setBus x).marker = s.marker := rfl
@[simp] theorem State.setBus_tr (s : State) (x : BusUnit) : (s.setBus x).tr = s.tr := rfl
@[simp] theorem State.setBus_env (s : State) (x : BusUnit) : (s.setBus x).env = s.env := rfl
@[simp] theorem State.setBus_host (s : State) (x : BusUnit) : (s.setBus x).host = s.host := rfl
@[simp] theorem State.setBus_lives (s : State) (x : BusUnit) : (s.setBus x).lives = s.lives := rfl
@[simp] theorem State.setBus_powerOns (s : State) (x : BusUnit) : (s.setBus x).powerOns = s.powerOns := rfl

@[simp] theorem State.setDisp_cfg (s : State) (x : Display) : (s.setDisp x).cfg = s.cfg := rfl
@[simp] theorem State.setDisp_bus (s : State) (x : Display) : (s.setDisp x).bus = s.bus := rfl
@[simp] theorem State.setDisp_disp (s : State) (x : Display) : (s.setDisp x).disp = x := rfl
@[simp] theorem State.setDisp_eng (s : State) (x : Display) : (s.setDisp x).eng = s.eng := rfl
@[simp] theorem State.setDisp_port (s : State) (x : Display) : (s.setDisp x).port = s.port := rfl
@[simp] theorem State.setDisp_plat (s : State) (x : Display) : (s.setDisp x).plat = s.plat := rfl
@[simp] theorem State.setDisp_fb (s : State) (x : Display) : (s.setDisp x).fb = s.fb := rfl
@[simp] theorem State.setDisp_marker (s : State) (x : Display) : (s.setDisp x).marker = s.marker := rfl
@[simp] theorem State.setDisp_tr (s : State) (x : Display) : (s.setDisp x).tr = s.tr := rfl
@[simp] theorem State.setDisp_env (s : State) (x : Display) : (s.setDisp x).env = s.env := rfl
@[simp] theorem State.setDisp_host (s : State) (x : Display) : (s.setDisp x).host = s.host := rfl
@[simp] theorem State.setDisp_lives (s : State) (x : Display) : (s.setDisp x).lives = s.lives := rfl
@[simp] theorem State.setDisp_powerOns (s : State) (x : Display) : (s.setDisp x).powerOns = s.powerOns := rfl

@[simp] theorem State.setEng_cfg (s : State) (x : Engine) : (s.setEng x).cfg = s.cfg := rfl
@[simp] theorem State.setEng_bus (s : State) (x : Engine) : (s.setEng x).bus = s.bus := rfl
@[simp] theorem State.setEng_disp (s : State) (x : Engine) : (s.setEng x).disp = s.disp := rfl
@[simp] theorem State.setEng_eng (s : State) (x : Engine) : (s.setEng x).eng = x := rfl
@[simp] theorem State.setEng_port (s : State) (x : Engine) : (s.setEng x).port = s.port := rfl
@[simp] theorem State.setEng_plat (s : State) (x : Engine) : (s.setEng x).plat = s.plat := rfl
@[simp] theorem State.setEng_fb (s : State) (x : Engine) : (s.setEng x).fb = s.fb := rfl
@[simp] theorem State.setEng_marker (s : State) (x : Engine) : (s.setEng x).marker = s.marker := rfl
@[simp] theorem State.setEng_tr (s : State) (x : Engine) : (s.setEng x).tr = s.tr := rfl
@[simp] theorem State.setEng_env (s : State) (x : Engine) : (s.setEng x).env = s.env := rfl
@[simp] theorem State.setEng_host (s : State) (x : Engine) : (s.setEng x).host = s.host := rfl
@[simp] theorem State.setEng_lives (s : State) (x : Engine) : (s.setEng x).lives = s.lives := rfl
@[simp] theorem State.setEng_powerOns (s : State) (x : Engine) : (s.setEng x).powerOns = s.powerOns := rfl

@[simp] theorem State.setPort_cfg (s : State) (x : Port) : (s.setPort x).cfg = s.cfg := rfl
@[simp] theorem State.setPort_bus (s : State) (x : Port) : (s.setPort x).bus = s.bus := rfl
@[simp] theorem State.setPort_disp (s : State) (x : Port) : (s.setPort x).disp = s.disp := rfl
@[simp] theorem State.setPort_eng (s : State) (x : Port) : (s.setPort x).eng = s.eng := rfl
@[simp] theorem State.setPort_port (s : State) (x : Port) : (s.setPort x).port = x := rfl
@[simp] theorem State.setPort_plat (s : State) (x : Port) : (s.setPort x).plat = s.plat := rfl
@[simp] theorem State.setPort_fb (s : State) (x : Port) : (s.setPort x).fb = s.fb := rfl
@[simp] theorem State.setPort_marker (s : State) (x : Port) : (s.setPort x).marker = s.marker := rfl
@[simp] theorem State.setPort_tr (s : State) (x : Port) : (s.setPort x).tr = s.tr := rfl
@[simp] theorem State.setPort_env (s : State) (x : Port) : (s.setPort x).env = s.env := rfl
@[simp] theorem State.setPort_host (s : State) (x : Port) : (s.setPort x).host = s.host := rfl
@[simp] theorem State.setPort_lives (s : State) (x : Port) : (s.setPort x).lives = s.lives := rfl
@[simp] theorem State.setPort_powerOns (s : State) (x : Port) : (s.setPort x).powerOns = s.powerOns := rfl

@[simp] theorem State.setPlat_cfg (s : State) (x : Platform) : (s.setPlat x).cfg = s.cfg := rfl
@[simp] theorem State.setPlat_bus (s : State) (x : Platform) : (s.setPlat x).bus = s.bus := rfl
@[simp] theorem State.setPlat_disp (s : State) (x : Platform) : (s.setPlat x).disp = s.disp := rfl
@[simp] theorem State.setPlat_eng (s : State) (x : Platform) : (s.setPlat x).eng = s.eng := rfl
@[simp] theorem State.setPlat_port (s : State) (x : Platform) : (s.setPlat x).port = s.port := rfl
@[simp] theorem State.setPlat_plat (s : State) (x : Platform) : (s.setPlat x).plat = x := rfl
@[simp] theorem State.setPlat_fb (s : State) (x : Platform) : (s.setPlat x).fb = s.fb := rfl
@[simp] theorem State.setPlat_marker (s : State) (x : Platform) : (s.setPlat x).marker = s.marker := rfl
@[simp] theorem State.setPlat_tr (s : State) (x : Platform) : (s.setPlat x).tr = s.tr := rfl
@[simp] theorem State.setPlat_env (s : State) (x : Platform) : (s.setPlat x).env = s.env := rfl
@[simp] theorem State.setPlat_host (s : State) (x : Platform) : (s.setPlat x).host = s.host := rfl
@[simp] theorem State.setPlat_lives (s : State) (x : Platform) : (s.setPlat x).lives = s.lives := rfl
@[simp] theorem State.setPlat_powerOns (s : State) (x : Platform) : (s.setPlat x).powerOns = s.powerOns := rfl

@[simp] theorem State.setFb_cfg (s : State) (x : Memory) : (s.setFb x).cfg = s.cfg := rfl
@[simp] theorem State.setFb_bus (s : State) (x : Memory) : (s.setFb x).bus = s.bus := rfl
@[simp] theorem State.setFb_disp (s : State) (x : Memory) : (s.setFb x).disp = s.disp := rfl
@[simp] theorem State.setFb_eng (s : State) (x : Memory) : (s.setFb x).eng = s.eng := rfl
@[simp] theorem State.setFb_port (s : State) (x : Memory) : (s.setFb x).port = s.port := rfl
@[simp] theorem State.setFb_plat (s : State) (x : Memory) : (s.setFb x).plat = s.plat := rfl
@[simp] theorem State.setFb_fb (s : State) (x : Memory) : (s.setFb x).fb = x := rfl
@[simp] theorem State.setFb_marker (s : State) (x : Memory) : (s.setFb x).marker = s.marker := rfl
@[simp] theorem State.setFb_tr (s : State) (x : Memory) : (s.setFb x).tr = s.tr := rfl
@[simp] theorem State.setFb_env (s : State) (x : Memory) : (s.setFb x).env = s.env := rfl
@[simp] theorem State.setFb_host (s : State) (x : Memory) : (s.setFb x).host = s.host := rfl
@[simp] theorem State.setFb_lives (s : State) (x : Memory) : (s.setFb x).lives = s.lives := rfl
@[simp] theorem State.setFb_powerOns (s : State) (x : Memory) : (s.setFb x).powerOns = s.powerOns := rfl

@[simp] theorem State.setMarker_cfg (s : State) (x : Memory) : (s.setMarker x).cfg = s.cfg := rfl
@[simp] theorem State.setMarker_bus (s : State) (x : Memory) : (s.setMarker x).bus = s.bus := rfl
@[simp] theorem State.setMarker_disp (s : State) (x : Memory) : (s.setMarker x).disp = s.disp := rfl
@[simp] theorem State.setMarker_eng (s : State) (x : Memory) : (s.setMarker x).eng = s.eng := rfl
@[simp] theorem State.setMarker_port (s : State) (x : Memory) : (s.setMarker x).port = s.port := rfl
@[simp] theorem State.setMarker_plat (s : State) (x : Memory) : (s.setMarker x).plat = s.plat := rfl
@[simp] theorem State.setMarker_fb (s : State) (x : Memory) : (s.setMarker x).fb = s.fb := rfl
@[simp] theorem State.setMarker_marker (s : State) (x : Memory) : (s.setMarker x).marker = x := rfl
@[simp] theorem State.setMarker_tr (s : State) (x : Memory) : (s.setMarker x).tr = s.tr := rfl
@[simp] theorem State.setMarker_env (s : State) (x : Memory) : (s.setMarker x).env = s.env := rfl
@[simp] theorem State.setMarker_host (s : State) (x : Memory) : (s.setMarker x).host = s.host := rfl
@[simp] theorem State.setMarker_lives (s : State) (x : Memory) : (s.setMarker x).lives = s.lives := rfl
@[simp] theorem State.setMarker_powerOns (s : State) (x : Memory) : (s.setMarker x).powerOns = s.powerOns := rfl

@[simp] theorem State.setEnv_cfg (s : State) (x : Env) : (s.setEnv x).cfg = s.cfg := rfl
@[simp] theorem State.setEnv_bus (s : State) (x : Env) : (s.setEnv x).bus = s.bus := rfl
@[simp] theorem State.setEnv_disp (s : State) (x : Env) : (s.setEnv x).disp = s.disp := rfl
@[simp] theorem State.setEnv_eng (s : State) (x : Env) : (s.setEnv x).eng = s.eng := rfl
@[simp] theorem State.setEnv_port (s : State) (x : Env) : (s.setEnv x).port = s.port := rfl
@[simp] theorem State.setEnv_plat (s : State) (x : Env) : (s.setEnv x).plat = s.plat := rfl
@[simp] theorem State.setEnv_fb (s : State) (x : Env) : (s.setEnv x).fb = s.fb := rfl
@[simp] theorem State.setEnv_marker (s : State) (x : Env) : (s.setEnv x).marker = s.marker := rfl
@[simp] theorem State.setEnv_tr (s : State) (x : Env) : (s.setEnv x).tr = s.tr := rfl
@[simp] theorem State.setEnv_env (s : State) (x : Env) : (s.setEnv x).env = x := rfl
@[simp] theorem State.setEnv_host (s : State) (x : Env) : (s.setEnv x).host = s.host := rfl
@[simp] theorem State.setEnv_lives (s : State) (x : Env) : (s.setEnv x).lives = s.lives := rfl
@[simp] theorem State.setEnv_powerOns (s : State) (x : Env) : (s.setEnv x).powerOns = s.powerOns := rfl

@[simp] theorem State.emit_cfg (s : State) (e : Event) : (s.emit e).cfg = s.cfg := rfl
@[simp] theorem State.emit_bus (s : State) (e : Event) : (s.emit e).bus = s.bus := rfl
@[simp] theorem State.emit_disp (s : State) (e : Event) : (s.emit e).disp = s.disp := rfl
@[simp] theorem State.emit_eng (s : State) (e : Event) : (s.emit e).eng = s.eng := rfl
@[simp] theorem State.emit_port (s : State) (e : Event) : (s.emit e).port = s.port := rfl
@[simp] theorem State.emit_plat (s : State) (e : Event) : (s.emit e).plat = s.plat := rfl
@[simp] theorem State.emit_fb (s : State) (e : Event) : (s.emit e).fb = s.fb := rfl
@[simp] theorem State.emit_marker (s : State) (e : Event) : (s.emit e).marker = s.marker := rfl
@[simp] theorem State.emit_tr (s : State) (e : Event) : (s.emit e).tr = s.tr ++ [e] := rfl
@[simp] theorem State.emit_env (s : State) (e : Event) : (s.emit e).env = s.env := rfl
@[simp] theorem State.emit_host (s : State) (e : Event) : (s.emit e).host = s.host := rfl
@[simp] theorem State.emit_lives (s : State) (e : Event) : (s.emit e).lives = s.lives := rfl
@[simp] theorem State.emit_powerOns (s : State) (e : Event) : (s.emit e).powerOns = s.powerOns := rfl

@[simp] theorem State.dropHost_cfg (s : State) : s.dropHost.cfg = s.cfg := rfl
@[simp] theorem State.dropHost_bus (s : State) : s.dropHost.bus = s.bus := rfl
@[simp] theorem State.dropHost_disp (s : State) : s.dropHost.disp = s.disp := rfl
@[simp] theorem State.dropHost_eng (s : State) : s.dropHost.eng = s.eng := rfl
@[simp] theorem State.dropHost_port (s : State) : s.dropHost.port = s.port := rfl
@[simp] theorem State.dropHost_plat (s : State) : s.dropHost.plat = s.plat := rfl
@[simp] theorem State.dropHost_fb (s : State) : s.dropHost.fb = s.fb := rfl
@[simp] theorem State.dropHost_marker (s : State) : s.dropHost.marker = s.marker := rfl
@[simp] theorem State.dropHost_tr (s : State) : s.dropHost.tr = s.tr := rfl
@[simp] theorem State.dropHost_env (s : State) : s.dropHost.env = s.env := rfl
@[simp] theorem State.dropHost_host (s : State) : s.dropHost.host = s.host.tail := rfl
@[simp] theorem State.dropHost_lives (s : State) : s.dropHost.lives = s.lives := rfl
@[simp] theorem State.dropHost_powerOns (s : State) : s.dropHost.powerOns = s.powerOns := rfl

end Sys2Proof.Machine
end

