-- ==== Sys2Proof/Laws/Memory.lean ====
section
/-! SUPPORT. The laws of the memories: a read after a write, and that every memory operation keeps the canonical form. -/

namespace Sys2Proof.Machine

@[simp] theorem Memory.read_nil (k : Nat) : Memory.read [] k = none := rfl

theorem Memory.read_write (m : Memory) (k : Nat) (v : Byte) (a : Nat) :
    Memory.read (Memory.write m k v) a = if a = k then some v else Memory.read m a := by
  induction m with
  | nil => simp [Memory.write, Memory.read, eq_comm]
  | cons c m ih =>
    obtain ⟨b, w⟩ := c
    unfold Memory.write
    split
    · simp [Memory.read, eq_comm]
    · split
      · next h =>
        subst h
        by_cases hb : k = a
        · simp [Memory.read, hb]
        · simp [Memory.read, hb, Ne.symm hb]
      · next h =>
        by_cases hb : b = a
        · subst hb; simp [Memory.read]; omega
        · simp [Memory.read, hb, ih]

theorem Memory.mem_write {m : Memory} {k : Nat} {v : Byte} {a : Nat} (h : a ∈ (Memory.write m k v).map Prod.fst) :
    a = k ∨ a ∈ m.map Prod.fst := by
  induction m with
  | nil => simpa [Memory.write] using h
  | cons c m ih =>
    obtain ⟨b, w⟩ := c
    unfold Memory.write at h
    split at h
    · simpa using h
    · split at h
      · simp only [List.map_cons, List.mem_cons] at h ⊢; tauto
      · simp only [List.map_cons, List.mem_cons] at h ⊢
        rcases h with h | h
        · exact .inr (.inl h)
        · rcases ih h with h | h
          · exact .inl h
          · exact .inr (.inr h)

/-- Every write keeps the canonical form. -/
theorem Memory.write_wf {m : Memory} (k : Nat) (v : Byte) (h : Memory.wf m = true) :
    Memory.wf (Memory.write m k v) = true := by
  simp only [Memory.wf, decide_eq_true_eq] at *
  induction m with
  | nil => simp [Memory.write]
  | cons c m ih =>
    obtain ⟨b, w⟩ := c
    rw [List.map_cons, List.pairwise_cons] at h
    unfold Memory.write
    split
    · next hk =>
      simp only [List.map_cons, List.pairwise_cons, List.mem_cons]
      refine ⟨?_, h⟩
      rintro a (rfl | ha)
      · exact hk
      · exact hk.trans (h.1 a ha)
    · split
      · next hk => subst hk; simpa using h
      · next h1 h2 =>
        simp only [List.map_cons, List.pairwise_cons]
        refine ⟨fun a ha => ?_, ih h.2⟩
        rcases Memory.mem_write ha with rfl | ha
        · simp only at *; omega
        · exact h.1 a ha

/-- A write below `n` keeps the memory below `n`. -/
theorem Memory.write_below {m : Memory} {k n : Nat} {v : Byte} (h : Memory.below m n = true) (hk : k < n) :
    Memory.below (Memory.write m k v) n = true := by
  simp only [Memory.below, List.all_eq_true, decide_eq_true_eq] at *
  intro c hc
  rcases Memory.mem_write (List.mem_map_of_mem (f := Prod.fst) hc) with h' | h'
  · omega
  · obtain ⟨d, hd, he⟩ := List.mem_map.1 h'
    rw [← he]; exact h d hd

/-- A framebuffer read after a framebuffer write. -/
theorem State.fbRead_fbWrite (s : State) (k : Nat) (v : Byte) (a : Nat) :
    (s.fbWrite k v).fbRead a = if a = k then v else s.fbRead a := by
  simp only [State.fbRead, State.fbWrite, State.setFb_fb, State.setFb_lives, Memory.read_write]
  split <;> simp

/-- A marker read after a marker write. -/
theorem State.mkRead_mkWrite (s : State) (k : Nat) (v : Byte) (a : Nat) :
    (s.mkWrite k v).mkRead a = if a = k then v else s.mkRead a := by
  simp only [State.mkRead, State.mkWrite, State.setMarker_marker, State.setMarker_powerOns, Memory.read_write]
  split <;> simp

/-- The framebuffer reads alike in states with the same FB in the same life. -/
theorem State.fbRead_congr {s t : State} (h : t.fb = s.fb) (hl : t.lives = s.lives) (a : Nat) : t.fbRead a = s.fbRead a := by
  simp [State.fbRead, h, hl]

/-- The marker reads alike in states with the same MK since the same power-on. -/
theorem State.mkRead_congr {s t : State} (h : t.marker = s.marker) (hl : t.powerOns = s.powerOns) (a : Nat) :
    t.mkRead a = s.mkRead a := by
  simp [State.mkRead, h, hl]

/-- States with the same memories in the same life read alike. -/
theorem SameMemory.of_eq {s t : State} (hf : t.fb = s.fb) (hl : t.lives = s.lives) (hm : t.marker = s.marker)
    (hp : t.powerOns = s.powerOns) : SameMemory s t := ⟨State.fbRead_congr hf hl, State.mkRead_congr hm hp⟩

end Sys2Proof.Machine
end

