-- ==== Sys2Proof/Laws/Run.lean ====
section
/-! SUPPORT. The laws of an operation's flow: sequencing, and the induction over a loop, packaged once for what holds of
every run and once for a loop every turn of which reaches its end. -/

namespace Sys2Proof.Machine

@[simp] theorem Run.bind_reached (s : State) (f : State → Run) : (Run.reached s).bind f = f s := rfl
@[simp] theorem Run.bind_stuck (s : State) (f : State → Run) : (Run.stuck s).bind f = .stuck s := rfl
@[simp] theorem Run.map_reached (s : State) (f : State → State) : (Run.reached s).map f = .reached (f s) := rfl
@[simp] theorem Run.map_stuck (s : State) (f : State → State) : (Run.stuck s).map f = .stuck s := rfl
@[simp] theorem Run.settle_reached (s : State) : (Run.reached s).settle = s.complete := rfl
@[simp] theorem Run.settle_stuck (s : State) : (Run.stuck s).settle = s := rfl

/-- What holds of a flow: `P` where it reached its end, `Q` where it is stuck. -/
def Run.Ends (r : Run) (P Q : State → Prop) : Prop :=
  (∀ t, r = .reached t → P t) ∧ ∀ t, r = .stuck t → Q t

theorem Run.ends_reached {s : State} {P Q : State → Prop} (h : P s) : (Run.reached s).Ends P Q :=
  ⟨fun t ht => by injection ht with ht; exact ht ▸ h, fun t ht => by injection ht⟩

theorem Run.ends_stuck {s : State} {P Q : State → Prop} (h : Q s) : (Run.stuck s).Ends P Q :=
  ⟨fun t ht => by injection ht, fun t ht => by injection ht with ht; exact ht ▸ h⟩

theorem Run.Ends.mono {r : Run} {P P' Q Q' : State → Prop} (h : r.Ends P Q) (hP : ∀ t, P t → P' t) (hQ : ∀ t, Q t → Q' t) :
    r.Ends P' Q' :=
  ⟨fun t ht => hP t (h.1 t ht), fun t ht => hQ t (h.2 t ht)⟩

theorem Run.Ends.bind {r : Run} {f : State → Run} {P P' Q : State → Prop} (h : r.Ends P Q)
    (hf : ∀ t, P t → (f t).Ends P' Q) : (r.bind f).Ends P' Q := by
  cases r with
  | reached t => exact hf t (h.1 t rfl)
  | stuck t => exact Run.ends_stuck (h.2 t rfl)

theorem Run.Ends.map {r : Run} {f : State → State} {P P' Q : State → Prop} (h : r.Ends P Q) (hf : ∀ t, P t → P' (f t)) :
    (r.map f).Ends P' Q :=
  h.bind fun t ht => Run.ends_reached (hf t ht)

theorem loopFrom_ends {body : Nat → State → Run} {P : Nat → State → Prop} {Q : State → Prop} {start n : Nat} {s : State}
    (h0 : P start s) (hb : ∀ k t, start ≤ k → k < start + n → P k t → (body k t).Ends (P (k + 1)) Q) :
    (loopFrom body start n s).Ends (P (start + n)) Q := by
  induction n generalizing start s with
  | zero => exact Run.ends_reached h0
  | succ n ih =>
    refine (hb start s le_rfl (by omega) h0).bind fun t ht => ?_
    have := ih (start := start + 1) ht fun k t hk hk' => hb k t (by omega) (by omega)
    rwa [show start + 1 + n = start + (n + 1) by omega] at this

/-- The induction over a loop: `P k` holds before turn `k`; a stuck turn leaves `Q`. -/
theorem loop_ends {body : Nat → State → Run} {P : Nat → State → Prop} {Q : State → Prop} {n : Nat} {s : State}
    (h0 : P 0 s) (hb : ∀ k t, k < n → P k t → (body k t).Ends (P (k + 1)) Q) : (loop n body s).Ends (P n) Q := by
  have := loopFrom_ends (n := n) h0 fun k t _ hk => hb k t (by omega)
  rwa [Nat.zero_add] at this

theorem loopFrom_reaches {body : Nat → State → Run} {P : Nat → State → Prop} {start n : Nat} {s : State}
    (h0 : P start s) (hb : ∀ k t, start ≤ k → k < start + n → P k t → ∃ u, body k t = .reached u ∧ P (k + 1) u) :
    ∃ u, loopFrom body start n s = .reached u ∧ P (start + n) u := by
  induction n generalizing start s with
  | zero => exact ⟨s, rfl, h0⟩
  | succ n ih =>
    obtain ⟨t, ht, hp⟩ := hb start s le_rfl (by omega) h0
    obtain ⟨u, hu, hq⟩ := ih (start := start + 1) hp fun k t hk hk' => hb k t (by omega) (by omega)
    refine ⟨u, ?_, by rwa [show start + (n + 1) = start + 1 + n by omega]⟩
    simp [loopFrom, ht, hu]

/-- A loop every turn of which reaches its end reaches its end. -/
theorem loop_reaches {body : Nat → State → Run} {P : Nat → State → Prop} {n : Nat} {s : State}
    (h0 : P 0 s) (hb : ∀ k t, k < n → P k t → ∃ u, body k t = .reached u ∧ P (k + 1) u) :
    ∃ u, loop n body s = .reached u ∧ P n u := by
  have := loopFrom_reaches (n := n) h0 fun k t _ hk => hb k t (by omega)
  rwa [Nat.zero_add] at this

/-- What an operation's outcome is: always a next state, completed or left where it is stuck (R95, R242). -/
theorem runOp_next (i : Instr) (body : State → Run) (s : State) : runOp i body s = .next (body (s.accept i)).settle := rfl

theorem runOp_reached {i : Instr} {body : State → Run} {s t : State} (h : body (s.accept i) = .reached t) :
    runOp i body s = .next t.complete := by rw [runOp_next, h]; rfl

theorem runOp_stuck {i : Instr} {body : State → Run} {s t : State} (h : body (s.accept i) = .stuck t) :
    runOp i body s = .next t := by rw [runOp_next, h]; rfl

@[simp] theorem State.accept_port (s : State) (i : Instr) :
    (s.accept i).port = { s.port with opBusy := true, opWord := encode i, opAck := false } := rfl
@[simp] theorem State.complete_port (s : State) :
    s.complete.port = { s.port with opBusy := false, opAck := true } := rfl

@[simp] theorem State.accept_cfg (s : State) (i : Instr) : (s.accept i).cfg = s.cfg := rfl
@[simp] theorem State.accept_bus (s : State) (i : Instr) : (s.accept i).bus = s.bus := rfl
@[simp] theorem State.accept_disp (s : State) (i : Instr) : (s.accept i).disp = s.disp := rfl
@[simp] theorem State.accept_eng (s : State) (i : Instr) : (s.accept i).eng = s.eng := rfl
@[simp] theorem State.accept_plat (s : State) (i : Instr) : (s.accept i).plat = s.plat := rfl
@[simp] theorem State.accept_fb (s : State) (i : Instr) : (s.accept i).fb = s.fb := rfl
@[simp] theorem State.accept_marker (s : State) (i : Instr) : (s.accept i).marker = s.marker := rfl
@[simp] theorem State.accept_tr (s : State) (i : Instr) : (s.accept i).tr = s.tr := rfl
@[simp] theorem State.accept_env (s : State) (i : Instr) : (s.accept i).env = s.env := rfl
@[simp] theorem State.accept_host (s : State) (i : Instr) : (s.accept i).host = s.host := rfl
@[simp] theorem State.accept_lives (s : State) (i : Instr) : (s.accept i).lives = s.lives := rfl
@[simp] theorem State.accept_powerOns (s : State) (i : Instr) : (s.accept i).powerOns = s.powerOns := rfl

@[simp] theorem State.complete_cfg (s : State) : s.complete.cfg = s.cfg := rfl
@[simp] theorem State.complete_bus (s : State) : s.complete.bus = s.bus := rfl
@[simp] theorem State.complete_disp (s : State) : s.complete.disp = s.disp := rfl
@[simp] theorem State.complete_eng (s : State) : s.complete.eng = s.eng := rfl
@[simp] theorem State.complete_plat (s : State) : s.complete.plat = s.plat := rfl
@[simp] theorem State.complete_fb (s : State) : s.complete.fb = s.fb := rfl
@[simp] theorem State.complete_marker (s : State) : s.complete.marker = s.marker := rfl
@[simp] theorem State.complete_tr (s : State) : s.complete.tr = s.tr := rfl
@[simp] theorem State.complete_env (s : State) : s.complete.env = s.env := rfl
@[simp] theorem State.complete_host (s : State) : s.complete.host = s.host := rfl
@[simp] theorem State.complete_lives (s : State) : s.complete.lives = s.lives := rfl
@[simp] theorem State.complete_powerOns (s : State) : s.complete.powerOns = s.powerOns := rfl

end Sys2Proof.Machine
end

