-- ==== Sys2Proof/Laws/Transfer.lean ====
section
/-! SUPPORT. What one byte transfer can do, said once: `transfer_ends` (every way it can end) and `transfer_reaches` (when it
completes). Later proofs cite these and never unfold the shifter. -/

namespace Sys2Proof.Machine

/-! ### One bit -/

theorem framePos_lt (o : Bool) {i : Nat} (h : i < 8) : framePos o i < 8 := by
  unfold framePos; split <;> omega

/-- The frame visits every place of a byte. -/
theorem exists_framePos (o : Bool) {j : Nat} (h : j < 8) : ∃ i < 8, framePos o i = j := by
  cases o
  · exact ⟨7 - j, by omega, by simp [framePos]; omega⟩
  · exact ⟨j, h, by simp [framePos]⟩

theorem outBit_eq (o : Bool) (x : Byte) : outBit o x = x.getLsbD (framePos o 0) := by
  cases o <;> rfl

/-- After one shift place i of the frame holds what place i + 1 held, and the last place the bit that came in. -/
theorem shiftIn_getLsbD (o : Bool) (x : Byte) (r : Bool) {i : Nat} (h : i < 8) :
    (shiftIn o x r).getLsbD (framePos o i) = if i = 7 then r else x.getLsbD (framePos o (i + 1)) := by
  cases o
  · have := BitVec.getLsbD_append (x := x.extractLsb' 0 7) (y := BitVec.ofBool r) (i := 7 - i)
    simp only [shiftIn, framePos, Bool.false_eq_true, if_false]
    refine this.trans ?_
    interval_cases i <;> simp
  · have := BitVec.getLsbD_append (x := BitVec.ofBool r) (y := x.extractLsb' 1 7) (i := i)
    simp only [shiftIn, framePos, if_true]
    refine this.trans ?_
    interval_cases i <;> simp

/-! ### The draws of MISO -/

/-- Everything but the bus and the environment is as before. -/
structure SameButBus (s t : State) : Prop where
  cfg      : t.cfg = s.cfg
  disp     : t.disp = s.disp
  eng      : t.eng = s.eng
  port     : t.port = s.port
  plat     : t.plat = s.plat
  fb       : t.fb = s.fb
  marker   : t.marker = s.marker
  host     : t.host = s.host
  lives    : t.lives = s.lives
  powerOns : t.powerOns = s.powerOns

/-- The environment's other inputs are as before. -/
structure SameInputs (s t : State) : Prop where
  buttons : t.env.buttons = s.env.buttons
  wake    : t.env.wake = s.env.wake
  tears   : t.env.tears = s.env.tears

theorem SameButBus.refl (s : State) : SameButBus s s := ⟨rfl, rfl, rfl, rfl, rfl, rfl, rfl, rfl, rfl, rfl⟩

theorem SameButBus.trans {s t u : State} (h : SameButBus s t) (g : SameButBus t u) : SameButBus s u :=
  ⟨g.cfg.trans h.cfg, g.disp.trans h.disp, g.eng.trans h.eng, g.port.trans h.port, g.plat.trans h.plat, g.fb.trans h.fb,
    g.marker.trans h.marker, g.host.trans h.host, g.lives.trans h.lives, g.powerOns.trans h.powerOns⟩

theorem SameInputs.refl (s : State) : SameInputs s s := ⟨rfl, rfl, rfl⟩

theorem SameInputs.trans {s t u : State} (h : SameInputs s t) (g : SameInputs t u) : SameInputs s u :=
  ⟨g.buttons.trans h.buttons, g.wake.trans h.wake, g.tears.trans h.tears⟩

theorem SameBusSetup.refl (s : State) : SameBusSetup s s := ⟨rfl, rfl, rfl, rfl, rfl, rfl⟩

theorem SameBusSetup.trans {s t u : State} (h : SameBusSetup s t) (g : SameBusSetup t u) : SameBusSetup s u := by
  obtain ⟨a, b, c, d, e, f⟩ := h
  obtain ⟨a', b', c', d', e', f'⟩ := g
  exact ⟨a'.trans a, b'.trans b, c'.trans c, d'.trans d, e'.trans e, f'.trans f⟩

/-- The next sample is `misoAt 0`, and each later one comes one place nearer. -/
theorem drawMiso_spec (s : State) :
    s.drawMiso.1 = s.misoAt 0 ∧ (∀ k, s.drawMiso.2.misoAt k = s.misoAt (k + 1))
      ∧ s.drawMiso.2.env.shifterLeft = s.env.shifterLeft ∧ SameButBus s s.drawMiso.2 ∧ SameInputs s s.drawMiso.2
      ∧ s.drawMiso.2.bus = s.bus ∧ s.drawMiso.2.tr = s.tr := by
  unfold State.drawMiso
  split
  · next r rest h =>
    refine ⟨by simp [State.misoAt, h], fun k => ?_, rfl, ⟨rfl, rfl, rfl, rfl, rfl, rfl, rfl, rfl, rfl, rfl⟩, ⟨rfl, rfl, rfl⟩, rfl, rfl⟩
    simp [State.misoAt, h]
  · next h =>
    refine ⟨by simp [State.misoAt, h], fun k => ?_, rfl, ⟨rfl, rfl, rfl, rfl, rfl, rfl, rfl, rfl, rfl, rfl⟩, ⟨rfl, rfl, rfl⟩, rfl, rfl⟩
    simp [State.misoAt, h, State.tick, Nat.add_assoc, Nat.add_comm 1]

/-! ### One shifter step -/

theorem State.misoAt_congr {s t : State} (h : t.env.miso = s.env.miso) (hd : t.env.draws = s.env.draws) (k : Nat) :
    t.misoAt k = s.misoAt k := by
  simp [State.misoAt, h, hd]

/-- The bus after one bit exchange, whatever the clock phase, when MOSI already carries the bit that phase 0 needs: `r` came in,
`x` reached the sink. -/
def exchanged (r x : Bool) (b : BusUnit) : BusUnit :=
  { b with sck := b.cpol
           sdr := shiftIn b.order b.sdr r
           bitcnt := b.bitcnt + 1#4
           inFlight := b.inFlight ++ [x]
           mosi := if b.cpha || decide (b.bitcnt + 1#4 = 8#4) then outBit b.order b.sdr
                   else outBit b.order (shiftIn b.order b.sdr r)
           doneFlag := b.doneFlag || decide (b.bitcnt + 1#4 = 8#4)
           busyFlag := b.busyFlag && !decide (b.bitcnt + 1#4 = 8#4) }

theorem State.useShifter_misoAt (s : State) (k : Nat) : s.useShifter.misoAt k = s.misoAt k := rfl

theorem drawMiso_eq (s : State) : s.drawMiso.2 = s.setEnv s.drawMiso.2.env := by
  unfold State.drawMiso; split <;> rfl

theorem drawMiso_fst_congr {s t : State} (h : t.env = s.env) : t.drawMiso.1 = s.drawMiso.1 := by
  unfold State.drawMiso; rw [h]; split <;> rfl

theorem drawMiso_env_congr {s t : State} (h : t.env = s.env) : t.drawMiso.2.env = s.drawMiso.2.env := by
  unfold State.drawMiso
  rw [h]
  split
  · simp
  · simp [h, State.tick]

theorem sampleBit_spec (s : State) : s.sampleBit = (s.setBus
    { s.bus with sdr := shiftIn s.bus.order s.bus.sdr s.drawMiso.1, bitcnt := s.bus.bitcnt + 1#4,
                 inFlight := s.bus.inFlight ++ [s.lineLevel .mosi] }).setEnv s.drawMiso.2.env := by
  unfold State.sampleBit
  rw [drawMiso_eq s]
  rfl

/-- What reaches the sink is the level of MOSI once the pins are configured (R36, R280 (a)). -/
theorem State.lineLevel_mosi {s : State} (h : s.plat.pinsOk = true) : s.lineLevel .mosi = s.bus.mosi := by
  simp [State.lineLevel, State.wiredLevel, h]

/-- The shifter's step in one record: R100's frame and R125's flags. -/
theorem shifterStep_spec (s : State)
    (hm : s.bus.cpha = false → s.bus.bitcnt ≠ 0#4 → s.bus.mosi = outBit s.bus.order s.bus.sdr) :
    ∃ x, (s.plat.pinsOk = true → x = outBit s.bus.order s.bus.sdr)
      ∧ s.shifterStep = (s.setBus (exchanged s.useShifter.drawMiso.1 x s.bus)).setEnv s.useShifter.drawMiso.2.env := by
  obtain ⟨cfg, ⟨en, role, order, cpol, cpha, div, sdr, dn, bs, bitcnt, sck, mosi, fl⟩, disp, eng, port, plat, fb, marker, tr,
    env, host, lives, pons⟩ := s
  have h1 : ¬ (1#4 = 8#4) := by decide
  by_cases h0 : bitcnt = 0#4 <;> by_cases h8 : bitcnt + 1#4 = 8#4 <;> cases cpha <;>
    cases h : env.miso <;> cases hp : plat.pinsOk <;>
    simp_all [State.shifterStep, State.pulse, State.leadingEdge, State.trailingEdge, State.putBit, sampleBit_spec,
      State.setBus, State.setEnv, State.useShifter, exchanged, BusUnit.completeFlags, State.drawMiso, State.tick,
      State.lineLevel, State.wiredLevel]

/-! ### The frame of one byte -/

/-- After `k` bit exchanges of the byte `b`, from the state `s` at the request. -/
structure Shifting (b : Byte) (s t : State) (k : Nat) : Prop where
  le       : k ≤ 8
  rest     : SameButBus s t
  inputs   : SameInputs s t
  setup    : SameBusSetup s t
  tr       : t.tr = s.tr
  bitcnt   : t.bus.bitcnt = BitVec.ofNat 4 k
  bits     : t.bus.inFlight.length = k
  received : s.plat.pinsOk = true → t.bus.inFlight = (List.range k).map fun i => b.getLsbD (framePos s.bus.order i)
  sdrOut   : ∀ i, i + k < 8 → t.bus.sdr.getLsbD (framePos s.bus.order i) = b.getLsbD (framePos s.bus.order (i + k))
  sdrIn    : ∀ i < k, t.bus.sdr.getLsbD (framePos s.bus.order (8 - k + i)) = s.misoAt i
  mosi     : s.bus.cpha = false → k ≠ 0 → k < 8 → t.bus.mosi = outBit s.bus.order t.bus.sdr
  doneFlag : t.bus.doneFlag = decide (k = 8)
  busyFlag : t.bus.busyFlag = decide (k ≠ 8)
  sck      : k ≠ 0 → t.bus.sck = s.bus.cpol
  miso     : ∀ i, t.misoAt i = s.misoAt (i + k)
  left     : t.env.shifterLeft = s.env.shifterLeft.map (· - k)

theorem shifting_load (b : Byte) (s : State) : Shifting b s (s.loadSdr b) 0 where
  le := by omega
  rest := ⟨rfl, rfl, rfl, rfl, rfl, rfl, rfl, rfl, rfl, rfl⟩
  inputs := ⟨rfl, rfl, rfl⟩
  setup := ⟨rfl, rfl, rfl, rfl, rfl, rfl⟩
  tr := rfl
  bitcnt := rfl
  bits := rfl
  received := fun _ => rfl
  sdrOut := fun i _ => rfl
  sdrIn := fun i h => absurd h (by omega)
  mosi := fun _ h => absurd rfl h
  doneFlag := rfl
  busyFlag := rfl
  sck := fun h => absurd rfl h
  miso := fun i => rfl
  left := by simp [State.loadSdr]

theorem ofNat4_ne {k : Nat} (h : k ≠ 0) (h' : k < 8) : BitVec.ofNat 4 k ≠ 0#4 := by
  interval_cases k <;> simp_all

theorem ofNat4_succ_eq {k : Nat} (h : k < 8) : (BitVec.ofNat 4 k + 1#4 = 8#4) ↔ k + 1 = 8 := by
  interval_cases k <;> decide

/-- One more bit exchange. -/
theorem shifting_step {b : Byte} {s t : State} {k : Nat} (h : Shifting b s t k) (hk : k < 8) :
    Shifting b s t.shifterStep (k + 1) := by
  obtain ⟨hen, hrole, hord, hcpol, hcpha, hdiv⟩ := h.setup
  have hm : t.bus.cpha = false → t.bus.bitcnt ≠ 0#4 → t.bus.mosi = outBit t.bus.order t.bus.sdr := by
    intro hc hb
    rw [hcpha] at hc
    rw [hord]
    refine h.mosi hc (fun h0 => hb ?_) hk
    rw [h.bitcnt, h0]
  obtain ⟨hr, hmi, hsl, hsb, hsi, -, -⟩ := drawMiso_spec t.useShifter
  obtain ⟨x, hx, hstep⟩ := shifterStep_spec t hm
  rw [hstep]
  have hcnt : (t.bus.bitcnt + 1#4 = 8#4) ↔ k + 1 = 8 := by rw [h.bitcnt]; exact ofNat4_succ_eq hk
  have hr' : t.useShifter.drawMiso.1 = s.misoAt k := by
    rw [hr, State.useShifter_misoAt, h.miso, Nat.zero_add]
  refine
    { le := by omega
      rest := h.rest.trans ⟨rfl, rfl, rfl, rfl, rfl, rfl, rfl, rfl, rfl, rfl⟩
      inputs := h.inputs.trans ⟨hsi.buttons, hsi.wake, hsi.tears⟩
      setup := h.setup.trans ⟨rfl, rfl, rfl, rfl, rfl, rfl⟩
      tr := h.tr
      bitcnt := ?_
      bits := by simp [exchanged, h.bits]
      received := ?_
      sdrOut := ?_
      sdrIn := ?_
      mosi := ?_
      doneFlag := ?_
      busyFlag := ?_
      sck := fun _ => hcpol
      miso := ?_
      left := ?_ }
  · simp only [State.setEnv_bus, State.setBus_bus, exchanged, h.bitcnt]
    interval_cases k <;> rfl
  · intro hp
    simp only [State.setEnv_bus, State.setBus_bus, exchanged, h.received hp, List.range_succ, List.map_append, List.map_cons,
      List.map_nil, List.append_cancel_left_eq, List.cons.injEq, and_true]
    rw [hx (by rw [h.rest.plat]; exact hp), hord, outBit_eq]
    simpa using h.sdrOut 0 (by omega)
  · intro i hi
    simp only [State.setEnv_bus, State.setBus_bus, exchanged, hord]
    rw [shiftIn_getLsbD _ _ _ (by omega), if_neg (by omega), h.sdrOut (i + 1) (by omega)]
    congr 2; omega
  · intro i hi
    simp only [State.setEnv_bus, State.setBus_bus, exchanged, hord]
    rw [shiftIn_getLsbD _ _ _ (by omega)]
    by_cases hl : i = k
    · subst hl; rw [if_pos (by omega), hr']
    · rw [if_neg (by omega), ← h.sdrIn i (by omega)]; congr 2; omega
  · intro hc _ h8
    have hn : ¬ (t.bus.bitcnt + 1#4 = 8#4) := by rw [hcnt]; omega
    simp [exchanged, hcpha, hc, hn, hord]
  · simp only [State.setEnv_bus, State.setBus_bus, exchanged, h.doneFlag, hcnt]
    simp; omega
  · simp only [State.setEnv_bus, State.setBus_bus, exchanged, h.busyFlag, hcnt]
    simp; omega
  · intro i
    have h1 : ((t.setBus (exchanged t.useShifter.drawMiso.1 x t.bus)).setEnv t.useShifter.drawMiso.2.env).misoAt i
        = t.useShifter.drawMiso.2.misoAt i := rfl
    rw [h1, hmi, State.useShifter_misoAt, h.miso]
    congr 1; omega
  · rw [State.setEnv_env, hsl]
    simp only [State.useShifter, State.setEnv_env, h.left, Option.map_map]
    rfl

/-- How many of the eight exchanges the shifter takes. -/
def exchanges (s : State) : Nat :=
  if s.bus.en && s.bus.role then match s.env.shifterLeft with
    | none => 8
    | some m => min 8 m
  else 0

theorem shifting_ready {b : Byte} {s t : State} {k : Nat} (h : Shifting b s t k) :
    t.shifterReady = true ↔ k < exchanges s := by
  obtain ⟨hen, hrole, -⟩ := h.setup
  have hle := h.le
  simp only [State.shifterReady, hen, hrole, h.busyFlag, h.left, exchanges, Bool.and_eq_true, decide_eq_true_eq]
  cases s.bus.en <;> cases s.bus.role <;> cases s.env.shifterLeft <;> simp <;> omega

theorem shift_spec {b : Byte} {s : State} (n : Nat) {t : State} {k : Nat} (h : Shifting b s t k) (hk : k ≤ exchanges s)
    (hn : exchanges s ≤ k + n) : Shifting b s (State.shift n t) (exchanges s) := by
  induction n generalizing t k with
  | zero => rwa [show exchanges s = k by omega]
  | succ n ih =>
    unfold State.shift
    split
    · next hr =>
      have hlt := (shifting_ready h).1 hr
      have h8 : exchanges s ≤ 8 := by unfold exchanges; split <;> [split; skip] <;> omega
      exact ih (shifting_step h (by omega)) hlt (by omega)
    · next hr =>
      have := mt (shifting_ready h).2 hr
      rwa [show exchanges s = k by omega]

theorem exchanges_le (s : State) : exchanges s ≤ 8 := by
  unfold exchanges; split <;> [split; skip] <;> omega

theorem exchanges_eq_eight (s : State) : exchanges s = 8 ↔ BusReady s 1 := by
  unfold exchanges BusReady ShifterLasts
  cases s.bus.en <;> cases s.bus.role <;> cases s.env.shifterLeft <;> simp

/-! ### The byte transfer -/

/-- A completed transfer of `b` (R124, R125): the byte received is the eight samples of MISO in the order of the frame. -/
structure Transferred (b : Byte) (s t : State) : Prop where
  ready    : BusReady s 1
  rest     : SameButBus s t
  inputs   : SameInputs s t
  setup    : SameBusSetup s t
  tr       : t.tr = s.tr ++ [.bus s.disp.dc b t.bus.sdr]
  bits     : t.bus.inFlight.length = 8
  received : s.plat.pinsOk = true → t.bus.inFlight = (List.range 8).map fun i => b.getLsbD (framePos s.bus.order i)
  sdr      : ∀ i < 8, t.bus.sdr.getLsbD (framePos s.bus.order i) = s.misoAt i
  idle     : BusIdle t
  bitcnt   : t.bus.bitcnt = 8#4
  miso     : ∀ i, t.misoAt i = s.misoAt (i + 8)
  left     : t.env.shifterLeft = s.env.shifterLeft.map (· - 8)

/-- A transfer that hangs (R126, R127, R242): fewer than eight bits exchanged, BUSY = 1, DONE = 0, no event. -/
structure Hung (b : Byte) (s t : State) : Prop where
  notReady : ¬ BusReady s 1
  rest     : SameButBus s t
  inputs   : SameInputs s t
  setup    : SameBusSetup s t
  tr       : t.tr = s.tr
  count    : exchanges s < 8 ∧ t.bus.bitcnt = BitVec.ofNat 4 (exchanges s)
  bits     : t.bus.inFlight.length = exchanges s
  received : s.plat.pinsOk = true →
    t.bus.inFlight = (List.range (exchanges s)).map fun i => b.getLsbD (framePos s.bus.order i)
  stuck    : BusStuck t

/-- Every way a byte transfer can end. -/
theorem transfer_ends (s : State) (b : Byte) : (s.transfer b).Ends (Transferred b s) (Hung b s) := by
  have h := shift_spec 8 (shifting_load b s) (Nat.zero_le _) (by simpa using exchanges_le s)
  unfold State.transfer
  by_cases h8 : exchanges s = 8
  · rw [h8] at h
    have hd : (State.shift 8 (s.loadSdr b)).bus.doneFlag = true := by rw [h.doneFlag]; rfl
    simp only [hd, if_true]
    refine Run.ends_reached
      { ready := (exchanges_eq_eight s).1 h8
        rest := h.rest.trans ⟨rfl, rfl, rfl, rfl, rfl, rfl, rfl, rfl, rfl, rfl⟩
        inputs := h.inputs.trans ⟨rfl, rfl, rfl⟩
        setup := h.setup.trans ⟨rfl, rfl, rfl, rfl, rfl, rfl⟩
        tr := by simp [h.tr, h.rest.disp]
        bits := h.bits
        received := h.received
        sdr := fun i hi => by simpa using h.sdrIn i hi
        idle := ⟨hd, h.busyFlag, by rw [State.emit_bus, h.sck (by omega)]; exact h.setup.2.2.2.1.symm⟩
        bitcnt := h.bitcnt
        miso := fun i => h.miso i
        left := h.left }
  · have hlt : exchanges s < 8 := by have := exchanges_le s; omega
    have hd : (State.shift 8 (s.loadSdr b)).bus.doneFlag = false := by rw [h.doneFlag]; simp [h8]
    simp only [hd, Bool.false_eq_true, if_false]
    refine Run.ends_stuck
      { notReady := fun hr => h8 ((exchanges_eq_eight s).2 hr)
        rest := h.rest
        inputs := h.inputs
        setup := h.setup
        tr := h.tr
        count := ⟨hlt, h.bitcnt⟩
        bits := h.bits
        received := h.received
        stuck := ⟨by rw [h.busyFlag]; simp [h8], hd⟩ }

/-- A transfer completes when the bus is enabled and the shifter lasts for one more byte (R126). -/
theorem transfer_reaches {s : State} (b : Byte) (h : BusReady s 1) : ∃ t, s.transfer b = .reached t ∧ Transferred b s t := by
  have he := transfer_ends s b
  cases hr : s.transfer b with
  | reached t => exact ⟨t, rfl, he.1 t hr⟩
  | stuck t => exact absurd h (he.2 t hr).notReady

/-- A transfer hangs when it does not have that. -/
theorem transfer_hangs {s : State} (b : Byte) (h : ¬ BusReady s 1) : ∃ t, s.transfer b = .stuck t ∧ Hung b s t := by
  have he := transfer_ends s b
  cases hr : s.transfer b with
  | reached t => exact absurd (he.1 t hr).ready h
  | stuck t => exact ⟨t, rfl, he.2 t hr⟩

/-- A transfer on a bus that is not enabled: the load and nothing after it (R127). -/
theorem transfer_disabled {s : State} (b : Byte) (h : s.bus.en = false) : s.transfer b = .stuck (s.loadSdr b) := by
  have h0 : State.shift 8 (s.loadSdr b) = s.loadSdr b := by
    rw [State.shift, if_neg (by simp [State.shifterReady, State.loadSdr, BusUnit.loadFlags, h])]
  rw [State.transfer, h0]; rfl

/-- What is left for the later bytes of an operation. -/
theorem Transferred.busReady {b : Byte} {s t : State} {n : Nat} (h : Transferred b s t) (hr : BusReady s (n + 1)) :
    BusReady t n := by
  obtain ⟨he, hro, hl⟩ := hr
  refine ⟨h.setup.1.trans he, h.setup.2.1.trans hro, fun m hm => ?_⟩
  rw [h.left] at hm
  cases hs : s.env.shifterLeft with
  | none => simp [hs] at hm
  | some m' =>
    have := hl m' hs
    simp [hs] at hm
    omega

theorem BusReady.one {s : State} {n : Nat} (h : BusReady s (n + 1)) : BusReady s 1 :=
  ⟨h.1, h.2.1, fun m hm => by have := h.2.2 m hm; omega⟩

end Sys2Proof.Machine
end

