-- ==== Sys2Proof/Laws/Stream.lean ====
section
/-! SUPPORT. What a part of an operation does, said once for every operation that sends bytes: `Streamed` for a part that
reached its end, `Stalled` for one that hangs, how the two compose along a sequence and along a loop, and which of the two
an operation ends in. -/

namespace Sys2Proof.Machine

/-! ### What no part of an operation changes -/

/-- What the bus, the display driver and the transfer engine never touch. -/
structure Part (s t : State) : Prop where
  cfg      : t.cfg = s.cfg
  port     : t.port = s.port
  plat     : t.plat = s.plat
  marker   : t.marker = s.marker
  host     : t.host = s.host
  lives    : t.lives = s.lives
  powerOns : t.powerOns = s.powerOns
  inputs   : SameInputs s t
  setup    : SameBusSetup s t

theorem Part.refl (s : State) : Part s s := ⟨rfl, rfl, rfl, rfl, rfl, rfl, rfl, .refl s, .refl s⟩

theorem Part.trans {s t u : State} (h : Part s t) (g : Part t u) : Part s u :=
  ⟨g.cfg.trans h.cfg, g.port.trans h.port, g.plat.trans h.plat, g.marker.trans h.marker, g.host.trans h.host,
    g.lives.trans h.lives, g.powerOns.trans h.powerOns, h.inputs.trans g.inputs, h.setup.trans g.setup⟩

theorem Part.ofButBus {s t : State} (h : SameButBus s t) (i : SameInputs s t) (b : SameBusSetup s t) : Part s t :=
  ⟨h.cfg, h.port, h.plat, h.marker, h.host, h.lives, h.powerOns, i, b⟩

theorem Part.sameSystem {s t : State} (h : Part s t) : SameSystem s t := ⟨h.cfg, h.host, h.lives, h.powerOns⟩

theorem Part.mkRead {s t : State} (h : Part s t) (a : Nat) : t.mkRead a = s.mkRead a :=
  State.mkRead_congr h.marker h.powerOns a

/-! ### The trace -/

theorem Emits.refl (s : State) : Emits s s [] := ⟨[], by simp, rfl⟩

theorem Emits.trans {s t u : State} {l l' : List Event} (h : Emits s t l) (g : Emits t u l') : Emits s u (l ++ l') := by
  obtain ⟨e, he, rfl⟩ := h
  obtain ⟨e', he', rfl⟩ := g
  exact ⟨e ++ e', by rw [he', he, List.append_assoc], by simp⟩

theorem Emits.of_tr {s t : State} (h : t.tr = s.tr) : Emits s t [] := ⟨[], by simp [h], rfl⟩

theorem Emits.emit (s : State) (e : Event) : Emits s (s.emit e) [e.shape] := ⟨[e], rfl, rfl⟩

/-! ### A part that reached its end -/

/-- A part that made `n` transfers and whose events read `l`. -/
structure Streamed (l : List Event) (n : Nat) (s t : State) : Prop where
  part  : Part s t
  emits : Emits s t l
  left  : t.env.shifterLeft = s.env.shifterLeft.map (· - 8 * n)
  ready : n ≠ 0 → BusReady s n
  idle  : n ≠ 0 → BusIdle t
  still : n = 0 → t.bus = s.bus

theorem Streamed.refl (s : State) : Streamed [] 0 s s where
  part := .refl s
  emits := .refl s
  left := by cases s.env.shifterLeft <;> simp
  ready := fun h => absurd rfl h
  idle := fun h => absurd rfl h
  still := fun _ => rfl

theorem BusReady.mono {s : State} {n m : Nat} (h : BusReady s n) (hm : m ≤ n) : BusReady s m :=
  ⟨h.1, h.2.1, fun k hk => by have := h.2.2 k hk; omega⟩

theorem Streamed.shifterLasts {l : List Event} {n : Nat} {s t : State} (h : Streamed l n s t) (m : Nat) :
    ShifterLasts s (n + m) → ShifterLasts t m := by
  intro hs k hk
  rw [h.left] at hk
  cases hl : s.env.shifterLeft with
  | none => simp [hl] at hk
  | some j =>
    have := hs j hl
    simp [hl] at hk
    omega

theorem Streamed.busReady {l : List Event} {n : Nat} {s t : State} (h : Streamed l n s t) {m : Nat}
    (hs : BusReady s (n + m)) : BusReady t m :=
  ⟨h.part.setup.1.trans hs.1, h.part.setup.2.1.trans hs.2.1, h.shifterLasts m hs.2.2⟩

theorem Streamed.busReady_back {l : List Event} {n : Nat} {s t : State} (h : Streamed l n s t) {m : Nat}
    (ht : BusReady t m) : BusReady s (n + m) := by
  refine ⟨h.part.setup.1.symm.trans ht.1, h.part.setup.2.1.symm.trans ht.2.1, fun k hk => ?_⟩
  have := ht.2.2 (k - 8 * n) (by rw [h.left, hk]; rfl)
  by_cases hn : n = 0
  · omega
  · have := (h.ready hn).2.2 k hk; omega

theorem Streamed.trans {l l' : List Event} {n m : Nat} {s t u : State} (h : Streamed l n s t) (g : Streamed l' m t u) :
    Streamed (l ++ l') (n + m) s u where
  part := h.part.trans g.part
  emits := h.emits.trans g.emits
  left := by
    rw [g.left, h.left, Option.map_map]
    congr 1; funext k; simp; omega
  ready := fun hnm => by
    by_cases hm : m = 0
    · subst hm; exact h.ready hnm
    · exact h.busReady_back (g.ready hm)
  idle := fun hnm => by
    by_cases hm : m = 0
    · subst hm
      have := h.idle hnm
      rw [BusIdle, g.still rfl]; exact this
    · exact g.idle hm
  still := fun hnm => (g.still (by omega)).trans (h.still (by omega))

/-- A part that sends nothing: the display driver's lines, the engine's registers, the framebuffer. -/
theorem Streamed.quiet {s t : State} (hp : Part s t) {l : List Event} (he : Emits s t l) (hb : t.bus = s.bus)
    (hs : t.env.shifterLeft = s.env.shifterLeft) : Streamed l 0 s t where
  part := hp
  emits := he
  left := by rw [hs]; cases s.env.shifterLeft <;> simp
  ready := fun h => absurd rfl h
  idle := fun h => absurd rfl h
  still := fun _ => hb

theorem Streamed.emit (s : State) (e : Event) : Streamed [e.shape] 0 s (s.emit e) :=
  .quiet (s := s) (t := s.emit e) ⟨rfl, rfl, rfl, rfl, rfl, rfl, rfl, ⟨rfl, rfl, rfl⟩, ⟨rfl, rfl, rfl, rfl, rfl, rfl⟩⟩ (.emit s e) rfl rfl

theorem Streamed.setDisp (s : State) (d : Display) : Streamed [] 0 s (s.setDisp d) :=
  .quiet (s := s) (t := s.setDisp d) ⟨rfl, rfl, rfl, rfl, rfl, rfl, rfl, ⟨rfl, rfl, rfl⟩, ⟨rfl, rfl, rfl, rfl, rfl, rfl⟩⟩ (.of_tr rfl) rfl rfl

theorem Streamed.setEng (s : State) (e : Engine) : Streamed [] 0 s (s.setEng e) :=
  .quiet (s := s) (t := s.setEng e) ⟨rfl, rfl, rfl, rfl, rfl, rfl, rfl, ⟨rfl, rfl, rfl⟩, ⟨rfl, rfl, rfl, rfl, rfl, rfl⟩⟩ (.of_tr rfl) rfl rfl

theorem Streamed.setFb (s : State) (m : Memory) : Streamed [] 0 s (s.setFb m) :=
  .quiet (s := s) (t := s.setFb m) ⟨rfl, rfl, rfl, rfl, rfl, rfl, rfl, ⟨rfl, rfl, rfl⟩, ⟨rfl, rfl, rfl, rfl, rfl, rfl⟩⟩ (.of_tr rfl) rfl rfl

theorem Streamed.driveDc (s : State) (m : DcMode) : Streamed [.dc m] 0 s (s.driveDc m) :=
  (Streamed.setDisp s _).trans (.emit _ (.dc m))

theorem Streamed.enterMode (s : State) (m : DcMode) : Streamed [.dc m] 0 s (s.enterMode m) :=
  (Streamed.driveDc s m).trans (.setDisp _ _)

theorem Streamed.clearIf (s : State) (i : Nat) : Streamed [] 0 s (s.clearIf i) := by
  unfold State.clearIf
  split
  · exact .setFb s _
  · exact .refl s

/-! ### A part that hangs -/

/-- A part that hangs before the end of its `n` transfers: what it did is a beginning of `l`. -/
structure Stalled (l : List Event) (n : Nat) (s t : State) : Prop where
  part     : Part s t
  emits    : ∃ l', Emits s t l' ∧ l' <+: l
  notReady : n ≠ 0 ∧ ¬ BusReady s n
  stuck    : BusStuck t
  count    : t.bus.bitcnt.toNat < 8 ∧ t.bus.inFlight.length = t.bus.bitcnt.toNat

theorem Stalled.after {l l' : List Event} {n m : Nat} {s t u : State} (h : Streamed l n s t) (g : Stalled l' m t u) :
    Stalled (l ++ l') (n + m) s u := by
  obtain ⟨l'', he, hp⟩ := g.emits
  exact ⟨h.part.trans g.part, ⟨l ++ l'', h.emits.trans he, (List.prefix_append_right_inj l).2 hp⟩,
    ⟨by have := g.notReady.1; omega, fun hr => g.notReady.2 (h.busReady hr)⟩, g.stuck, g.count⟩

theorem Stalled.before {l l' : List Event} {n m : Nat} {s t : State} (h : Stalled l n s t) :
    Stalled (l ++ l') (n + m) s t := by
  obtain ⟨l'', he, hp⟩ := h.emits
  exact ⟨h.part, ⟨l'', he, hp.trans (List.prefix_append l l')⟩,
    ⟨by have := h.notReady.1; omega, fun hr => h.notReady.2 (hr.mono (by omega))⟩, h.stuck, h.count⟩

/-- The way a part ends, with `P` of the state it reached and `Q` of the state it hangs in. -/
def Streams (l : List Event) (n : Nat) (P Q : State → Prop) (s : State) (r : Run) : Prop :=
  r.Ends (fun t => Streamed l n s t ∧ P t) fun t => Stalled l n s t ∧ Q t

theorem Streams.mono {l : List Event} {n : Nat} {P P' Q Q' : State → Prop} {s : State} {r : Run} (h : Streams l n P Q s r)
    (hP : ∀ t, Streamed l n s t → P t → P' t) (hQ : ∀ t, Q t → Q' t) : Streams l n P' Q' s r :=
  Run.Ends.mono h (fun t ht => ⟨ht.1, hP t ht.1 ht.2⟩) fun t ht => ⟨ht.1, hQ t ht.2⟩

theorem Streams.mono_stalled {l : List Event} {n : Nat} {P Q Q' : State → Prop} {s : State} {r : Run}
    (h : Streams l n P Q s r) (hQ : ∀ t, Stalled l n s t → Q t → Q' t) : Streams l n P Q' s r :=
  Run.Ends.mono h (fun _ ht => ht) fun t ht => ⟨ht.1, hQ t ht.1 ht.2⟩

/-- A part that always reaches its end. -/
theorem Streams.ofReached {l : List Event} {s t : State} {P Q : State → Prop} (h : Streamed l 0 s t) (hP : P t) :
    Streams l 0 P Q s (.reached t) := Run.ends_reached ⟨h, hP⟩

/-- One part after another. -/
theorem Streams.bind {l l' : List Event} {n m : Nat} {P P' Q : State → Prop} {s : State} {r : Run} {f : State → Run}
    (h : Streams l n P Q s r) (hf : ∀ t, Streamed l n s t → P t → Streams l' m P' Q t (f t)) :
    Streams (l ++ l') (n + m) P' Q s (r.bind f) := by
  cases r with
  | reached t =>
    obtain ⟨ht, hp⟩ := h.1 t rfl
    exact Run.Ends.mono (hf t ht hp) (fun u hu => ⟨ht.trans hu.1, hu.2⟩) fun u hu => ⟨.after ht hu.1, hu.2⟩
  | stuck t =>
    obtain ⟨ht, hq⟩ := h.2 t rfl
    exact Run.ends_stuck ⟨ht.before, hq⟩

theorem Streams.map {l l' : List Event} {n : Nat} {P P' Q : State → Prop} {s : State} {r : Run} {f : State → State}
    (h : Streams l n P Q s r) (hf : ∀ t, Streamed l n s t → P t → Streamed l' 0 t (f t) ∧ P' (f t)) :
    Streams (l ++ l') n P' Q s (r.map f) :=
  h.bind fun t ht hp => .ofReached (hf t ht hp).1 (hf t ht hp).2

/-- A first step that sends nothing. -/
theorem Streams.first {l l' : List Event} {n : Nat} {P Q : State → Prop} {s t : State} {r : Run} (h : Streamed l 0 s t)
    (g : Streams l' n P Q t r) : Streams (l ++ l') n P Q s r := by
  have := Streams.bind (P := fun u => u = t) (Q := Q) (Streams.ofReached h rfl) (f := fun _ => r) fun u _ hu => by
    subst hu; exact g
  simpa using this

theorem loopFrom_streams {body : Nat → State → Run} {L : Nat → List Event} {c : Nat} {P : Nat → State → Prop}
    {Q : State → Prop} {s₀ : State} {start n : Nat} {s : State} {l : List Event} {m : Nat} (h0 : Streamed l m s₀ s)
    (hp : P start s)
    (hb : ∀ k t l m, start ≤ k → k < start + n → Streamed l m s₀ t → P k t →
      Streams (L k) c (P (k + 1)) Q t (body k t)) :
    Streams ((List.range' start n).flatMap L) (n * c) (P (start + n)) Q s (loopFrom body start n s) := by
  induction n generalizing start s l m with
  | zero => simpa [loopFrom] using Streams.ofReached (Q := Q) (Streamed.refl s) hp
  | succ n ih =>
    have := (hb start s l m le_rfl (by omega) h0 hp).bind (l' := (List.range' (start + 1) n).flatMap L) (m := n * c)
      (P' := P (start + (n + 1))) (f := loopFrom body (start + 1) n) fun t ht hpt => by
        rw [show start + (n + 1) = start + 1 + n by omega]
        exact ih (h0.trans ht) hpt fun k t l m hk hk' => hb k t l m (by omega) (by omega)
    rw [List.range'_succ, List.flatMap_cons, show (n + 1) * c = c + n * c by rw [Nat.succ_mul, Nat.add_comm]]
    exact this

/-- A loop every turn of which makes `c` transfers. -/
theorem loop_streams {body : Nat → State → Run} {L : Nat → List Event} {c : Nat} {P : Nat → State → Prop}
    {Q : State → Prop} {n : Nat} {s : State} (hp : P 0 s)
    (hb : ∀ k t l m, k < n → Streamed l m s t → P k t → Streams (L k) c (P (k + 1)) Q t (body k t)) :
    Streams ((List.range n).flatMap L) (n * c) (P n) Q s (loop n body s) := by
  have := loopFrom_streams (start := 0) (n := n) (P := P) (Q := Q) (Streamed.refl s) hp
    fun k t l m _ hk => hb k t l m (by omega)
  rwa [← List.range_eq_range', Nat.zero_add] at this

/-! ### What an operation built from parts ends in -/

theorem Streams.reaches {l : List Event} {n : Nat} {P Q : State → Prop} {s : State} {r : Run} (h : Streams l n P Q s r)
    (hr : n = 0 ∨ BusReady s n) : ∃ t, r = .reached t ∧ Streamed l n s t ∧ P t := by
  cases r with
  | reached t => exact ⟨t, rfl, h.1 t rfl⟩
  | stuck t =>
    obtain ⟨hs, -⟩ := h.2 t rfl
    rcases hr with hr | hr
    · exact absurd hr hs.notReady.1
    · exact absurd hr hs.notReady.2

theorem Streams.stalls {l : List Event} {n : Nat} {P Q : State → Prop} {s : State} {r : Run} (h : Streams l n P Q s r)
    (hn : n ≠ 0) (hr : ¬ BusReady s n) : ∃ t, r = .stuck t ∧ Stalled l n s t ∧ Q t := by
  cases r with
  | reached t => exact absurd ((h.1 t rfl).1.ready hn) hr
  | stuck t => exact ⟨t, rfl, h.2 t rfl⟩

/-- One byte transfer as a part: it leaves everything but the bus, the environment and the trace. -/
theorem transfer_streams (s : State) (b : Byte) :
    Streams [.bus s.disp.dc b 0#8] 1 (fun t => SameButBus s t) (fun t => SameButBus s t ∧ t.tr = s.tr) s (s.transfer b) := by
  refine Run.Ends.mono (transfer_ends s b) (fun t h => ⟨?_, h.rest⟩) fun t h => ⟨?_, h.rest, h.tr⟩
  · exact { part := .ofButBus h.rest h.inputs h.setup
            emits := ⟨_, h.tr, rfl⟩
            left := h.left
            ready := fun _ => h.ready
            idle := fun _ => h.idle
            still := fun h => absurd h (by omega) }
  · exact { part := .ofButBus h.rest h.inputs h.setup
            emits := ⟨[], .of_tr h.tr, List.nil_prefix⟩
            notReady := ⟨by omega, h.notReady⟩
            stuck := h.stuck
            count := by
              have h8 := h.count.1
              rw [h.count.2, h.bits, BitVec.toNat_ofNat]
              omega }

/-! ### Parts whose events need not be named -/

/-- A part that streams some bytes or other, with `P` of the state it ends in either way. -/
def Flows (P : State → Prop) (s : State) (r : Run) : Prop := ∃ l n, Streams l n P P s r

theorem Streams.flows {l : List Event} {n : Nat} {P Q R : State → Prop} {s : State} {r : Run} (h : Streams l n P Q s r)
    (hP : ∀ t, P t → R t) (hQ : ∀ t, Q t → R t) : Flows R s r := ⟨l, n, h.mono (fun t _ ht => hP t ht) hQ⟩

theorem Flows.ofReached {l : List Event} {s t : State} {P : State → Prop} (h : Streamed l 0 s t) (hP : P t) :
    Flows P s (.reached t) := ⟨l, 0, .ofReached h hP⟩

theorem Flows.bind {P P' : State → Prop} {s : State} {r : Run} {f : State → Run} (h : Flows P s r)
    (hs : ∀ t, P t → P' t) (hf : ∀ t, Part s t → P t → Flows P' t (f t)) : Flows P' s (r.bind f) := by
  obtain ⟨l, n, h⟩ := h
  cases r with
  | reached t =>
    obtain ⟨ht, hp⟩ := h.1 t rfl
    obtain ⟨l', m, h'⟩ := hf t ht.part hp
    exact ⟨l ++ l', n + m, Run.Ends.mono h' (fun u hu => ⟨ht.trans hu.1, hu.2⟩) fun u hu => ⟨.after ht hu.1, hu.2⟩⟩
  | stuck t =>
    obtain ⟨ht, hq⟩ := h.2 t rfl
    exact ⟨l, n, Run.ends_stuck ⟨ht, hs t hq⟩⟩

theorem Flows.map {P P' : State → Prop} {s : State} {r : Run} {f : State → State} (h : Flows P s r)
    (hs : ∀ t, P t → P' t) (hf : ∀ t, P t → (∃ l, Streamed l 0 t (f t)) ∧ P' (f t)) : Flows P' s (r.map f) :=
  h.bind hs fun t _ ht => by
    obtain ⟨⟨l, hl⟩, hp⟩ := hf t ht
    exact .ofReached hl hp

theorem Flows.first {P : State → Prop} {l : List Event} {s t : State} {r : Run} (h : Streamed l 0 s t) (g : Flows P t r) :
    Flows P s r := by
  obtain ⟨l', n, g⟩ := g
  exact ⟨l ++ l', n, .first h g⟩

theorem loopFrom_flows {body : Nat → State → Run} {P : State → Prop} {start n : Nat} {s : State} (hp : P s)
    (hb : ∀ k t, P t → Flows P t (body k t)) : Flows P s (loopFrom body start n s) := by
  induction n generalizing start s with
  | zero => exact .ofReached (.refl s) hp
  | succ n ih => exact (hb start s hp).bind (fun _ h => h) fun t _ ht => ih ht

/-- Under BusLive, on an enabled bus, a flow reaches its end (R243). -/
theorem Flows.reaches {P : State → Prop} {s : State} {r : Run} (h : Flows P s r) (hb : ∀ n, BusReady s n) :
    ∃ t, r = .reached t ∧ Part s t ∧ P t := by
  obtain ⟨l, n, h⟩ := h
  obtain ⟨t, ht, hs, hp⟩ := h.reaches (.inr (hb n))
  exact ⟨t, ht, hs.part, hp⟩

/-- The bus after a flow: as before or idle if it reached its end, stuck part way through a byte if it hangs. -/
theorem Flows.ends {P : State → Prop} {s : State} {r : Run} (h : Flows P s r) :
    r.Ends (fun t => Part s t ∧ P t ∧ (t.bus = s.bus ∨ BusIdle t))
      fun t => Part s t ∧ P t ∧ BusStuck t ∧ t.bus.bitcnt.toNat < 8 ∧ t.bus.inFlight.length = t.bus.bitcnt.toNat := by
  obtain ⟨l, n, h⟩ := h
  refine Run.Ends.mono h (fun t ht => ⟨ht.1.part, ht.2, ?_⟩) fun t ht => ⟨ht.1.part, ht.2, ht.1.stuck, ht.1.count⟩
  by_cases hn : n = 0
  · exact .inl (ht.1.still hn)
  · exact .inr (ht.1.idle hn)

end Sys2Proof.Machine
end

