-- ==== Sys2Proof/Laws/Display.lean ====
section
/-! SUPPORT. What the Display Controller Driver's operations can do: one lemma each, in the words of Laws/Stream.lean. -/

namespace Sys2Proof.Machine

/-- The driver state that goes with a mode of the line (R31). -/
def modeState : DcMode → DState
  | .cmd => .commandMode
  | .data => .dataMode

theorem followDc_eq (m : DcMode) (d : DState) : followDc m d = dstateThen (modeState m) d := by
  cases d <;> cases m <;> rfl

/-- Entering a mode (R141, R142). -/
theorem enterMode_disp (s : State) (m : DcMode) :
    (s.enterMode m).disp = { s.disp with dc := m, dstate := dstateThen (modeState m) s.disp.dstate } := by
  simp [State.enterMode, State.setDState, State.driveDc, followDc_eq]

theorem dstateThen_twice (a b d : DState) : dstateThen a (dstateThen b d) = if b = .uninitialized ∨ b = .off then
    dstateThen b d else dstateThen a d := by
  cases a <;> cases b <;> cases d <;> rfl

/-- What the display driver leaves alone beside what no part touches. -/
structure DisplayOnly (s t : State) : Prop where
  eng : t.eng = s.eng
  fb  : t.fb = s.fb

theorem DisplayOnly.trans {s t u : State} (h : DisplayOnly s t) (g : DisplayOnly t u) : DisplayOnly s u :=
  ⟨g.eng.trans h.eng, g.fb.trans h.fb⟩

/-- SENDCMD's pseudocode (R143): every way it can end. -/
theorem sendCommand_streams (c : Byte) (s : State) :
    Streams [.dc .cmd, .bus .cmd c 0#8, .dc .data] 1
      (fun t => t.disp = { s.disp with dc := .data, dstate := dstateThen .dataMode s.disp.dstate } ∧ DisplayOnly s t)
      (fun t => t.disp = { s.disp with dc := .cmd, dstate := dstateThen .commandMode s.disp.dstate } ∧ DisplayOnly s t
        ∧ t.tr = s.tr ++ [.dc .cmd]) s (sendCommand c s) := by
  unfold sendCommand
  have hd := enterMode_disp s .cmd
  have h := transfer_streams (s.enterMode .cmd) c
  have h2 := Streams.first (.enterMode s .cmd) h
  refine Streams.mono (Streams.map (P' := fun t => ∃ u, SameButBus (s.enterMode .cmd) u ∧ t = u.enterMode .data) h2
    fun t _ ht => ⟨.enterMode t .data, t, ht, rfl⟩) ?_ ?_
  · rintro t - ⟨u, hu, rfl⟩
    refine ⟨?_, ?_, ?_⟩
    · rw [enterMode_disp, hu.disp, hd]
      simp [dstateThen_twice, modeState]
    · exact hu.eng
    · exact hu.fb
  · rintro t ⟨ht, htr⟩
    exact ⟨ht.disp.trans hd, ⟨ht.eng, ht.fb⟩, htr⟩

theorem range_flatMap_getD (l : List Byte) (m : DcMode) :
    (List.range l.length).flatMap (fun k => [Event.bus m (l.getD k 0#8) 0#8]) = transfers m l := by
  rw [← List.map_eq_flatMap]
  unfold transfers
  apply List.ext_getElem
  · simp
  · intro i h1 h2
    simp only [List.length_map, List.length_range] at h1
    simp [h1]

theorem range_flatMap_replicate (n : Nat) (m : DcMode) (b : Byte) :
    (List.range n).flatMap (fun _ => [Event.bus m b 0#8]) = transfers m (List.replicate n b) := by
  rw [← List.map_eq_flatMap, transfers, List.map_replicate, List.map_const']
  simp

/-- A run of transfers in one mode of the line. -/
theorem transfers_streams {s₀ : State} (bytes : Nat → State → Byte) (l : Nat → Byte) {n : Nat} {s : State}
    (h0 : SameButBus s₀ s) (hb : ∀ k t, SameButBus s₀ t → bytes k t = l k) :
    Streams ((List.range n).flatMap fun k => [.bus s₀.disp.dc (l k) 0#8]) n (fun t => SameButBus s₀ t)
      (fun t => SameButBus s₀ t) s (loop n (fun k t => t.transfer (bytes k t)) s) := by
  have := loop_streams (n := n) (c := 1) (L := fun k => [.bus s₀.disp.dc (l k) 0#8]) (P := fun _ t => SameButBus s₀ t)
    (Q := fun t => SameButBus s₀ t) (body := fun k t => t.transfer (bytes k t)) (s := s) h0 fun k t _ _ _ _ hp => by
      rw [hb k t hp]
      have h := transfer_streams t (l k)
      rw [hp.disp] at h
      exact h.mono (fun u _ hu => hp.trans hu) fun u hu => hp.trans hu.1
  simpa using this

/-- SHUTDOWN's pseudocode (R148). -/
theorem shutdownBody_streams (s : State) :
    Streams (.dc .cmd :: transfers .cmd s.cfg.shutdownSeq ++ [.delay .offSettle, .rst false]) s.cfg.shutdownSeq.length
      (fun t => t.disp = { s.disp with dc := .cmd, drst := false, dstate := .off } ∧ DisplayOnly s t)
      (fun t => t.disp = { s.disp with dc := .cmd } ∧ DisplayOnly s t) s (shutdownBody s) := by
  have h := transfers_streams (s₀ := s.driveDc .cmd) (fun k t => t.cfg.shutdownSeq.getD k 0#8)
    (fun k => s.cfg.shutdownSeq.getD k 0#8) (n := s.cfg.shutdownSeq.length) (.refl _) fun k t ht => by rw [ht.cfg]; rfl
  have h2 := Streams.first (.driveDc s .cmd) h
  rw [show (s.driveDc .cmd).disp.dc = .cmd from rfl, range_flatMap_getD] at h2
  refine Streams.mono (Streams.map (l' := [.delay .offSettle, .rst false])
    (P' := fun t => ∃ u, SameButBus (s.driveDc .cmd) u ∧ t = ((u.delayFor .offSettle).driveRst false).setDState .off) h2
    fun t _ ht => ⟨?_, t, ht, rfl⟩) ?_ ?_
  · exact (Streamed.emit t (.delay .offSettle)).trans (((Streamed.setDisp _ _).trans (.emit _ (.rst false))).trans
      (.setDisp _ _))
  · rintro t - ⟨u, hu, rfl⟩
    refine ⟨?_, ⟨hu.eng, hu.fb⟩⟩
    simp [State.setDState, State.driveRst, State.delayFor, hu.disp, State.driveDc]
  · exact fun t ht => ⟨ht.disp, ht.eng, ht.fb⟩

theorem resetPulse_streamed (s : State) :
    Streamed [.rst false, .delay .rstLow, .rst true, .delay .rstRecover] 0 s s.resetPulse :=
  (((Streamed.setDisp s _).trans (.emit _ (.rst false))).trans ((Streamed.emit _ (.delay .rstLow)).trans
    ((Streamed.setDisp _ _).trans (.emit _ (.rst true))))).trans (.emit _ (.delay .rstRecover))

/-- The clear pass (R146). -/
theorem ramClear_streams (s : State) :
    Streams (if s.cfg.ramClearCount = 0 then [] else
        .dc .data :: transfers .data (List.replicate s.cfg.ramClearCount 0x00#8)) s.cfg.ramClearCount
      (fun t => t.disp.drst = s.disp.drst ∧ DisplayOnly s t) (fun t => t.disp.drst = s.disp.drst ∧ DisplayOnly s t) s
      (ramClear s) := by
  unfold ramClear
  split
  · next h => rw [h]; exact .ofReached (.refl s) ⟨rfl, rfl, rfl⟩
  · have h := transfers_streams (s₀ := s.driveDc .data) (fun _ _ => 0x00#8) (fun _ => 0x00#8) (n := s.cfg.ramClearCount)
      (.refl _) fun _ _ _ => rfl
    have h2 := Streams.first (.driveDc s .data) h
    rw [show (s.driveDc .data).disp.dc = .data from rfl, range_flatMap_replicate] at h2
    exact h2.mono (fun t _ ht => ⟨by rw [ht.disp]; rfl, ht.eng, ht.fb⟩) fun t ht => ⟨by rw [ht.disp]; rfl, ht.eng, ht.fb⟩

/-- The display driver while the table goes out, `k` bytes of it sent (R147). -/
def tableDisplay (s : State) (k : Nat) : Display :=
  { dc := .cmd, drst := s.disp.drst, dstate := .commandMode, ctp := BitVec.ofNat 16 k }

/-- The display driver after the table. -/
def tableDone (s : State) : Display :=
  { dc := .data, drst := s.disp.drst, dstate := .dataMode, ctp := BitVec.ofNat 16 s.cfg.cmdTable.length }

/-- The table dispatch (R147), after the entry into Command Mode. -/
theorem commandTable_streams (s : State) :
    Streams (.dc .cmd :: transfers .cmd s.cfg.cmdTable ++ [.dc .data]) s.cfg.cmdTable.length
      (fun t => t.disp = tableDone s ∧ DisplayOnly s t)
      (fun t => t.disp.dc = .cmd ∧ t.disp.drst = s.disp.drst ∧ t.disp.dstate = .commandMode ∧ DisplayOnly s t) s
      (commandTable s) := by
  unfold commandTable
  have h0 : Streamed [.dc .cmd] 0 s ((((s.driveDc .cmd).setDState .commandMode)).setDisp
      { ((s.driveDc .cmd).setDState .commandMode).disp with ctp := 0#16 }) :=
    (Streamed.driveDc s .cmd).trans ((Streamed.setDisp _ _).trans (.setDisp _ _))
  have hl := loop_streams (n := s.cfg.cmdTable.length) (c := 1)
    (L := fun k => [Event.bus .cmd (s.cfg.cmdTable.getD k 0#8) 0#8]) (body := sendTableByte)
    (P := fun k t => t.cfg = s.cfg ∧ t.disp = tableDisplay s k ∧ DisplayOnly s t)
    (Q := fun t => t.disp.dc = .cmd ∧ t.disp.drst = s.disp.drst ∧ t.disp.dstate = .commandMode ∧ DisplayOnly s t)
    (s := (((s.driveDc .cmd).setDState .commandMode)).setDisp
      { ((s.driveDc .cmd).setDState .commandMode).disp with ctp := 0#16 }) ⟨rfl, rfl, rfl, rfl⟩
    fun k t _ _ _ _ ⟨hc, hd, ho⟩ => by
      have ht := transfer_streams t (t.ctRead k)
      rw [show t.ctRead k = s.cfg.cmdTable.getD k 0#8 by simp only [State.ctRead, hc],
        show t.disp.dc = .cmd by rw [hd]; rfl] at ht
      have hm := Streams.map (l' := []) (P' := fun v => v.cfg = s.cfg ∧ v.disp = tableDisplay s (k + 1) ∧ DisplayOnly s v) ht (f := fun s => s.setDisp { s.disp with ctp := s.disp.ctp + 1#16 })
        fun u _ hu => ⟨.setDisp u _, by
          refine ⟨hu.cfg.trans hc, ?_, hu.eng.trans ho.eng, hu.fb.trans ho.fb⟩
          rw [State.setDisp_disp, hu.disp, hd]
          simp [tableDisplay, BitVec.ofNat_add]⟩
      unfold sendTableByte
      rw [show t.ctRead k = s.cfg.cmdTable.getD k 0#8 by simp only [State.ctRead, hc]]
      refine hm.mono (fun u _ hu => hu) fun u hu => ?_
      rw [hu.1.disp, hd]
      exact ⟨rfl, rfl, rfl, hu.1.eng.trans ho.eng, hu.1.fb.trans ho.fb⟩
  rw [range_flatMap_getD, Nat.mul_one] at hl
  have := Streams.map (l' := [.dc .data]) (P' := fun t => t.disp = tableDone s ∧ DisplayOnly s t) (Streams.first h0 hl)
    (f := fun s => (s.driveDc .data).setDState .dataMode) fun t _ ht =>
      ⟨(Streamed.driveDc t .data).trans (.setDisp _ _), by
        refine ⟨?_, ht.2.2.eng, ht.2.2.fb⟩
        simp [State.setDState, State.driveDc, ht.2.1, tableDisplay, tableDone]⟩
  exact this

/-- BOOTDISP's pseudocode (R145): every way it can end. -/
theorem bootDisplay_streams (s : State) :
    Streams (bootEvents s.cfg) (s.cfg.ramClearCount + s.cfg.cmdTable.length)
      (fun t => t.disp = bootedDisplay s.cfg ∧ DisplayOnly s t) (fun t => t.disp.drst = true ∧ DisplayOnly s t) s
      (bootDisplay s) := by
  unfold bootDisplay
  have h1 := Streams.first (resetPulse_streamed s) (ramClear_streams s.resetPulse)
  have h2 := Streams.bind (P' := fun t => t.disp = bootedDisplay s.cfg ∧ DisplayOnly s t)
    (Q := fun t => t.disp.drst = true ∧ DisplayOnly s t)
    (h1.mono (P' := fun t => t.disp.drst = true ∧ DisplayOnly s t) (fun t _ ht => ⟨ht.1, ht.2.eng, ht.2.fb⟩)
      fun t ht => ⟨ht.1, ht.2.eng, ht.2.fb⟩) (l' := .dc .cmd :: transfers .cmd s.cfg.cmdTable ++ [.dc .data])
    (m := s.cfg.cmdTable.length) (f := commandTable) fun t ht hp => by
      have hc := commandTable_streams t
      rw [show t.cfg = s.cfg from ht.part.cfg, hp.1] at hc
      refine hc.mono (fun u _ hu => ⟨by rw [hu.1, tableDone, hp.1, ht.part.cfg]; rfl, hp.2.trans hu.2⟩) fun u hu => ⟨hu.2.1, hp.2.trans hu.2.2.2⟩
  rw [show s.resetPulse.cfg = s.cfg from rfl] at h2
  simpa [bootEvents] using h2

end Sys2Proof.Machine
end

