-- ==== Sys2Proof/Laws/Paint.lean ====
section
/-! SUPPORT. What PAINT can do, variant by variant: the events, the framebuffer, every way it can end. -/

namespace Sys2Proof.Machine

/-! ### The framebuffer under clearing -/

/-- The framebuffer when the indices in `vis` have been consumed (R78). -/
def FbConsumed (s : State) (vis : Nat → Prop) (t : State) : Prop :=
  ∀ a, (vis a → t.fbRead a = if s.eng.clr then 0#8 else s.fbRead a) ∧ (¬ vis a → t.fbRead a = s.fbRead a)

/-- What a hung PAINT can have left of the framebuffer (R170). -/
def FbPartly (s t : State) : Prop :=
  ∀ a, t.fbRead a = s.fbRead a ∨ (s.eng.clr = true ∧ a < fbSize s.cfg ∧ t.fbRead a = 0#8)

theorem FbConsumed.start (s : State) : FbConsumed s (fun _ => False) s := fun _ => ⟨False.elim, fun _ => rfl⟩

theorem FbConsumed.partly {s t : State} {vis : Nat → Prop} (h : FbConsumed s vis t) (hv : ∀ a, vis a → a < fbSize s.cfg) :
    FbPartly s t := by
  intro a
  by_cases ha : vis a
  · have := (h a).1 ha
    cases hc : s.eng.clr
    · exact .inl (by simpa [hc] using this)
    · exact .inr ⟨rfl, hv a ha, by simpa [hc] using this⟩
  · exact .inl ((h a).2 ha)

theorem FbConsumed.congr {s t : State} {v w : Nat → Prop} (h : FbConsumed s v t) (hv : ∀ a, w a ↔ v a) :
    FbConsumed s w t := fun a => ⟨fun ha => (h a).1 ((hv a).1 ha), fun ha => (h a).2 (mt (hv a).2 ha)⟩

theorem FbConsumed.fb {s t u : State} {v : Nat → Prop} (h : FbConsumed s v t) (hf : u.fb = t.fb) (hl : u.lives = t.lives) :
    FbConsumed s v u := fun a => by rw [State.fbRead_congr hf hl]; exact h a

theorem clearIf_fbRead (s : State) (i a : Nat) :
    (s.clearIf i).fbRead a = if s.eng.clr = true ∧ a = i then 0#8 else s.fbRead a := by
  unfold State.clearIf
  cases s.eng.clr
  · simp
  · simp [State.fbRead_fbWrite]

theorem FbConsumed.clearIf {s t : State} {v : Nat → Prop} (h : FbConsumed s v t) (hc : t.eng.clr = s.eng.clr) (i : Nat)
    (hi : ¬ v i) : FbConsumed s (fun a => v a ∨ a = i) (t.clearIf i) := by
  intro a
  rw [clearIf_fbRead, hc]
  refine ⟨?_, fun ha => ?_⟩
  · rintro (ha | rfl)
    · rw [if_neg (by rintro ⟨-, rfl⟩; exact hi ha)]; exact (h a).1 ha
    · rw [(h a).2 hi]; cases s.eng.clr <;> simp
  · rw [if_neg (by tauto)]; exact (h a).2 (by tauto)

@[simp] theorem clearIf_disp (s : State) (i : Nat) : (s.clearIf i).disp = s.disp := by unfold State.clearIf; split <;> rfl
@[simp] theorem clearIf_eng (s : State) (i : Nat) : (s.clearIf i).eng = s.eng := by unfold State.clearIf; split <;> rfl
@[simp] theorem clearIf_cfg (s : State) (i : Nat) : (s.clearIf i).cfg = s.cfg := by unfold State.clearIf; split <;> rfl
@[simp] theorem clearIf_lives (s : State) (i : Nat) : (s.clearIf i).lives = s.lives := by unfold State.clearIf; split <;> rfl

/-- What a PAINT from `s` has done at `t` when the indices in `vis` are consumed. -/
structure Painting (s : State) (vis : Nat → Prop) (t : State) : Prop where
  clr : t.eng.clr = s.eng.clr
  fb  : FbConsumed s vis t

theorem Painting.start (s : State) : Painting s (fun _ => False) s := ⟨rfl, .start s⟩

/-! ### One source byte of the 1bpp variants -/

/-- R172, R174: the byte at `i`, unconsumed so far, goes out and is consumed. -/
theorem paintByte_streams {s t : State} {vis : Nat → Prop} (h : Painting s vis t) {i : Nat} (hi : ¬ vis i)
    (hv : ∀ a, vis a ∨ a = i → a < fbSize s.cfg) :
    Streams [.bus t.disp.dc (s.fbRead i) 0#8] 1
      (fun u => Painting s (fun a => vis a ∨ a = i) u ∧ u.disp = t.disp) (fun u => FbPartly s u ∧ u.disp = t.disp) t
      (paintByte i t) := by
  unfold paintByte
  have hr : (t.setEng { t.eng with idx := BitVec.ofNat 16 i }).fbRead i = s.fbRead i := (h.fb i).2 hi
  change Streams _ 1 _ _ t (((t.setEng { t.eng with idx := BitVec.ofNat 16 i }).clearIf i).transfer
    ((t.setEng { t.eng with idx := BitVec.ofNat 16 i }).fbRead i))
  rw [hr]
  have hq : Painting s (fun a => vis a ∨ a = i) ((t.setEng { t.eng with idx := BitVec.ofNat 16 i }).clearIf i) := by
    refine ⟨by simpa using h.clr, ?_⟩
    exact FbConsumed.clearIf (h.fb.fb (u := t.setEng { t.eng with idx := BitVec.ofNat 16 i }) rfl rfl) h.clr i hi
  have hs := transfer_streams ((t.setEng { t.eng with idx := BitVec.ofNat 16 i }).clearIf i) (s.fbRead i)
  have h2 := Streams.first ((Streamed.setEng t _).trans (.clearIf _ i)) hs
  rw [clearIf_disp, State.setEng_disp] at h2
  have hd : ∀ u, SameButBus ((t.setEng { t.eng with idx := BitVec.ofNat 16 i }).clearIf i) u → u.disp = t.disp := by
    intro u hu; rw [hu.disp]; simp
  refine h2.mono (fun u _ hu => ⟨⟨?_, hq.fb.fb hu.fb hu.lives⟩, hd u hu⟩) fun u hu => ⟨?_, hd u hu.1⟩
  · rw [hu.eng]; exact hq.clr
  · exact (hq.fb.fb hu.1.fb hu.1.lives).partly hv

theorem transfers_map (m : DcMode) (l : List Nat) (g : Nat → Byte) :
    transfers m (l.map g) = l.map fun k => Event.bus m (g k) 0#8 := by
  simp [transfers]

/-- LINEAR1 (R174). -/
theorem paintLinear_streams (s : State) :
    Streams (transfers s.disp.dc (linearBytes s)) (fbSize s.cfg)
      (fun t => Painting s (· < fbSize s.cfg) t ∧ t.disp = s.disp) (fun t => FbPartly s t ∧ t.disp = s.disp) s
      (paintLinear s) := by
  unfold paintLinear
  have := loop_streams (n := fbSize s.cfg) (c := 1) (L := fun k => [Event.bus s.disp.dc (s.fbRead k) 0#8])
    (body := paintByte) (P := fun k t => Painting s (· < k) t ∧ t.disp = s.disp)
    (Q := fun t => FbPartly s t ∧ t.disp = s.disp) (s := s)
    ⟨⟨rfl, (FbConsumed.start s).congr (by simp)⟩, rfl⟩ fun k t l m hk _ hp => by
      have h := paintByte_streams (i := k) hp.1 (by simp) fun a ha => by omega
      rw [hp.2] at h
      refine h.mono (fun u _ hu => ⟨⟨hu.1.clr, hu.1.fb.congr fun a => ?_⟩, hu.2⟩) fun u hu => hu
      omega
  rw [Nat.mul_one, ← List.map_eq_flatMap, ← transfers_map] at this
  exact this

/-- The driver after a page (R172). -/
def pagedDisp (s : State) : Display := { s.disp with dc := .data, dstate := dstateThen .dataMode s.disp.dstate }

/-- One page (R172). -/
theorem paintPage_streams {s t : State} {p : Nat} (hc : t.cfg = s.cfg) (hp : Painting s (· < p * s.cfg.width) t)
    (hd : pagedDisp t = pagedDisp s) (hle' : (p + 1) * s.cfg.width ≤ fbSize s.cfg) :
    Streams (pageEvents s p) (s.cfg.width + 2)
      (fun u => Painting s (· < (p + 1) * s.cfg.width) u ∧ u.disp = pagedDisp s) (fun u => FbPartly s u) t
      (paintPage p t) := by
  unfold paintPage
  have hle : p * s.cfg.width ≤ fbSize s.cfg := by rw [Nat.succ_mul] at hle'; omega
  have h1 := Streams.first ((Streamed.setEng t { t.eng with page := BitVec.ofNat 8 p }).trans (.enterMode _ .cmd))
    (transfer_streams ((t.setEng { t.eng with page := BitVec.ofNat 8 p }).enterMode .cmd) (pageSelectByte s.cfg p))
  have hd1 := enterMode_disp (t.setEng { t.eng with page := BitVec.ofNat 8 p }) .cmd
  have hpart : ∀ u, u.fb = t.fb → u.lives = t.lives → FbPartly s u := fun u hf hl =>
    (hp.fb.fb hf hl).partly fun a ha => by omega
  rw [show (t.setEng { t.eng with page := BitVec.ofNat 8 p }).enterMode .cmd =
    (t.setEng { t.eng with page := BitVec.ofNat 8 p }).enterMode .cmd from rfl]
  have hcfg1 : ((t.setEng { t.eng with page := BitVec.ofNat 8 p }).enterMode .cmd).cfg = s.cfg := hc
  simp only [hcfg1]
  have h1' := h1.mono (P' := fun u => SameButBus ((t.setEng { t.eng with page := BitVec.ofNat 8 p }).enterMode .cmd) u)
    (Q' := FbPartly s) (fun u _ hu => hu) fun u hu => hpart u hu.1.fb hu.1.lives
  have := h1'.bind (l' := [.bus .cmd s.cfg.columnReset 0#8, .dc .data]
      ++ transfers .data ((List.range s.cfg.width).map fun c => s.fbRead (p * s.cfg.width + c))) (m := 1 + s.cfg.width)
    (P' := fun u => Painting s (· < (p + 1) * s.cfg.width) u ∧ u.disp = pagedDisp s)
    (f := fun s => (s.transfer s.cfg.columnReset).bind fun s => loop s.cfg.width (paintColumn p) (s.enterMode .data))
    fun u hsu hu => by
      have hcu : u.cfg = s.cfg := hu.cfg.trans hcfg1
      have h2 := transfer_streams u u.cfg.columnReset
      rw [hu.disp, hd1, hcu] at h2
      have h2' := h2.mono (P' := fun v => SameButBus u v) (Q' := FbPartly s) (fun v _ hv => hv) fun v hv =>
        hpart v (hv.1.fb.trans hu.fb) (hv.1.lives.trans hu.lives)
      rw [hcu]
      change Streams ([.bus .cmd s.cfg.columnReset 0#8] ++ ([.dc .data] ++ _)) _ _ _ _ _
      refine h2'.bind (f := fun s => loop s.cfg.width (paintColumn p) (s.enterMode .data)) fun v hsv hv => ?_
      have hcv : v.cfg = s.cfg := hv.cfg.trans hcu
      have hdv : (v.enterMode .data).disp = pagedDisp s := by
        rw [enterMode_disp, hv.disp, hu.disp, hd1, ← hd]
        simp [pagedDisp, dstateThen_twice, modeState]
      rw [hcv]
      refine Streams.first (.enterMode v .data) ?_
      have hl := loop_streams (n := s.cfg.width) (c := 1)
        (L := fun c => [Event.bus .data (s.fbRead (p * s.cfg.width + c)) 0#8]) (body := paintColumn p)
        (P := fun c w => w.cfg = s.cfg ∧ Painting s (· < p * s.cfg.width + c) w ∧ w.disp = pagedDisp s)
        (Q := FbPartly s) (s := v.enterMode .data)
        ⟨hcv, ⟨by
            rw [show (v.enterMode .data).eng = v.eng from rfl, hv.eng, hu.eng]; exact hp.clr,
          hp.fb.fb (hv.fb.trans hu.fb) (hv.lives.trans hu.lives)⟩, hdv⟩ fun c w _ _ hcw _ hw => by
          unfold paintColumn
          rw [hw.1]
          have hq : Painting s (· < p * s.cfg.width + c) (w.setEng { w.eng with col := BitVec.ofNat 8 c }) :=
            ⟨hw.2.1.clr, hw.2.1.fb.fb rfl rfl⟩
          have hb := paintByte_streams (i := p * s.cfg.width + c) hq (by simp) fun a ha => by
            rw [Nat.succ_mul] at hle'; omega
          rw [State.setEng_disp, hw.2.2] at hb
          have hb' := Streams.first (Streamed.setEng w _) hb
          refine Streams.mono hb' (fun x hx hxp => ⟨hx.part.cfg.trans hw.1, ⟨hxp.1.clr, hxp.1.fb.congr fun a => ?_⟩, hxp.2⟩)
            fun x hx => hx.1
          omega
      rw [Nat.mul_one, ← List.map_eq_flatMap, ← transfers_map] at hl
      refine hl.mono (fun w _ hw => ⟨?_, hw.2.2⟩) fun w hw => hw
      rw [Nat.succ_mul]; exact hw.2.1
  have he : pageEvents s p = ([] ++ [Event.dc .cmd]) ++ [.bus .cmd (pageSelectByte s.cfg p) 0#8]
      ++ ([.bus .cmd s.cfg.columnReset 0#8, .dc .data]
      ++ transfers .data ((List.range s.cfg.width).map fun c => s.fbRead (p * s.cfg.width + c))) := by
    simp [pageEvents]
  rw [he, show s.cfg.width + 2 = 1 + (1 + s.cfg.width) by omega]
  rw [hd1] at this
  exact this

theorem pagedDisp_pagedDisp (s : State) (d : Display) (h : d = pagedDisp s) :
    ({ d with dc := .data, dstate := dstateThen .dataMode d.dstate } : Display) = pagedDisp s := by
  subst h
  simp [pagedDisp, dstateThen_twice]

theorem pageCount_mul_width {c : Cfg} (h : legal c = true) : pageCount c * c.width = fbSize c := by
  have h8 : c.height % 8 = 0 := by
    simp only [legal, legalGeometry, Bool.and_eq_true, decide_eq_true_eq] at h
    exact h.1.1.1.1.2
  obtain ⟨k, hk⟩ := Nat.dvd_of_mod_eq_zero h8
  rw [pageCount, fbSize, hk, Nat.mul_div_cancel_left _ (by omega), show c.width * (8 * k) = 8 * (k * c.width) by ring,
    Nat.mul_div_cancel_left _ (by omega)]

theorem pageCount_pos {c : Cfg} (h : legal c = true) : 0 < pageCount c := by
  simp only [legal, legalGeometry, Bool.and_eq_true, decide_eq_true_eq] at h
  unfold pageCount; omega

theorem width_pos {c : Cfg} (h : legal c = true) : 0 < c.width := by
  simp only [legal, legalGeometry, Bool.and_eq_true, decide_eq_true_eq] at h
  omega

/-- PAGED1 (R172). -/
theorem paintPaged_streams {s : State} (hl : legal s.cfg = true) :
    Streams (pagedEvents s) (pageCount s.cfg * (s.cfg.width + 2))
      (fun t => Painting s (· < fbSize s.cfg) t ∧ t.disp = pagedDisp s) (fun t => FbPartly s t) s (paintPaged s) := by
  unfold paintPaged
  have := loop_streams (n := pageCount s.cfg) (c := s.cfg.width + 2) (L := pageEvents s) (body := paintPage)
    (P := fun p t => t.cfg = s.cfg ∧ Painting s (· < p * s.cfg.width) t ∧ pagedDisp t = pagedDisp s
      ∧ (p ≠ 0 → t.disp = pagedDisp s)) (Q := fun t => FbPartly s t) (s := s)
    ⟨rfl, ⟨rfl, (FbConsumed.start s).congr (by simp)⟩, rfl, fun h => absurd rfl h⟩ fun p t l m hp _ ht => by
      have h := paintPage_streams ht.1 ht.2.1 ht.2.2.1 (by
        rw [← pageCount_mul_width hl]; exact Nat.mul_le_mul_right _ hp)
      refine h.mono (fun u hs hu => ⟨hs.part.cfg.trans ht.1, hu.1, ?_, fun _ => hu.2⟩) fun u hu => hu
      exact pagedDisp_pagedDisp s u.disp hu.2
  refine this.mono (fun t _ ht => ⟨?_, ht.2.2.2 (by have := pageCount_pos hl; omega)⟩) fun t ht => ht
  have h := ht.2.1
  rwa [pageCount_mul_width hl] at h

/-! ### The expander families -/

/-- The shifts of one pair (R181): the sources are shifted in lockstep, nothing else moves. -/
theorem expandShifts_streams (pack : Expander → Byte → Byte → Byte) (nshift sh : Nat) (s : State) (a b : Byte)
    (ha : s.eng.srcA = a) (hb : s.eng.srcB = b) :
    Streams ((List.range nshift).map fun k =>
        Event.bus s.disp.dc (pack s.cfg.expander (a >>> (k * sh)) (b >>> (k * sh))) 0#8) nshift
      (fun t => t.eng.clr = s.eng.clr ∧ t.disp = s.disp ∧ t.fb = s.fb)
      (fun t => t.eng.clr = s.eng.clr ∧ t.disp = s.disp ∧ t.fb = s.fb) s (loop nshift (expandShift pack sh) s) := by
  have := loop_streams (n := nshift) (c := 1)
    (L := fun k => [Event.bus s.disp.dc (pack s.cfg.expander (a >>> (k * sh)) (b >>> (k * sh))) 0#8])
    (body := expandShift pack sh)
    (P := fun k t => t.eng.clr = s.eng.clr ∧ t.disp = s.disp ∧ t.fb = s.fb ∧ t.cfg = s.cfg
      ∧ t.eng.srcA = a >>> (k * sh) ∧ t.eng.srcB = b >>> (k * sh))
    (Q := fun t => t.eng.clr = s.eng.clr ∧ t.disp = s.disp ∧ t.fb = s.fb) (s := s)
    ⟨rfl, rfl, rfl, rfl, by simp [ha], by simp [hb]⟩ fun k t l m _ _ ht => by
      obtain ⟨h1, h2, h3, h4, h5, h6⟩ := ht
      have hs := Streams.first (Streamed.setEng t { t.eng with shcnt := BitVec.ofNat 4 k })
        (transfer_streams (t.setEng { t.eng with shcnt := BitVec.ofNat 4 k })
          (pack s.cfg.expander (a >>> (k * sh)) (b >>> (k * sh))))
      rw [State.setEng_disp, h2] at hs
      have hm := hs.map (l' := []) (P' := fun v => v.eng.clr = s.eng.clr ∧ v.disp = s.disp ∧ v.fb = s.fb ∧ v.cfg = s.cfg
          ∧ v.eng.srcA = a >>> ((k + 1) * sh) ∧ v.eng.srcB = b >>> ((k + 1) * sh))
        (f := fun s => s.setEng { s.eng with srcA := s.eng.srcA >>> sh, srcB := s.eng.srcB >>> sh }) fun u _ hu => by
          refine ⟨.setEng u _, ?_, ?_, ?_, ?_, ?_, ?_⟩
          · simp [hu.eng, h1]
          · simp [hu.disp, h2]
          · simp [hu.fb, h3]
          · simp [hu.cfg, h4]
          · simp [hu.eng, h5, Nat.succ_mul, BitVec.shiftRight_add]
          · simp [hu.eng, h6, Nat.succ_mul, BitVec.shiftRight_add]
      have : expandShift pack sh k t = (State.transfer (t.setEng { t.eng with shcnt := BitVec.ofNat 4 k })
          (pack s.cfg.expander (a >>> (k * sh)) (b >>> (k * sh)))).map fun s =>
            s.setEng { s.eng with srcA := s.eng.srcA >>> sh, srcB := s.eng.srcB >>> sh } := by
        simp [expandShift, h4, h5, h6]
      rw [this]
      refine hm.mono (fun u _ hu => hu) fun u hu => ?_
      simp [hu.1.eng, h1, hu.1.disp, h2, hu.1.fb, h3]
  rw [Nat.mul_one, ← List.map_eq_flatMap] at this
  exact this.mono (fun t _ ht => ⟨ht.1, ht.2.1, ht.2.2.1⟩) fun t ht => ht

/-- One source pair (R181), both bytes of it unconsumed so far. -/
theorem expandPair_streams (pack : Expander → Byte → Byte → Byte) (nshift sh : Nat) {s t : State} {vis : Nat → Prop}
    (hc : t.cfg = s.cfg) (h : Painting s vis t) (hd : t.disp = s.disp) {x q : Nat} {i j : Nat}
    (hi : i = pairIndex s.cfg.expander x q) (hj : j = i + s.cfg.expander.pairOffset) (hvi : ¬ vis i) (hvj : ¬ vis j)
    (hij : i ≠ j) (hv : ∀ a, (vis a ∨ a = i) ∨ a = j → a < fbSize s.cfg) :
    Streams (transfers s.disp.dc (pairBytes pack nshift sh s i)) nshift
      (fun u => Painting s (fun a => (vis a ∨ a = i) ∨ a = j) u ∧ u.disp = s.disp)
      (fun u => FbPartly s u ∧ u.disp = s.disp) t (expandPair pack nshift sh x q t) := by
  unfold expandPair
  simp only [hc, ← hi, ← hj, (h.fb i).2 hvi, (h.fb j).2 hvj]
  generalize he : ({ idx := BitVec.ofNat 16 i, page := t.eng.page, col := t.eng.col, srcA := s.fbRead i, srcB := s.fbRead j, shcnt := t.eng.shcnt, inner := BitVec.ofNat 16 q, outer := t.eng.outer, clr := t.eng.clr } : Engine) = e
  have hp : Painting s (fun a => (vis a ∨ a = i) ∨ a = j) (((t.setEng e).clearIf i).clearIf j) := by
    refine ⟨by simp [← he, h.clr], ?_⟩
    refine FbConsumed.clearIf (FbConsumed.clearIf (h.fb.fb (u := t.setEng e) rfl rfl) (by simp [← he, h.clr]) i hvi)
      (by simp [← he, h.clr]) j ?_
    rintro (hh | hh)
    · exact hvj hh
    · exact hij hh.symm
  have hs := Streams.first ((Streamed.setEng t e).trans ((Streamed.clearIf _ i).trans (.clearIf _ j)))
    (expandShifts_streams pack nshift sh (((t.setEng e).clearIf i).clearIf j) (s.fbRead i) (s.fbRead j)
      (by simp [← he]) (by simp [← he]))
  simp only [clearIf_disp, clearIf_cfg, State.setEng_disp, State.setEng_cfg, hd, hc] at hs
  have hm := hs.map (l' := []) (P' := fun u => Painting s (fun a => (vis a ∨ a = i) ∨ a = j) u ∧ u.disp = s.disp)
    (f := fun u => u.setEng { u.eng with idx := BitVec.ofNat 16 (i + u.cfg.expander.innerStride) }) fun u hsu hu => by
      refine ⟨.setEng u _, ⟨?_, ?_⟩, hu.2.1⟩
      · rw [State.setEng_eng]; exact hu.1.trans hp.clr
      · exact hp.fb.fb hu.2.2 (by simpa using hsu.part.lives)
  simp only [List.nil_append, List.append_nil, List.map_eq_flatMap] at hm
  rw [pairBytes, ← hj, transfers_map, List.map_eq_flatMap]
  exact hm.mono_stalled fun u hsu hu => ⟨(hp.fb.fb hu.2.2 (by simpa using hsu.part.lives)).partly hv, hu.2.1⟩

/-- One index of the traversal: the lower or the upper byte of a pair (R181). -/
def sideIndex (e : Expander) (x q : Nat) (upper : Bool) : Nat := pairIndex e x q + if upper then e.pairOffset else 0

theorem traversal_eq (e : Expander) : traversal e = (List.range e.outerCount).flatMap fun x =>
    (List.range e.innerCount).flatMap fun q => [sideIndex e x q false, sideIndex e x q true] := by
  simp [traversal, sideIndex]

/-- In a legal build no index is visited twice (R182). -/
theorem sideIndex_inj {e : Expander} (hn : (traversal e).Nodup) {x q x' q' : Nat} {b b' : Bool} (hx : x < e.outerCount)
    (hx' : x' < e.outerCount) (hq : q < e.innerCount) (hq' : q' < e.innerCount)
    (h : sideIndex e x q b = sideIndex e x' q' b') : x = x' ∧ q = q' ∧ b = b' := by
  rw [traversal_eq, List.nodup_flatMap] at hn
  obtain ⟨hin, hout⟩ := hn
  have hmem : ∀ {x q b}, q < e.innerCount → sideIndex e x q b ∈ (List.range e.innerCount).flatMap fun q =>
      [sideIndex e x q false, sideIndex e x q true] := by
    intro x q b hq
    rw [List.mem_flatMap]
    exact ⟨q, List.mem_range.2 hq, by cases b <;> simp⟩
  have hxx : x = x' := by
    by_contra hne
    rcases Nat.lt_or_gt_of_ne hne with hlt | hlt
    · have := List.pairwise_iff_getElem.1 hout x x' (by simpa) (by simpa) hlt
      simp only [List.getElem_range] at this
      exact this (hmem hq) (h ▸ hmem hq')
    · have := List.pairwise_iff_getElem.1 hout x' x (by simpa) (by simpa) hlt
      simp only [List.getElem_range] at this
      exact this (hmem hq') (h ▸ hmem hq)
  subst hxx
  have hc := hin x (List.mem_range.2 hx)
  rw [List.nodup_flatMap] at hc
  obtain ⟨hpair, hcol⟩ := hc
  have hmem' : ∀ q b, sideIndex e x q b ∈ [sideIndex e x q false, sideIndex e x q true] := by
    intro q b; cases b <;> simp
  have hqq : q = q' := by
    by_contra hne
    rcases Nat.lt_or_gt_of_ne hne with hlt | hlt
    · have := List.pairwise_iff_getElem.1 hcol q q' (by simpa) (by simpa) hlt
      simp only [List.getElem_range] at this
      exact this (hmem' q b) (h ▸ hmem' q' b')
    · have := List.pairwise_iff_getElem.1 hcol q' q (by simpa) (by simpa) hlt
      simp only [List.getElem_range] at this
      exact this (hmem' q' b') (h ▸ hmem' q b)
  subst hqq
  have := hpair q (List.mem_range.2 hq)
  refine ⟨rfl, rfl, ?_⟩
  cases b <;> cases b' <;> simp_all

/-- The indices consumed before inner iteration `q` of outer iteration `x`. -/
def Visited (e : Expander) (x q a : Nat) : Prop :=
  ∃ x' q' b, ((x' < x ∧ q' < e.innerCount) ∨ (x' = x ∧ q' < q)) ∧ a = sideIndex e x' q' b

theorem visited_succ (e : Expander) (x q a : Nat) : Visited e x (q + 1) a ↔
    (Visited e x q a ∨ a = sideIndex e x q false) ∨ a = sideIndex e x q true := by
  constructor
  · rintro ⟨x', q', b, h, rfl⟩
    by_cases hh : x' = x ∧ q' = q
    · obtain ⟨rfl, rfl⟩ := hh
      cases b <;> simp
    · exact .inl (.inl ⟨x', q', b, by omega, rfl⟩)
  · rintro ((⟨x', q', b, h, rfl⟩ | rfl) | rfl)
    · exact ⟨x', q', b, by omega, rfl⟩
    · exact ⟨x, q, false, by omega, rfl⟩
    · exact ⟨x, q, true, by omega, rfl⟩

theorem visited_column (e : Expander) (x a : Nat) : Visited e (x + 1) 0 a ↔ Visited e x e.innerCount a := by
  constructor
  · rintro ⟨x', q', b, h, rfl⟩
    exact ⟨x', q', b, by omega, rfl⟩
  · rintro ⟨x', q', b, h, rfl⟩
    exact ⟨x', q', b, by omega, rfl⟩

theorem visited_zero (e : Expander) (a : Nat) : ¬ Visited e 0 0 a := by
  rintro ⟨x', q', b, h, -⟩; omega

theorem mem_traversal {e : Expander} {a : Nat} : a ∈ traversal e ↔ Visited e e.outerCount 0 a := by
  rw [traversal_eq, List.mem_flatMap]
  constructor
  · rintro ⟨x, hx, ha⟩
    rw [List.mem_flatMap] at ha
    obtain ⟨q, hq, ha⟩ := ha
    rw [List.mem_range] at hx hq
    rcases List.mem_cons.1 ha with rfl | ha
    · exact ⟨x, q, false, by omega, rfl⟩
    · rcases List.mem_cons.1 ha with rfl | ha
      · exact ⟨x, q, true, by omega, rfl⟩
      · simp at ha
  · rintro ⟨x, q, b, h, rfl⟩
    refine ⟨x, List.mem_range.2 (by omega), List.mem_flatMap.2 ⟨q, List.mem_range.2 (by omega), ?_⟩⟩
    cases b <;> simp

/-- What R182 asks of an expander build. -/
structure Covers (c : Cfg) : Prop where
  length : (traversal c.expander).length = fbSize c
  below  : ∀ a ∈ traversal c.expander, a < fbSize c
  nodup  : (traversal c.expander).Nodup

theorem covers_of_legal {c : Cfg} (h : legal c = true) (hf : c.family = .exp4 ∨ c.family = .exp2) : Covers c := by
  have : legalCoverage c = true := by
    simp only [legal, legalExpander, Bool.and_eq_true] at h
    rcases hf with hf | hf <;> simp only [hf, Bool.and_eq_true] at h <;> exact h.1.2.2.1
  simp only [legalCoverage, Bool.and_eq_true, decide_eq_true_eq, List.all_eq_true] at this
  exact ⟨this.1.1, this.1.2, this.2⟩

theorem Covers.mem {c : Cfg} (h : Covers c) (a : Nat) : a ∈ traversal c.expander ↔ a < fbSize c := by
  have hp : (traversal c.expander).Subperm (List.range (fbSize c)) :=
    List.subperm_of_subset h.nodup fun a ha => List.mem_range.2 (h.below a ha)
  have := hp.perm_of_length_le (by simp [h.length])
  rw [this.mem_iff, List.mem_range]

theorem Covers.visited_lt {c : Cfg} (h : Covers c) {x q a : Nat} (hx : x ≤ c.expander.outerCount)
    (hv : Visited c.expander x q a) (hq : q = 0 ∨ x < c.expander.outerCount ∧ q ≤ c.expander.innerCount) : a < fbSize c := by
  obtain ⟨x', q', b, hh, rfl⟩ := hv
  exact h.below _ (mem_traversal.2 ⟨x', q', b, by omega, rfl⟩)

/-- One column (R181). -/
theorem expandColumn_streams (pack : Expander → Byte → Byte → Byte) (nshift sh : Nat) {s t : State} {x : Nat}
    (hcov : Covers s.cfg) (hx : x < s.cfg.expander.outerCount) (hc : t.cfg = s.cfg)
    (h : Painting s (Visited s.cfg.expander x 0) t) (hd : t.disp = s.disp) :
    Streams (transfers s.disp.dc ((List.range s.cfg.expander.innerCount).flatMap fun q =>
        pairBytes pack nshift sh s (pairIndex s.cfg.expander x q))) (s.cfg.expander.innerCount * nshift)
      (fun u => Painting s (Visited s.cfg.expander (x + 1) 0) u ∧ u.disp = s.disp)
      (fun u => FbPartly s u ∧ u.disp = s.disp) t (expandColumn pack nshift sh x t) := by
  unfold expandColumn
  have hl := loop_streams (n := s.cfg.expander.innerCount) (c := nshift)
    (L := fun q => transfers s.disp.dc (pairBytes pack nshift sh s (pairIndex s.cfg.expander x q)))
    (body := expandPair pack nshift sh x)
    (P := fun q u => u.cfg = s.cfg ∧ Painting s (Visited s.cfg.expander x q) u ∧ u.disp = s.disp)
    (Q := fun u => FbPartly s u ∧ u.disp = s.disp) (s := t.setEng { t.eng with outer := BitVec.ofNat 16 x })
    ⟨hc, ⟨h.clr, h.fb.fb rfl rfl⟩, hd⟩ fun q u _ _ hq _ hu => by
      have hinj : ∀ b, ¬ Visited s.cfg.expander x q (sideIndex s.cfg.expander x q b) := by
        rintro b ⟨x', q', b', hh, he⟩
        have := sideIndex_inj hcov.nodup (by omega) (by omega) (by omega) (by omega) he
        omega
      have hp := expandPair_streams pack nshift sh hu.1 hu.2.1 hu.2.2 (x := x) (q := q)
        (i := sideIndex s.cfg.expander x q false) (j := sideIndex s.cfg.expander x q true) (by simp [sideIndex])
        (by simp [sideIndex]) (hinj _) (hinj _) (fun he => by
          have := sideIndex_inj hcov.nodup hx hx hq hq he; simp at this) fun a ha =>
            hcov.visited_lt (x := x) (q := q + 1) (by omega) ((visited_succ _ x q a).2 ha) (by omega)
      rw [show sideIndex s.cfg.expander x q false = pairIndex s.cfg.expander x q by simp [sideIndex]] at hp
      refine Streams.mono hp (fun v hv hvp => ⟨hv.part.cfg.trans hu.1, ⟨hvp.1.clr, hvp.1.fb.congr fun a => ?_⟩, hvp.2⟩)
        fun v hv => hv
      rw [visited_succ]; simp [sideIndex]
  have h2 := Streams.map (l' := []) (P' := fun u => Painting s (Visited s.cfg.expander (x + 1) 0) u ∧ u.disp = s.disp)
    (Streams.first (Streamed.setEng t { t.eng with outer := BitVec.ofNat 16 x }) hl)
    (f := fun u => u.setEng { u.eng with idx := BitVec.ofNat 16 (columnStart u.cfg.expander (x + 1)) }) fun u _ hu =>
      ⟨.setEng u _, ⟨hu.2.1.clr, (hu.2.1.fb.fb rfl rfl).congr fun a => visited_column _ x a⟩, hu.2.2⟩
  rw [hc]
  have he : transfers s.disp.dc ((List.range s.cfg.expander.innerCount).flatMap fun q =>
        pairBytes pack nshift sh s (pairIndex s.cfg.expander x q)) = (List.range s.cfg.expander.innerCount).flatMap
        fun q => transfers s.disp.dc (pairBytes pack nshift sh s (pairIndex s.cfg.expander x q)) := by
    simp [transfers, List.map_flatMap]
  rw [he]
  simpa using h2

/-- The whole expander PAINT (R181). -/
theorem paintExpand_streams (pack : Expander → Byte → Byte → Byte) (nshift sh : Nat) {s : State} (hcov : Covers s.cfg) :
    Streams (transfers s.disp.dc (expanderBytes pack nshift sh s))
      (s.cfg.expander.outerCount * s.cfg.expander.innerCount * nshift)
      (fun t => Painting s (· < fbSize s.cfg) t ∧ t.disp = s.disp) (fun t => FbPartly s t ∧ t.disp = s.disp) s
      (paintExpand pack nshift sh s) := by
  unfold paintExpand
  have hl := loop_streams (n := s.cfg.expander.outerCount) (c := s.cfg.expander.innerCount * nshift)
    (L := fun x => transfers s.disp.dc ((List.range s.cfg.expander.innerCount).flatMap fun q =>
      pairBytes pack nshift sh s (pairIndex s.cfg.expander x q))) (body := expandColumn pack nshift sh)
    (P := fun x u => u.cfg = s.cfg ∧ Painting s (Visited s.cfg.expander x 0) u ∧ u.disp = s.disp)
    (Q := fun u => FbPartly s u ∧ u.disp = s.disp) (s := s.setEng { s.eng with idx := 0#16 })
    ⟨rfl, ⟨rfl, ((FbConsumed.start s).fb rfl rfl).congr fun a => by simp [visited_zero]⟩, rfl⟩ fun x u _ _ hx _ hu => by
      refine (expandColumn_streams pack nshift sh hcov hx hu.1 hu.2.1 hu.2.2).mono
        (fun v hv hvp => ⟨hv.part.cfg.trans hu.1, hvp⟩) fun v hv => hv
  have h2 := Streams.first (Streamed.setEng s { s.eng with idx := 0#16 }) hl
  have he : transfers s.disp.dc (expanderBytes pack nshift sh s) = (List.range s.cfg.expander.outerCount).flatMap fun x =>
      transfers s.disp.dc ((List.range s.cfg.expander.innerCount).flatMap fun q =>
        pairBytes pack nshift sh s (pairIndex s.cfg.expander x q)) := by
    simp [transfers, expanderBytes, List.map_flatMap]
  rw [he, Nat.mul_assoc]
  refine Streams.mono h2 (fun t _ ht => ⟨⟨ht.2.1.clr, ht.2.1.fb.congr fun a => ?_⟩, ht.2.2⟩) fun t ht => ht
  rw [← mem_traversal, hcov.mem]

/-! ### PAINT -/

/-- The display driver after a completed PAINT (R140). -/
def paintDisp (s : State) : Display := if s.cfg.family = .paged1 then pagedDisp s else s.disp

/-- PAINT in any family (R170): every way it can end, from a state in which clearAfter is latched. -/
theorem paint_streams {s : State} (hl : legal s.cfg = true) (f : Bool) :
    Streams (paintEvents s) (paintLength s.cfg)
      (fun t => FbAfterPaint f s t ∧ t.disp = paintDisp s)
      (fun t => ∀ a, t.fbRead a = s.fbRead a ∨ (f = true ∧ a < fbSize s.cfg ∧ t.fbRead a = 0#8)) s (paintBody f s) := by
  have key : ∀ l n r, Streams l n (fun t => Painting (s.setEng { s.eng with clr := f }) (· < fbSize s.cfg) t
      ∧ t.disp = paintDisp s) (FbPartly (s.setEng { s.eng with clr := f })) (s.setEng { s.eng with clr := f }) r →
      Streams l n (fun t => FbAfterPaint f s t ∧ t.disp = paintDisp s)
        (fun t => ∀ a, t.fbRead a = s.fbRead a ∨ (f = true ∧ a < fbSize s.cfg ∧ t.fbRead a = 0#8)) s r := by
    intro l n r h
    refine Streams.mono (Streams.first (.setEng s _) h) (fun t _ ht => ⟨fun a => ?_, ht.2⟩) fun t ht => ht
    by_cases ha : a < fbSize s.cfg
    · rw [(ht.1.fb a).1 ha]; cases f <;> simp [ha]; rfl
    · rw [(ht.1.fb a).2 ha]; simp [ha]; rfl
  unfold paintBody paintEvents paintLength
  simp only [State.setEng_cfg]
  cases hf : s.cfg.family <;> apply key
  · have := paintPaged_streams (s := s.setEng { s.eng with clr := f }) hl
    exact this.mono (fun t _ ht => ⟨ht.1, by rw [ht.2, paintDisp, if_pos hf]; rfl⟩) fun t ht => ht
  · have := paintLinear_streams (s.setEng { s.eng with clr := f })
    exact this.mono (fun t _ ht => ⟨ht.1, by rw [ht.2, paintDisp, if_neg (by simp [hf])]; rfl⟩) fun t ht => ht.1
  · have := paintExpand_streams pack4 8 1 (s := s.setEng { s.eng with clr := f }) (covers_of_legal hl (.inl hf))
    exact this.mono (fun t _ ht => ⟨ht.1, by rw [ht.2, paintDisp, if_neg (by simp [hf])]; rfl⟩) fun t ht => ht.1
  · have := paintExpand_streams pack2 4 2 (s := s.setEng { s.eng with clr := f }) (covers_of_legal hl (.inr hf))
    exact this.mono (fun t _ ht => ⟨ht.1, by rw [ht.2, paintDisp, if_neg (by simp [hf])]; rfl⟩) fun t ht => ht.1

end Sys2Proof.Machine
end

