-- ==== Sys2Proof/Laws/Platform.lean ====
section
/-! SUPPORT. The laws of the channels, of the two draws outside the bus, of the safe-mode halt and of the hardware reset. -/

namespace Sys2Proof.Machine

/-! ### Channels (R37) -/

@[simp] theorem Platform.chan_setChan (p : Platform) (ch d : Channel) (x : RgbChan) :
    (p.setChan ch x).chan d = if d = ch then x else p.chan d := by
  cases ch <;> cases d <;> rfl

theorem Platform.setChan_rest (p : Platform) (ch : Channel) (x : RgbChan) :
    (p.setChan ch x).pinsOk = p.pinsOk ∧ (p.setChan ch x).pwrSaved = p.pwrSaved ∧ (p.setChan ch x).auxLine = p.auxLine
      ∧ (p.setChan ch x).sleeping = p.sleeping := by
  cases ch <;> exact ⟨rfl, rfl, rfl, rfl⟩

@[simp] theorem State.chan_setChan (s : State) (ch d : Channel) (x : RgbChan) :
    (s.setChan ch x).chan d = if d = ch then x else s.chan d := Platform.chan_setChan s.plat ch d x

/-- Setting a channel touches that channel only. -/
theorem State.setChan_eq (s : State) (ch : Channel) (x : RgbChan) : s.setChan ch x = s.setPlat (s.plat.setChan ch x) := rfl

@[simp] theorem State.setChan_cfg (s : State) (ch : Channel) (x : RgbChan) : (s.setChan ch x).cfg = s.cfg := rfl
@[simp] theorem State.setChan_bus (s : State) (ch : Channel) (x : RgbChan) : (s.setChan ch x).bus = s.bus := rfl
@[simp] theorem State.setChan_disp (s : State) (ch : Channel) (x : RgbChan) : (s.setChan ch x).disp = s.disp := rfl
@[simp] theorem State.setChan_eng (s : State) (ch : Channel) (x : RgbChan) : (s.setChan ch x).eng = s.eng := rfl
@[simp] theorem State.setChan_port (s : State) (ch : Channel) (x : RgbChan) : (s.setChan ch x).port = s.port := rfl
@[simp] theorem State.setChan_tr (s : State) (ch : Channel) (x : RgbChan) : (s.setChan ch x).tr = s.tr := rfl
@[simp] theorem State.setChan_env (s : State) (ch : Channel) (x : RgbChan) : (s.setChan ch x).env = s.env := rfl

/-- The channel SETCH leaves, from the channel it finds (R214). -/
def setchChan (c : Cfg) (ch : Channel) (v : Byte) (x : RgbChan) : RgbChan :=
  if perChannel c.pwmCapable ch then
    if v = 0#8 then { x with pwmEn := false, line := darkLevel c ch }
    else if v = 255#8 then { x with pwmEn := false, line := litLevel c ch }
    else { x with pwmCmp := pwmCompare c ch v, pwmEn := true }
  else { x with line := binaryLevel c ch v }

/-- The events SETCH appends (R214). -/
def setchEvents (c : Cfg) (ch : Channel) (v : Byte) (x : RgbChan) : List Event :=
  if perChannel c.pwmCapable ch then
    if v = 0#8 then [.pwm ch false x.pwmCmp, .led (.rgb ch) (darkLevel c ch)]
    else if v = 255#8 then [.pwm ch false x.pwmCmp, .led (.rgb ch) (litLevel c ch)]
    else [.pwm ch true (pwmCompare c ch v)]
  else [.led (.rgb ch) (binaryLevel c ch v)]

/-- SETCH always reaches its end; it changes the named channel and the trace and nothing else (R214). -/
theorem setchBody_spec (ch : Channel) (v : Byte) (s : State) : ∃ t, setchBody ch v s = .reached t
    ∧ t = { s.setChan ch (setchChan s.cfg ch v (s.chan ch)) with tr := s.tr ++ setchEvents s.cfg ch v (s.chan ch) } := by
  unfold setchBody setchChan setchEvents
  split
  · split
    · exact ⟨_, rfl, by simp [State.driveDigital, State.emit]⟩
    · split
      · exact ⟨_, rfl, by simp [State.driveDigital, State.emit]⟩
      · exact ⟨_, rfl, rfl⟩
  · exact ⟨_, rfl, rfl⟩

/-- The platform with the waveform output of every channel off (R218). -/
def releasedPlat (p : Platform) : Platform :=
  { p with red := { p.red with pwmEn := false }, green := { p.green with pwmEn := false },
           blue := { p.blue with pwmEn := false } }

theorem releasedPlat_chan (p : Platform) (ch : Channel) :
    (releasedPlat p).chan ch = { p.chan ch with pwmEn := false } := by cases ch <;> rfl

/-- RELCH always reaches its end; it changes the channels' waveform enables and the trace and nothing else (R218). -/
theorem relchBody_spec (s : State) : ∃ t, relchBody s = .reached t ∧ t.plat = releasedPlat s.plat
    ∧ t.tr = s.tr ++ [.pwm .r false (s.chan .r).pwmCmp, .pwm .g false (s.chan .g).pwmCmp, .pwm .b false (s.chan .b).pwmCmp]
    ∧ t.cfg = s.cfg ∧ t.bus = s.bus ∧ t.disp = s.disp ∧ t.eng = s.eng ∧ t.port = s.port ∧ t.fb = s.fb
    ∧ t.marker = s.marker ∧ t.env = s.env ∧ t.host = s.host ∧ t.lives = s.lives ∧ t.powerOns = s.powerOns := by
  refine ⟨_, rfl, rfl, ?_⟩
  simp [State.releaseChan, State.setChan]
  exact ⟨rfl, rfl⟩

/-! ### Lines (R36) -/

theorem State.lineLevel_wired {s : State} (h : s.plat.pinsOk = true) (p : Pin) : s.lineLevel p = s.wiredLevel p := by
  simp [State.lineLevel, h]

theorem State.lineLevel_unwired {s : State} (h : s.plat.pinsOk = false) (p : Pin) : s.lineLevel p = s.openLevel p := by
  simp [State.lineLevel, h]

/-- A configured LED pin that no waveform drives shows its digital level (R216). -/
theorem State.lineLevel_led {s : State} (h : s.plat.pinsOk = true) {ch : Channel} (hw : (s.chan ch).pwmEn = false) :
    s.lineLevel (.led (.rgb ch)) = (s.chan ch).line := by
  simp [State.lineLevel_wired h, State.wiredLevel, hw]

/-! ### The draws (R200, R226) -/

/-- One sample of the button lines: its value, and that only the environment moves. -/
theorem drawButtons_spec (s : State) :
    s.drawButtons.1 = s.buttonsNow ∧ ∃ e, s.drawButtons.2 = s.setEnv e ∧ e.shifterLeft = s.env.shifterLeft := by
  unfold State.drawButtons State.buttonsNow
  split
  · next v rest h => exact ⟨by first | rfl | rw [h], _, rfl, rfl⟩
  · next h => exact ⟨by first | rfl | rw [h], _, rfl, rfl⟩

/-- One wake decision: its value, and that only the environment moves. -/
theorem drawWake_spec (s : State) : s.drawWake.1 = s.wakeNow ∧ ∃ e, s.drawWake.2 = s.setEnv e := by
  unfold State.drawWake State.wakeNow
  split
  · next v rest h => exact ⟨by first | rfl | rw [h], _, rfl⟩
  · next h => exact ⟨by first | rfl | rw [h], _, rfl⟩

/-- One tear decision: its value, and that only the environment moves. -/
theorem drawTear_spec (s : State) : s.drawTear.1 = s.tearNow ∧ ∃ e, s.drawTear.2 = s.setEnv e := by
  unfold State.drawTear State.tearNow
  split
  · next v rest h => exact ⟨by first | rfl | rw [h], _, rfl⟩
  · next h => exact ⟨by first | rfl | rw [h], _, rfl⟩

/-- MRESTART's pseudocode (R66, R228): the watchdog triggered after the whole marker, or a reset with one byte of it. -/
theorem mrestartBody_spec (s : State) : ∃ e,
    (s.tearNow = .whole → mrestartBody s = .stuck ((s.setEnv e).writeMarker s.cfg.markerValue).triggerWatchdog)
    ∧ (s.tearNow = .lowOnly → mrestartBody s = .stuck ((s.setEnv e).tornMarker 0 (s.cfg.markerValue.extractLsb' 0 8)))
    ∧ (s.tearNow = .highOnly → mrestartBody s = .stuck ((s.setEnv e).tornMarker 1 (s.cfg.markerValue.extractLsb' 8 8))) := by
  obtain ⟨h, e, he⟩ := drawTear_spec s
  refine ⟨e, ?_, ?_, ?_⟩ <;> intro ht <;> simp only [mrestartBody, h, ht, he]

/-- What IDLE leaves alone (R226). -/
structure Rested (s t : State) : Prop where
  cfg      : t.cfg = s.cfg
  bus      : t.bus = s.bus
  disp     : t.disp = s.disp
  eng      : t.eng = s.eng
  port     : t.port = s.port
  fb       : t.fb = s.fb
  marker   : t.marker = s.marker
  host     : t.host = s.host
  lives    : t.lives = s.lives
  powerOns : t.powerOns = s.powerOns

/-- IDLE's pseudocode (R226, R227): it reaches its end if the wake interrupt comes, and is asleep for good if not. -/
theorem idleBody_spec (s : State) : ∃ t, Rested s t
    ∧ (s.wakeNow = true → idleBody s = .reached t ∧ t.tr = s.tr ++ [.sleep, .wake] ∧ t.plat = { s.plat with sleeping := false })
    ∧ (s.wakeNow = false → idleBody s = .stuck t ∧ t.tr = s.tr ++ [.sleep] ∧ t.plat = { s.plat with sleeping := true }) := by
  obtain ⟨hw, e, he⟩ := drawWake_spec ((s.setSleeping true).emit .sleep)
  rw [show ((s.setSleeping true).emit .sleep).wakeNow = s.wakeNow from rfl] at hw
  unfold idleBody
  simp only [hw, he]
  cases s.wakeNow
  · refine ⟨(((s.setSleeping true).emit .sleep).setEnv e), ?_, by simp, fun _ => ⟨by simp, ?_, ?_⟩⟩
    · constructor <;> simp [State.setSleeping]
    · simp [State.setSleeping]
    · simp [State.setSleeping]
  · refine ⟨((((s.setSleeping true).emit .sleep).setEnv e).setSleeping false).emit .wake, ?_, fun _ => ⟨by simp, ?_, ?_⟩,
      by simp⟩
    · constructor <;> simp [State.setSleeping]
    · simp [State.setSleeping]
    · simp [State.setSleeping]

/-! ### The safe-mode halt (R202, R245) -/

/-- Everything but the platform, the trace, LIFE and the environment is as before. -/
theorem enterSafeHalt_spec (s : State) :
    ∃ p : Platform, s.enterSafeHalt = ((s.setPlat p).emit (.led s.cfg.safeIndicator
        (indicatorLit s.cfg s.cfg.safeIndicator))).setPort { s.port with life := .safeHalt }
      ∧ p.pinsOk = s.plat.pinsOk ∧ p.pwrSaved = s.plat.pwrSaved ∧ p.sleeping = s.plat.sleeping
      ∧ (∀ ch, s.cfg.safeIndicator = .rgb ch → p.chan ch = { s.chan ch with line := litLevel s.cfg ch })
      ∧ (∀ ch, s.cfg.safeIndicator ≠ .rgb ch → p.chan ch = s.chan ch)
      ∧ p.auxLine = (if s.cfg.safeIndicator = .aux then indicatorLit s.cfg .aux else s.plat.auxLine) := by
  cases h : s.cfg.safeIndicator with
  | aux =>
    refine ⟨{ s.plat with auxLine := indicatorLit s.cfg .aux }, ?_, rfl, rfl, rfl, by simp, fun ch _ => by cases ch <;> rfl,
      by simp⟩
    simp only [State.enterSafeHalt, h, State.setLedLine]
    rfl
  | rgb ch =>
    refine ⟨s.plat.setChan ch { s.chan ch with line := litLevel s.cfg ch }, ?_, ?_, ?_, ?_, ?_, ?_, ?_⟩
    · simp only [State.enterSafeHalt, h, State.setLedLine]
      rfl
    · exact (Platform.setChan_rest ..).1
    · exact (Platform.setChan_rest ..).2.1
    · exact (Platform.setChan_rest ..).2.2.2
    · intro d hd; cases hd; simp
    · intro d hd
      rw [Platform.chan_setChan, if_neg (fun he => hd (by rw [he]))]; rfl
    · simpa using (Platform.setChan_rest ..).2.2.1

/-! ### The hardware reset (R270) -/

/-- Every reset leaves the values of R44. -/
theorem hardReset_atReset (s : State) (k : ResetKind) : AtReset (s.hardReset k) where
  bus := ⟨rfl, rfl, rfl, rfl⟩
  driver := rfl
  port := ⟨rfl, rfl⟩
  ghosts := ⟨rfl, rfl, rfl⟩
  pwm := fun ch => by cases ch <;> rfl
  trace := rfl

/-- The marker survives every reset but a power-on (R39). -/
theorem hardReset_mkRead (s : State) {k : ResetKind} (h : k ≠ .powerOn) (a : Nat) : (s.hardReset k).mkRead a = s.mkRead a := by
  cases k
  · exact absurd rfl h
  · rfl
  · rfl

end Sys2Proof.Machine
end

