-- ==== Sys2Proof/Laws/Exec.lean ====
section
/-! SUPPORT. What any operation can do, for the rules about the whole machine: the pseudocode of each operation as one
function, and what each kind of operation leaves alone, in any build, legal or not. -/

namespace Sys2Proof.Machine

/-- The pseudocode of each operation. -/
def opBody : Instr → State → Run
  | .cfgbus => cfgbusBody
  | .xfer b => fun s => (s.transfer b).map fun t => t.setResult t.bus.sdr
  | .cmdmode => fun s => .reached (s.enterMode .cmd)
  | .datamode => fun s => .reached (s.enterMode .data)
  | .sendcmd c => sendCommand c
  | .bootdisp => bootDisplay
  | .shutdown => shutdownBody
  | .invert f => fun s => sendCommand (opcSelect s.cfg.opcInvert f) s
  | .fliph f => fun s => sendCommand (opcSelect s.cfg.opcFlipH f) s
  | .flipv f => fun s => sendCommand (opcSelect s.cfg.opcFlipV f) s
  | .allon f => fun s => sendCommand (opcSelect s.cfg.opcAllOn f) s
  | .contrast f => fun s => sendCommand (opcSelect s.cfg.opcContrast f) s
  | .paint f => paintBody f
  | .rdbtn => rdbtnBody
  | .safemode => safemodeBody
  | .cfgpins => cfgpinsBody
  | .cfgpwr => cfgpwrBody
  | .setch ch v => fun s => match channelOfBits ch with
    | some c => setchBody c v s
    | none => .reached s
  | .relch => relchBody
  | .boot => bootBody
  | .idle => idleBody
  | .mrestart => mrestartBody
  | .getw => fun s => .reached (s.setResult (BitVec.ofNat 8 s.cfg.width))
  | .geth => fun s => .reached (s.setResult (BitVec.ofNat 8 s.cfg.height))

/-- Every operation but the ill-formed SETCH runs its pseudocode. -/
theorem exec_eq_runOp {i : Instr} (h : WellFormed i = true) (s : State) : exec i s = runOp i (opBody i) s := by
  cases i with
  | setch ch v =>
    rcases (by decide : ∀ ch : BitVec 2, ch = 0#2 ∨ ch = 1#2 ∨ ch = 2#2 ∨ ch = 3#2) ch with rfl | rfl | rfl | rfl <;>
      first | rfl | exact absurd h Bool.false_ne_true
  | _ => rfl

/-- An operation that answers a next state is well-formed. -/
theorem wellFormed_of_next {i : Instr} {s t : State} (h : exec i s = .next t) : WellFormed i = true := by
  cases i with
  | setch ch v =>
    rcases (by decide : ∀ ch : BitVec 2, ch = 0#2 ∨ ch = 1#2 ∨ ch = 2#2 ∨ ch = 3#2) ch with rfl | rfl | rfl | rfl <;>
      first | rfl | cases h
  | _ => rfl

/-- The next state is that of the pseudocode, completed or stuck. -/
theorem next_of_exec {i : Instr} {s t : State} (h : exec i s = .next t) : t = (opBody i (s.accept i)).settle := by
  rw [exec_eq_runOp (wellFormed_of_next h), runOp_next] at h
  exact (Host.Outcome.next.inj h).symm

/-! ### PAINT in any build -/

/-- What PAINT may have done to the framebuffer, in any build. -/
def FbOrZero (s t : State) : Prop := ∀ a, t.fbRead a = s.fbRead a ∨ (s.eng.clr = true ∧ t.fbRead a = 0#8)

/-- What any PAINT, complete or not, leaves: clearAfter as latched, the framebuffer as before or zeroed. -/
structure Loose (s t : State) : Prop where
  clr : t.eng.clr = s.eng.clr
  fb  : FbOrZero s t

theorem Loose.refl (s : State) : Loose s s := ⟨rfl, fun _ => .inl rfl⟩

theorem Loose.step {s t u : State} (h : Loose s t) (hc : u.eng.clr = t.eng.clr) (hf : u.fb = t.fb) (hl : u.lives = t.lives) :
    Loose s u := ⟨hc.trans h.clr, fun a => by rw [State.fbRead_congr hf hl]; exact h.fb a⟩

theorem Loose.clearIf {s t : State} (h : Loose s t) (i : Nat) : Loose s (t.clearIf i) := by
  refine ⟨by simpa using h.clr, fun a => ?_⟩
  rw [clearIf_fbRead]
  split
  · next hh => exact .inr ⟨h.clr ▸ hh.1, rfl⟩
  · exact h.fb a

theorem Loose.setEng {s t : State} (h : Loose s t) {e : Engine} (he : e.clr = t.eng.clr) : Loose s (t.setEng e) :=
  h.step he rfl rfl

theorem transfer_flows {s t : State} (h : Loose s t) (b : Byte) : Flows (Loose s) t (t.transfer b) :=
  (transfer_streams t b).flows (fun _ hu => h.step (by rw [hu.eng]) hu.fb hu.lives)
    fun _ hu => h.step (by rw [hu.1.eng]) hu.1.fb hu.1.lives

theorem paintByte_flows {s t : State} (h : Loose s t) (i : Nat) : Flows (Loose s) t (paintByte i t) :=
  .first ((Streamed.setEng t _).trans (.clearIf _ i)) (transfer_flows ((h.setEng (by rfl)).clearIf i) _)

theorem expandShift_flows {s t : State} (h : Loose s t) (pack : Expander → Byte → Byte → Byte) (sh k : Nat) :
    Flows (Loose s) t (expandShift pack sh k t) := by
  unfold expandShift
  exact .first (.setEng t _) ((transfer_flows (h.setEng (by rfl)) _).map (fun _ hu => hu) fun u hu =>
    ⟨⟨_, .setEng u _⟩, hu.setEng (by rfl)⟩)

theorem expandPair_flows {s t : State} (h : Loose s t) (pack : Expander → Byte → Byte → Byte) (n sh x q : Nat) :
    Flows (Loose s) t (expandPair pack n sh x q t) := by
  unfold expandPair
  exact .first ((Streamed.setEng t _).trans ((Streamed.clearIf _ _).trans (.clearIf _ _)))
    ((loopFrom_flows (((h.setEng (by rfl)).clearIf _).clearIf _) fun k u hu => expandShift_flows hu pack sh k).map
      (fun _ hu => hu) fun u hu => ⟨⟨_, .setEng u _⟩, hu.setEng (by rfl)⟩)

theorem expandColumn_flows {s t : State} (h : Loose s t) (pack : Expander → Byte → Byte → Byte) (n sh x : Nat) :
    Flows (Loose s) t (expandColumn pack n sh x t) := by
  unfold expandColumn
  exact .first (.setEng t _) ((loopFrom_flows (h.setEng (by rfl)) fun q u hu => expandPair_flows hu pack n sh x q).map
    (fun _ hu => hu) fun u hu => ⟨⟨_, .setEng u _⟩, hu.setEng (by rfl)⟩)

theorem paintPage_flows {s t : State} (h : Loose s t) (p : Nat) : Flows (Loose s) t (paintPage p t) := by
  unfold paintPage
  refine .first ((Streamed.setEng t _).trans (.enterMode _ .cmd)) ((transfer_flows ((h.setEng (by rfl)).step (by rfl) (by rfl) (by rfl)) _).bind
    (fun _ hu => hu) fun u _ hu => (transfer_flows hu _).bind (fun _ hv => hv) fun v _ hv =>
      .first (.enterMode v .data) (loopFrom_flows (hv.step (by rfl) (by rfl) (by rfl)) fun c w hw => ?_))
  exact .first (.setEng w _) (paintByte_flows (hw.setEng (by rfl)) _)

/-- PAINT in any build: the framebuffer is as before or, with clearAfter, zeroed; nothing else outside the bus, the engine and
the display driver moves. -/
theorem paintBody_flows (f : Bool) (s : State) :
    Flows (fun t => ∀ a, t.fbRead a = s.fbRead a ∨ (f = true ∧ t.fbRead a = 0#8)) s (paintBody f s) := by
  have key : ∀ r, Flows (Loose (s.setEng { s.eng with clr := f })) (s.setEng { s.eng with clr := f }) r →
      Flows (fun t => ∀ a, t.fbRead a = s.fbRead a ∨ (f = true ∧ t.fbRead a = 0#8)) s r := by
    rintro r ⟨l, n, h⟩
    exact (Streams.first (.setEng s _) h).flows (fun _ ht => ht.fb) fun _ ht => ht.fb
  unfold paintBody
  simp only [State.setEng_cfg]
  cases s.cfg.family <;> apply key
  · exact loopFrom_flows (.refl _) fun p t ht => paintPage_flows ht p
  · exact loopFrom_flows (.refl _) fun i t ht => paintByte_flows ht i
  · exact .first (.setEng _ _) (loopFrom_flows ((Loose.refl _).setEng rfl) fun x t ht => expandColumn_flows ht pack4 8 1 x)
  · exact .first (.setEng _ _) (loopFrom_flows ((Loose.refl _).setEng rfl) fun x t ht => expandColumn_flows ht pack2 4 2 x)

/-! ### The operations that use the bus, and only the bus, the lines and the engine -/

/-- A bus operation other than XFER and BOOT: it flows; only PAINT touches the framebuffer. -/
theorem opBody_flows {i : Instr} (hu : usesBus i = true) (hx : ∀ b, i ≠ .xfer b) (hb : i ≠ .boot) (s : State) :
    Flows (fun t => ∀ a, t.fbRead a = s.fbRead a ∨ (i = .paint true ∧ t.fbRead a = 0#8)) s (opBody i s) := by
  have quiet : ∀ {l n P Q r}, Streams l n P Q s r → (∀ t, P t → DisplayOnly s t) → (∀ t, Q t → DisplayOnly s t) →
      Flows (fun t => ∀ a, t.fbRead a = s.fbRead a ∨ (i = .paint true ∧ t.fbRead a = 0#8)) s r := by
    intro l n P Q r h hP hQ
    refine ⟨l, n, Run.Ends.mono h (fun t ht => ⟨ht.1, fun a => .inl ?_⟩) fun t ht => ⟨ht.1, fun a => .inl ?_⟩⟩
    · exact State.fbRead_congr (hP t ht.2).fb ht.1.part.lives a
    · exact State.fbRead_congr (hQ t ht.2).fb ht.1.part.lives a
  have single : ∀ c, Flows (fun t => ∀ a, t.fbRead a = s.fbRead a ∨ (i = .paint true ∧ t.fbRead a = 0#8)) s
      (sendCommand c s) := fun c => quiet (sendCommand_streams c s) (fun _ h => h.2) fun _ h => h.2.1
  cases i with
  | xfer b => exact absurd rfl (hx b)
  | boot => exact absurd rfl hb
  | bootdisp => exact quiet (bootDisplay_streams s) (fun _ h => h.2) fun _ h => h.2
  | shutdown => exact quiet (shutdownBody_streams s) (fun _ h => h.2) fun _ h => h.2
  | paint f =>
    obtain ⟨l, n, h⟩ := paintBody_flows f s
    refine ⟨l, n, h.mono (fun t _ ht a => ?_) fun t ht a => ?_⟩ <;>
      rcases ht a with h' | ⟨rfl, h'⟩ <;> first | exact .inl h' | exact .inr ⟨rfl, h'⟩
  | sendcmd c => exact single c
  | invert f => exact single _
  | fliph f => exact single _
  | flipv f => exact single _
  | allon f => exact single _
  | contrast f => exact single _
  | _ => simp [usesBus] at hu

end Sys2Proof.Machine
end

