-- ==== Sys2Proof/Laws/PerInstr.lean ====
section
/-! SUPPORT. What holds of every operation as syntax, one lemma for each constructor: its request word agrees with its row of
spec/opcode_table.json on the row's fixed bits. -/

namespace Sys2Proof

/-- The fixed bits of an operation's row: "mask" of spec/opcode_table.json. -/
def rowMask : Instr → Word
  | .xfer _ | .sendcmd _ => 0xFF00FFFF#32
  | .invert _ | .fliph _ | .flipv _ | .allon _ | .contrast _ | .paint _ => 0xFFFEFFFF#32
  | .setch _ _ => 0xFFFC00FF#32
  | .cfgbus | .cmdmode | .datamode | .bootdisp | .shutdown | .rdbtn | .safemode | .cfgpins => 0xFFFFFFFF#32
  | .cfgpwr | .relch | .boot | .idle | .mrestart | .getw | .geth => 0xFFFFFFFF#32

/-- Their values: "match" of spec/opcode_table.json. -/
def rowMatch : Instr → Word
  | .cfgbus => 0x01000000#32
  | .xfer _ => 0x02000000#32
  | .cmdmode => 0x10000000#32
  | .datamode => 0x11000000#32
  | .sendcmd _ => 0x12000000#32
  | .bootdisp => 0x13000000#32
  | .shutdown => 0x14000000#32
  | .invert _ => 0x16000000#32
  | .fliph _ => 0x17000000#32
  | .flipv _ => 0x18000000#32
  | .allon _ => 0x19000000#32
  | .contrast _ => 0x1A000000#32
  | .paint _ => 0x20000000#32
  | .rdbtn => 0x30000000#32
  | .safemode => 0x31000000#32
  | .cfgpins => 0x40000000#32
  | .cfgpwr => 0x41000000#32
  | .setch _ _ => 0x42000000#32
  | .relch => 0x43000000#32
  | .boot => 0x50000000#32
  | .idle => 0x51000000#32
  | .mrestart => 0x52000000#32
  | .getw => 0x53000000#32
  | .geth => 0x54000000#32

/-- The bits of a request word: C, B, A, OP from bit 0 up (R90). -/
theorem requestWord_getLsbD (op a b : Byte) (k : Nat) :
    (requestWord op a b).getLsbD k
      = if k < 8 then false else if k < 16 then b.getLsbD (k - 8) else if k < 24 then a.getLsbD (k - 16) else op.getLsbD (k - 24) := by
  unfold requestWord
  rw [BitVec.getLsbD_append, BitVec.getLsbD_append, BitVec.getLsbD_append]
  split_ifs <;> first | omega | simp [Nat.sub_sub]

/-- The OP field of a request word. -/
theorem opField_requestWord (op a b : Byte) : opField (requestWord op a b) = op := by
  refine BitVec.eq_of_getLsbD_eq fun k hk => ?_
  unfold opField
  rw [BitVec.getLsbD_extractLsb', requestWord_getLsbD, if_neg (by omega), if_neg (by omega), if_neg (by omega),
    Nat.add_sub_cancel_left]
  simp [hk]

end Sys2Proof

namespace Sys2Proof.Laws.EncodingInRow

/-- The request word of `i` has its row's value in every fixed bit (spec/30_encoding.md R91, R92). -/
def Statement (i : Instr) : Prop := encode i &&& rowMask i = rowMatch i

theorem byteOperand (op b : Byte) : requestWord op b 0#8 &&& 0xFF00FFFF#32 = requestWord op 0#8 0#8 := by
  refine BitVec.eq_of_getLsbD_eq fun k hk => ?_
  rw [BitVec.getLsbD_and, requestWord_getLsbD, requestWord_getLsbD]
  interval_cases k <;> simp

theorem channelOperand (op v : Byte) (ch : BitVec 2) :
    requestWord op (0#6 ++ ch) v &&& 0xFFFC00FF#32 = requestWord op 0#8 0#8 := by
  refine BitVec.eq_of_getLsbD_eq fun k hk => ?_
  rw [BitVec.getLsbD_and, requestWord_getLsbD, requestWord_getLsbD, BitVec.getLsbD_append]
  interval_cases k <;> simp

theorem cfgbus : Statement .cfgbus := rfl
theorem xfer (b : Byte) : Statement (.xfer b) := byteOperand 0x02#8 b
theorem cmdmode : Statement .cmdmode := rfl
theorem datamode : Statement .datamode := rfl
theorem sendcmd (b : Byte) : Statement (.sendcmd b) := byteOperand 0x12#8 b
theorem bootdisp : Statement .bootdisp := rfl
theorem shutdown : Statement .shutdown := rfl
theorem invert (f : Bool) : Statement (.invert f) := by cases f <;> rfl
theorem fliph (f : Bool) : Statement (.fliph f) := by cases f <;> rfl
theorem flipv (f : Bool) : Statement (.flipv f) := by cases f <;> rfl
theorem allon (f : Bool) : Statement (.allon f) := by cases f <;> rfl
theorem contrast (f : Bool) : Statement (.contrast f) := by cases f <;> rfl
theorem paint (f : Bool) : Statement (.paint f) := by cases f <;> rfl
theorem rdbtn : Statement .rdbtn := rfl
theorem safemode : Statement .safemode := rfl
theorem cfgpins : Statement .cfgpins := rfl
theorem cfgpwr : Statement .cfgpwr := rfl
theorem setch (ch : BitVec 2) (v : Byte) : Statement (.setch ch v) := channelOperand 0x42#8 v ch
theorem relch : Statement .relch := rfl
theorem boot : Statement .boot := rfl
theorem idle : Statement .idle := rfl
theorem mrestart : Statement .mrestart := rfl
theorem getw : Statement .getw := rfl
theorem geth : Statement .geth := rfl

end Sys2Proof.Laws.EncodingInRow
end

