-- ==== Sys2Proof/Laws/Sink.lean ====
section
/-! SUPPORT. The laws of the reference sink: received bytes do not matter to it, what a run of data bytes stores, what an
INVERT byte does, what the rendered picture depends on. -/

namespace Sys2Proof.Machine

/-! ### Events -/

theorem sinkStep_shape (c : Cfg) (k : Sink) (e : Event) : sinkStep c k e.shape = sinkStep c k e := by
  cases e <;> rfl

/-- The sink sees the shapes of the events only (R72). -/
theorem sink_foldl_shape (c : Cfg) (k : Sink) (ev : List Event) :
    ev.foldl (sinkStep c) k = (ev.map Event.shape).foldl (sinkStep c) k := by
  induction ev generalizing k with
  | nil => rfl
  | cons e ev ih => simp [ih, sinkStep_shape]

/-- A run of data bytes that fits the RAM from the pointer on, in a family with a pointer: byte `i` of the run is stored `i`
places after the pointer, and the pointer moves past the run (R74, R75). -/
theorem sink_foldl_data {c : Cfg} (hf : c.family ≠ .paged1) (bs : List Byte) (k : Sink) (hr : k.inReset = false)
    (hp : k.ptr + bs.length ≤ sinkRamSize c) (hpos : k.ptr < sinkRamSize c) :
    ((transfers .data bs).foldl (sinkStep c) k).ptr = (k.ptr + bs.length) % sinkRamSize c
      ∧ ∀ a, ((transfers .data bs).foldl (sinkStep c) k).ram.read a =
          if h : k.ptr ≤ a ∧ a < k.ptr + bs.length then some (bs[a - k.ptr]'(by omega)) else k.ram.read a := by
  induction bs generalizing k with
  | nil =>
    refine ⟨by simp [transfers, Nat.mod_eq_of_lt hpos], fun a => ?_⟩
    rw [dif_neg (by simp)]; rfl
  | cons b bs ih =>
    have hstep : sinkStep c k (.bus .data b 0#8)
        = { k with ram := k.ram.write k.ptr b, ptr := (k.ptr + 1) % sinkRamSize c } := by
      cases hfam : c.family <;> simp_all [sinkStep, sinkData]
    simp only [transfers, List.map_cons, List.foldl_cons, hstep]
    simp only [List.length_cons] at hp ⊢
    by_cases hl : bs = []
    · subst hl
      refine ⟨rfl, fun a => ?_⟩
      rw [List.map_nil, List.foldl_nil, Memory.read_write]
      by_cases ha : a = k.ptr
      · subst ha; simp
      · rw [if_neg ha, dif_neg (by simp; omega)]
    · have hlen : 0 < bs.length := List.length_pos_iff.2 hl
      have hm : (k.ptr + 1) % sinkRamSize c = k.ptr + 1 := Nat.mod_eq_of_lt (by omega)
      obtain ⟨h1, h2⟩ := ih { k with ram := k.ram.write k.ptr b, ptr := (k.ptr + 1) % sinkRamSize c } hr
        (by simp only [hm]; omega) (by simp only [hm]; omega)
      simp only [transfers, hm] at h1 h2 ⊢
      refine ⟨by rw [h1]; congr 1; omega, fun a => ?_⟩
      rw [h2]
      by_cases ha : k.ptr + 1 ≤ a ∧ a < k.ptr + 1 + bs.length
      · rw [dif_pos ha, dif_pos (by omega)]
        have : a - k.ptr = (a - (k.ptr + 1)) + 1 := by omega
        simp only [this, List.getElem_cons_succ]
      · rw [dif_neg ha, Memory.read_write]
        by_cases hq : a = k.ptr
        · subst hq; simp
        · rw [if_neg hq, dif_neg (by omega)]

/-! ### Groups of the expander bytes -/

theorem groupOn_off (on : Nat) : groupOn 0 on = false := rfl

theorem groupOn_on {on : Nat} (h : on ≠ 0) : groupOn on on = true := by simp [groupOn, h]

/-! ### INVERT and the picture -/

/-- Where the INVERT bytes are no other command, INVERT f moves only INV and the two paged pointers. -/
theorem sinkCommand_invert {c : Cfg} (h : InvertBytesOwn c) (hp : c.opcInvert.off ≠ c.opcInvert.on) (f : Bool) (k : Sink) :
    sinkCommand c (opcSelect c.opcInvert f) k =
      { k with inv := f
               page := (c.pageSelect.idxOf? (opcSelect c.opcInvert f)).getD k.page
               col := if opcSelect c.opcInvert f = c.columnReset then 0 else k.col } := by
  have h1 := h (opcSelect c.opcInvert f) (by cases f <;> simp [opcSelect])
  simp only [List.mem_append, List.mem_cons, not_or] at h1
  obtain ⟨⟨a1, a2, a3, a4, a5, a6, a7, a8, -⟩, a9⟩ := h1
  simp [sinkCommand, toggled, a1, a2, a3, a4, a5, a6, a7, a8, a9]
  cases f <;> simp [opcSelect, hp.symm]

/-- Two sinks with the same RAM and the same modes but for INV. -/
structure SamePanel (k l : Sink) : Prop where
  on       : l.on = k.on
  flipH    : l.flipH = k.flipH
  flipV    : l.flipV = k.flipV
  allOn    : l.allOn = k.allOn
  contrast : l.contrast = k.contrast
  ram      : l.ram = k.ram
  epoch    : l.epoch = k.epoch

/-- What the rendered picture depends on: RAM and the six booleans (R72). -/
theorem picture_congr {s t : State} (hc : t.cfg = s.cfg) (hl : t.lives = s.lives) (hp : SamePanel s.sink t.sink)
    (hi : t.sink.inv = s.sink.inv) (hs : s.sinkShows = true) (ht : t.sinkShows = true) (x y : Nat) :
    t.picture x y = s.picture x y := by
  have hb : t.sinkByte = s.sinkByte := by funext a; simp [State.sinkByte, hp.ram, hp.epoch, hl]
  have hx : t.sinkPixel = s.sinkPixel := by funext x y; simp [State.sinkPixel, hb, hc]
  simp only [State.picture, hs, ht, if_true, hp.on, hp.contrast, Sink.lit, hp.allOn, hp.flipH, hp.flipV, hi, hc, hx]

end Sys2Proof.Machine
end

