-- ==== Sys2Proof/Machine/Alias.lean ====
section
/-! DEFINITION. The assembler's aliases and public spellings and their expansions (spec/30_encoding.md R110, R149, R220):
none has a request word of its own. -/

namespace Sys2Proof.Machine

/-- The public names (R110). -/
inductive PublicName where
  | restart | displayOn | displayOff
  | paintScreen (clear : Option Bool)
  | buttonsState | exitToBootloader
  | setRGBled (r g b : Byte)
  | digitalWriteRGB (r g b : Bool)
  | width | height | boot | idle
  | invert (f : Bool) | flipHorizontal (f : Bool) | flipVertical (f : Bool) | allPixelsOn (f : Bool)
  deriving DecidableEq, Repr

/-- The intensity of a digital write: 255 for on, 0 for off (R220). -/
def digitalIntensity (on : Bool) : Byte := if on then 255#8 else 0#8

/-- SETCH R ; SETCH G ; SETCH B (R220). -/
def setAll (r g b : Byte) : List Instr :=
  [.setch (channelBits .r) r, .setch (channelBits .g) g, .setch (channelBits .b) b]

/-- What a public name stands for (R110). `paintScreen(buffer)` clears nothing. -/
def expand : PublicName → List Instr
  | .restart => [.bootdisp]
  | .displayOn => [.bootdisp]
  | .displayOff => [.shutdown]
  | .paintScreen clear => [.paint (clear.getD false)]
  | .buttonsState => [.rdbtn]
  | .exitToBootloader => [.mrestart]
  | .setRGBled r g b => setAll r g b
  | .digitalWriteRGB r g b => setAll (digitalIntensity r) (digitalIntensity g) (digitalIntensity b)
  | .width => [.getw]
  | .height => [.geth]
  | .boot => [.boot]
  | .idle => [.idle]
  | .invert f => [.invert f]
  | .flipHorizontal f => [.fliph f]
  | .flipVertical f => [.flipv f]
  | .allPixelsOn f => [.allon f]

/-- The request words of a public name. -/
def publicWords (n : PublicName) : List Word := (expand n).map encode

end Sys2Proof.Machine
end

