-- ==== Sys2Proof/Tests/Slice0.lean ====
section
/-! SUPPORT. The model's own tests: words written out from the encoding tables, one-operation vectors of
spec/95_test_vectors.md (its numbers are named), and a witness for every statement of
Certificates/Slice0/Obligations.lean that has hypotheses. -/

namespace Sys2Proof.Tests

open Sys2Proof Sys2Proof.Machine

/-! ### Decoding (spec/95_test_vectors.md 2.1; the other words from spec/30_encoding.md R90 to R93) -/

theorem test_decode_cfgbus : decode 0x01000000#32 = .ok .cfgbus := by decide
theorem test_decode_xfer : decode 0x02A50000#32 = .ok (.xfer 0xA5#8) := by decide
theorem test_decode_cmdmode : decode 0x10000000#32 = .ok .cmdmode := by decide
theorem test_decode_datamode : decode 0x11000000#32 = .ok .datamode := by decide
theorem test_decode_sendcmd : decode 0x12AF0000#32 = .ok (.sendcmd 0xAF#8) := by decide
theorem test_decode_bootdisp : decode 0x13000000#32 = .ok .bootdisp := by decide
theorem test_decode_shutdown : decode 0x14000000#32 = .ok .shutdown := by decide
theorem test_decode_invert : decode 0x16010000#32 = .ok (.invert true) := by decide
theorem test_decode_fliph : decode 0x17000000#32 = .ok (.fliph false) := by decide
theorem test_decode_flipv : decode 0x18010000#32 = .ok (.flipv true) := by decide
theorem test_decode_allon : decode 0x19000000#32 = .ok (.allon false) := by decide
theorem test_decode_contrast : decode 0x1A010000#32 = .ok (.contrast true) := by decide
theorem test_decode_paint : decode 0x20010000#32 = .ok (.paint true) := by decide
theorem test_decode_rdbtn : decode 0x30000000#32 = .ok .rdbtn := by decide
theorem test_decode_safemode : decode 0x31000000#32 = .ok .safemode := by decide
theorem test_decode_cfgpins : decode 0x40000000#32 = .ok .cfgpins := by decide
theorem test_decode_cfgpwr : decode 0x41000000#32 = .ok .cfgpwr := by decide
theorem test_decode_setch : decode 0x42016400#32 = .ok (.setch 1#2 100#8) := by decide
theorem test_decode_relch : decode 0x43000000#32 = .ok .relch := by decide
theorem test_decode_boot : decode 0x50000000#32 = .ok .boot := by decide
theorem test_decode_idle : decode 0x51000000#32 = .ok .idle := by decide
theorem test_decode_mrestart : decode 0x52000000#32 = .ok .mrestart := by decide
theorem test_decode_getw : decode 0x53000000#32 = .ok .getw := by decide
theorem test_decode_geth : decode 0x54000000#32 = .ok .geth := by decide

/-- The refused words of spec/95_test_vectors.md 2.1, format by format. -/
theorem test_decode_refused_operand_bits :
    ([0x02A50100, 0x10010000, 0x16020000, 0x20000001, 0x42040000] : List Word).map decode
      = List.replicate 5 (.error .operandBits) := by decide

theorem test_decode_refused_op :
    ([0x15000000, 0x00000000, 0xFFFFFFFF, 0x55000000] : List Word).map decode = List.replicate 4 (.error .unassignedOp) := by
  decide

theorem test_decode_refused_channel : decode 0x42030000#32 = .error .reservedChannel := by decide

theorem test_table_word : decodeTableWord 32 0x4202FF00 = some (.setch 2#2 255#8) := by decide

/-- The check of WellFormed.lean refuses the ill-formed term, and admits the operand next to it (R93, R96). -/
theorem test_wellFormed_setch : WellFormed (.setch 3#2 0#8) = false ∧ WellFormed (.setch 2#2 255#8) = true := by decide

/-! ### The bench: small builds after BOOT, with a live shifter and MISO low -/

/-- The build of vectors P10 and P11, with the command table of D7 and the shutdown bytes of G3. -/
def tiny (fam : Family) : Cfg :=
  { Config.default with family := fam, width := 2, height := 16, cmdTable := [0x8D#8, 0x14#8, 0xAF#8],
                        pageSelect := [0xB0#8, 0xB1#8], expander := Config.expanderDefaults 2 2 }

/-- A booted machine of the build `c`: bus enabled, DataMode, the framebuffer of P10, `n` bits of MISO low. -/
def bench (c : Cfg) (n : Nat) : State :=
  { State.reset with
    cfg := c
    bus := { State.reset.bus with en := true, role := true, cpol := c.busSetup.cpol, cpha := c.busSetup.cpha,
                                  order := c.busSetup.order, div := c.busSetup.div, sck := c.busSetup.cpol }
    disp := { dc := .data, drst := true, dstate := .dataMode, ctp := 3#16 }
    plat := { State.reset.plat with pinsOk := true, pwrSaved := true }
    fb := [(0, 0x01#8), (1, 0xFF#8), (2, 0x80#8), (3, 0x0F#8)]
    env := { State.reset.env with shifterLeft := none, miso := List.replicate n false, tears := [.whole] } }

def lin : State := bench (tiny .linear1) 200
def paged : State := bench (tiny .paged1) 200
def exp4 : State := bench (tiny .exp4) 200
def exp2 : State := bench (tiny .exp2) 200

/-- `lin` with the outside's next actions. -/
def asking (l : List HostAct) : State := { lin with host := l }

/-- `lin` with the button levels `v` at the next sample. -/
def pressing (v : Byte) : State := { lin with env := { lin.env with buttons := [v] } }

/-- The outcome is a next state of which `p` holds. -/
def gives (r : Host.Outcome State Fault Refusal) (p : State → Bool) : Bool :=
  match r with
  | .next t => p t
  | .fault _ | .refused _ => false

/-- A transfer of `b` in mode `m` with MISO low. -/
def low (m : DcMode) (b : Byte) : Event := .bus m b 0#8

theorem test_legal_builds :
    legal (tiny .paged1) = true ∧ legal (tiny .exp4) = true ∧ legal (tiny .exp2) = true ∧ legal Config.default = true := by
  decide

/-- P16: the default constants need an even page count. -/
theorem test_legal_odd_pages :
    legal { Config.default with family := .exp4, width := 2, height := 24, pageSelect := [1#8, 2#8, 3#8],
                                expander := Config.expanderDefaults 2 3 } = false := by decide

/-! ### The Bus Driver (2.2) -/

/-- B1, from reset. -/
theorem test_cfgbus_reset : gives (exec .cfgbus State.reset) (fun t =>
    t.reg 0#3 == some 0xC0#8 && t.reg 1#3 == some 0x02#8 && t.reg 2#3 == some 0x00#8 && t.tr == []) = true := by decide

/-- B3: all three mode bits and the divisor. -/
theorem test_cfgbus_modes :
    gives (exec .cfgbus { lin with cfg := { lin.cfg with busSetup := ⟨true, true, true, 8#8⟩ } }) (fun t =>
      t.reg 0#3 == some 0xF8#8 && t.reg 1#3 == some 0x08#8 && t.bus.sck) = true := by decide

/-- The bits of 0x34, most significant first (B8). -/
def misoB8 : State := { lin with env := { lin.env with miso := [false, false, true, true, false, true, false, false] } }

/-- B4 and B8: mode 0, most significant bit first. -/
theorem test_xfer_msb : gives (exec (.xfer 0xA5#8) misoB8) (fun t =>
    t.reg 6#3 == some 0x34#8 && t.reg 3#3 == some 0x34#8 && t.reg 2#3 == some 0x80#8 && t.tr == [.bus .data 0xA5#8 0x34#8]
      && t.bus.inFlight == [true, false, true, false, false, true, false, true] && !t.port.opBusy) = true := by decide

/-- B9: least significant bit first, here with CPHA = 1. -/
theorem test_xfer_lsb :
    gives (exec (.xfer 0xA5#8) { misoB8 with bus := { misoB8.bus with order := true, cpha := true } }) (fun t =>
      t.port.result == 0x2C#8 && t.bus.inFlight == [true, false, true, false, false, true, false, true]) = true := by decide

/-! ### The Display Controller Driver (2.3) -/

/-- D1. -/
theorem test_cmdmode : gives (exec .cmdmode lin) (fun t => t.reg 4#3 == some 0x06#8 && t.tr == [.dc .cmd]) = true := by decide

/-- D2, and that Uninitialized is kept (R142). -/
theorem test_datamode :
    gives (exec .datamode { lin with disp := { lin.disp with dc := .cmd, dstate := .commandMode } })
        (fun t => t.reg 4#3 == some 0x0B#8 && t.tr == [.dc .data]) = true
      ∧ gives (exec .datamode State.reset) (fun t => t.disp.dstate == .uninitialized) = true := by decide

/-- D4: from Uninitialized. -/
theorem test_sendcmd_uninitialized :
    gives (exec (.sendcmd 0x81#8) { lin with disp := { lin.disp with dc := .cmd, dstate := .uninitialized } }) (fun t =>
      t.tr == [.dc .cmd, low .cmd 0x81#8, .dc .data] && t.disp.dstate == .uninitialized && t.disp.dc == .data) = true := by
  decide

/-- D20: a dead shifter. -/
theorem test_sendcmd_dead : gives (exec (.sendcmd 0xAF#8) { lin with env := { lin.env with shifterLeft := some 0 } })
    (fun t => t.tr == [.dc .cmd] && t.disp.dc == .cmd && t.disp.dstate == .commandMode && t.port.opBusy) = true := by decide

/-- D7. -/
theorem test_bootdisp : gives (exec .bootdisp lin) (fun t =>
    t.tr == [.rst false, .delay .rstLow, .rst true, .delay .rstRecover, .dc .cmd, low .cmd 0x8D#8, low .cmd 0x14#8,
      low .cmd 0xAF#8, .dc .data] && t.reg 4#3 == some 0x0B#8 && t.disp.ctp == 3#16) = true := by decide

/-- D9: with the clear pass. -/
theorem test_bootdisp_clear :
    gives (exec .bootdisp { lin with cfg := { lin.cfg with cmdTable := [0xAF#8], ramClearCount := 3 } }) (fun t =>
      t.tr == [.rst false, .delay .rstLow, .rst true, .delay .rstRecover, .dc .data, low .data 0#8, low .data 0#8,
        low .data 0#8, .dc .cmd, low .cmd 0xAF#8, .dc .data]) = true := by decide

/-- D11. -/
theorem test_shutdown : gives (exec .shutdown lin) (fun t =>
    t.tr == [.dc .cmd, low .cmd 0xAE#8, low .cmd 0x8D#8, low .cmd 0x10#8, .delay .offSettle, .rst false]
      && t.reg 4#3 == some 0x0C#8) = true := by decide

/-- D14. -/
theorem test_invert : gives (exec (.invert true) lin) (fun t => t.tr == [.dc .cmd, low .cmd 0xA7#8, .dc .data]) = true
    ∧ gives (exec (.invert false) lin) (fun t => t.tr == [.dc .cmd, low .cmd 0xA6#8, .dc .data]) = true := by decide

/-- D15. -/
theorem test_fliph : gives (exec (.fliph true) lin) (fun t => t.tr == [.dc .cmd, low .cmd 0xA0#8, .dc .data]) = true
    ∧ gives (exec (.fliph false) lin) (fun t => t.tr == [.dc .cmd, low .cmd 0xA1#8, .dc .data]) = true := by decide

/-- D12: while Off. -/
theorem test_flipv_off :
    gives (exec (.flipv true) { lin with disp := { lin.disp with dc := .cmd, drst := false, dstate := .off } }) (fun t =>
      t.tr == [.dc .cmd, low .cmd 0xC0#8, .dc .data] && t.reg 4#3 == some 0x0D#8) = true := by decide

/-- D17. -/
theorem test_allon : gives (exec (.allon true) lin) (fun t => t.tr == [.dc .cmd, low .cmd 0xA5#8, .dc .data]) = true
    ∧ gives (exec (.allon false) lin) (fun t => t.tr == [.dc .cmd, low .cmd 0xA4#8, .dc .data]) = true := by decide

/-- D18. -/
theorem test_contrast : gives (exec (.contrast true) lin) (fun t => t.tr == [.dc .cmd, low .cmd 0x02#8, .dc .data]) = true := by
  decide

/-! ### The Framebuffer Transfer Engine (2.4) -/

set_option maxRecDepth 4000 in
/-- P10 (EXP4) with clearAfter. -/
theorem test_paint_exp4 : gives (exec (.paint true) exp4) (fun t =>
    t.tr == ([0x0F, 0, 0, 0, 0, 0, 0, 0xF0, 0xFF, 0xFF, 0xFF, 0xFF, 0x0F, 0x0F, 0x0F, 0x0F] : List Byte).map (low .data)
      && (List.range 4).all (fun a => t.fbRead a == 0#8)) = true := by decide

/-- P11 (EXP2), and the shapes of P7 and P2 (PAGED1, LINEAR1) on the same four bytes. -/
theorem test_paint_others :
    gives (exec (.paint false) exp2) (fun t =>
        t.tr == ([0x03, 0x00, 0x00, 0xC0, 0xFF, 0xFF, 0x0F, 0x0F] : List Byte).map (low .data)) = true
      ∧ gives (exec (.paint false) paged) (fun t =>
        t.tr == [.dc .cmd, low .cmd 0xB0#8, low .cmd 0x10#8, .dc .data, low .data 0x01#8, low .data 0xFF#8,
          .dc .cmd, low .cmd 0xB1#8, low .cmd 0x10#8, .dc .data, low .data 0x80#8, low .data 0x0F#8] && t.fb == paged.fb) = true
      ∧ gives (exec (.paint true) lin) (fun t =>
        t.tr == ([0x01, 0xFF, 0x80, 0x0F] : List Byte).map (low .data) && t.fb.map Prod.snd == [0#8, 0#8, 0#8, 0#8]) = true := by
  decide

/-! ### The Input Sampler (2.5) -/

/-- I1 to I6. -/
theorem test_button_mask :
    ([0b111111, 0b000000, 0b111011, 0b110011, 0b011111, 0b101110] : List Byte).map (buttonMask Config.default)
      = [0x00#8, 0xFC#8, 0x80#8, 0x90#8, 0x04#8, 0x28#8] := by decide

/-- I6, with the two lines the block does not have at 1. -/
theorem test_rdbtn : gives (exec .rdbtn (pressing 0b11101110#8)) (fun t =>
    t.reg 6#3 == some 0x28#8 && t.tr == [.btn 0b101110#8] && t.bus == lin.bus) = true := by decide

/-- I9. -/
theorem test_safemode_pressed : gives (exec .safemode (pressing 0b111011#8)) (fun t =>
    t.tr == [.btn 0b111011#8, .led (.rgb .r) false] && t.reg 5#3 == some 0x81#8) = true := by decide

/-- I10. -/
theorem test_safemode_released : gives (exec .safemode (pressing 0b000100#8)) (fun t => t.reg 5#3 == some 0x00#8) = true := by
  decide

/-! ### The platform operations (2.6) -/

/-- X1. -/
theorem test_cfgpins : gives (exec .cfgpins State.reset) (fun t => t.plat.pinsOk && t.tr == [.pins]) = true := by decide

/-- X2. -/
theorem test_cfgpwr : gives (exec .cfgpwr State.reset) (fun t => t.plat.pwrSaved && t.tr == [.power]) = true := by decide

/-- X5, inverted, at both ends of the intermediate range. -/
theorem test_setch_ends :
    gives (exec (.setch 2#2 1#8) lin) (fun t => t.plat.blue.pwmCmp == 254#8 && t.plat.blue.pwmEn) = true
      ∧ gives (exec (.setch 2#2 254#8) lin) (fun t => t.tr == [.pwm .b true 1#8]) = true := by decide

/-- X6 and X9. -/
theorem test_setch_digital :
    gives (exec (.setch 1#2 255#8) { lin with plat := { lin.plat with green := ⟨true, true, 155#8⟩ } }) (fun t =>
        t.plat.green == ⟨false, false, 155#8⟩ && t.tr == [.pwm .g false 155#8, .led (.rgb .g) false]) = true
      ∧ ([0, 127, 128, 255] : List Byte).map (binaryLevel { lin.cfg with inverted := ⟨true, true, false⟩ } .b)
        = [false, false, true, true] := by decide

/-- X10. -/
theorem test_relch :
    gives (exec .relch { lin with plat := { lin.plat with green := ⟨true, true, 155#8⟩, blue := ⟨true, true, 1#8⟩ } }) (fun t =>
      t.plat.green == ⟨true, false, 155#8⟩ && t.plat.blue == ⟨true, false, 1#8⟩
        && t.tr == [.pwm .r false 0#8, .pwm .g false 155#8, .pwm .b false 1#8]) = true := by decide

/-- T7 on a small table. -/
theorem test_boot : gives (exec .boot { lin with bus := State.reset.bus, disp := State.reset.disp }) (fun t =>
    t.tr == [.pins, .rst false, .delay .rstLow, .rst true, .delay .rstRecover, .dc .cmd, low .cmd 0x8D#8, low .cmd 0x14#8,
      low .cmd 0xAF#8, .dc .data, .power] && t.reg 0#3 == some 0xC0#8 && t.reg 4#3 == some 0x0B#8 && !t.port.opBusy) = true := by
  decide

/-- X13 and X14. -/
theorem test_idle :
    gives (exec .idle { lin with env := { lin.env with wake := [true] } }) (fun t =>
        t.tr == [.sleep, .wake] && !t.plat.sleeping && !t.port.opBusy) = true
      ∧ gives (exec .idle { lin with env := { lin.env with wake := [false] } }) (fun t =>
        t.tr == [.sleep] && t.plat.sleeping && t.port.opBusy) = true := by decide

/-- X15 and X16. -/
theorem test_mrestart :
    gives (exec .mrestart { lin with cfg := { lin.cfg with markerValue := 0x1234#16 } }) (fun t =>
      t.marker == [(0, 0x34#8), (1, 0x12#8)] && t.tr == [.marker 0x1234#16, .wdReset] && t.reg 5#3 == some 0x82#8) = true := by
  decide

/-- After X15 the next step is the reset, which keeps the marker. -/
theorem test_mrestart_reset : gives (exec .mrestart lin) (fun t => gives (step t) (fun u =>
    u.marker == [(0, 0x77#8), (1, 0x77#8)] && u.tr == [] && u.fb == [] && u.reg 5#3 == some 0x00#8 && !u.bus.en)) = true := by
  decide

/-- A reset between the two marker writes leaves either one of the bytes (R66: the order of the writes is open). -/
theorem test_mrestart_torn : ([.lowOnly, .highOnly] : List MarkerTear).map (fun k =>
      match exec .mrestart { lin with env := { lin.env with tears := [k] } } with
      | .next t => (t.marker, t.port.opBusy)
      | .fault _ | .refused _ => ([], true))
    = [([(0, 0x77#8)], false), ([(1, 0x77#8)], false)] := by decide

/-! ### Lines and picture -/

/-- A line of an unconfigured block has no level of its own (R36); a configured DC line has DC_CMD_LEVEL in Command Mode (R29). -/
theorem test_lineLevel : ({ lin with plat := State.reset.plat } : State).lineLevel .dc = lin.openLevel .dc
    ∧ gives (exec .cmdmode lin) (fun t => !t.lineLevel .dc && t.lineLevel .drst) = true := ⟨rfl, by decide⟩

/-- A build whose expander pairs each byte with its right neighbour: pairs (0, 1) and (2, 3). -/
def sideways : Cfg :=
  { tiny .exp4 with expander := { Config.expanderDefaults 2 2 with pairOffset := 1, innerStride := 2, innerCount := 2,
                                                                   outerCount := 1, backOffset := 0 } }

/-- The pixel mapping follows the build's own traversal (R75, R181): pixel (1, 3) stands in FB[1], the high nibble of byte 3 of
the first pair; pixel (1, 15) in FB[3], the high nibble of byte 7 of the second. -/
theorem test_sideways_mapping : legal sideways = true ∧ exp4ByteOf sideways 1 3 = 3 ∧ sourcePlace sideways 1 3 % 2 = 1
    ∧ exp4ByteOf sideways 1 15 = 15 ∧ sourcePlace sideways 1 15 % 2 = 1 := by decide

/-- Mirroring, inversion and all-on of the panel (R151 to R154). -/
theorem test_panel : ({ sinkStart with flipH := true }.lit (tiny .linear1) (fun x y => x == 0 && y == 3) 1 3) = true
    ∧ ({ sinkStart with flipV := true, inv := true }.lit (tiny .linear1) (fun x y => x == 0 && y == 3) 0 12) = false
    ∧ ({ sinkStart with allOn := true }.lit (tiny .linear1) (fun _ _ => false) 0 0) = true := by decide

/-- X12. -/
theorem test_getw : gives (exec .getw { lin with cfg := { lin.cfg with width := 255, height := 248 } })
    (fun t => t.port.result == 0xFF#8) = true := by decide

theorem test_geth : gives (exec .geth { lin with cfg := { lin.cfg with width := 255, height := 248 } })
    (fun t => t.port.result == 0xF8#8) = true := by decide

/-! ### The step, and the public names -/

/-- A reserved word at the port is refused (R96). -/
theorem test_step_refuses : step (asking [.request 0x02A50100#32]) = .refused (.reservedRequest .operandBits) := by rfl

/-- withFetchWord places a request that the very next step runs, from reset. -/
theorem test_step_fetch : gives (step (State.reset.withFetchWord 32 0x53000000)) (fun t => t.port.result == 128#8) = true := by
  decide

/-- Aliases of R110: the assembler's `restart` and a digital write. -/
theorem test_alias : publicWords .restart = [0x13000000#32]
    ∧ publicWords (.digitalWriteRGB true false true) = [0x4200FF00#32, 0x42010000#32, 0x4202FF00#32] := by decide

/-! ### Witnesses: the hypotheses of each statement that has some, met by a concrete state -/

/-- A free-running shifter lasts for any number of bytes. -/
theorem ready_live {s : State} {n : Nat} (he : s.bus.en = true) (hr : s.bus.role = true) (hl : s.env.shifterLeft = none) :
    BusReady s n := ⟨he, hr, fun m hm => by rw [hl] at hm; cases hm⟩

/-- A shifter with `k` exchanges left lasts for `n` bytes when `8 * n ≤ k`. -/
theorem ready_budget {s : State} {n k : Nat} (he : s.bus.en = true) (hr : s.bus.role = true) (hl : s.env.shifterLeft = some k)
    (hk : 8 * n ≤ k) : BusReady s n := ⟨he, hr, fun m hm => by rw [hl] at hm; cases hm; exact hk⟩

/-- A shifter that stops too early. -/
theorem not_ready_budget {s : State} {n k : Nat} (hl : s.env.shifterLeft = some k) (hk : k < 8 * n) : ¬ BusReady s n :=
  fun h => absurd (h.2.2 k hl) (by omega)

/-- A bus that is not enabled. -/
theorem not_ready_disabled {s : State} {n : Nat} (he : s.bus.en = false) : ¬ BusReady s n :=
  fun h => by rw [h.1] at he; cases he

/-- `lin` with a shifter that exchanges `k` more bits. -/
def budget (k : Nat) : State := { lin with env := { lin.env with shifterLeft := some k } }

/-- `lin` with the bus not enabled (R281). -/
def busOff : State := { lin with bus := { lin.bus with en := false } }

/-- `lin` with an operation in progress. -/
def busy (l : List HostAct) : State := { asking l with port := { lin.port with opBusy := true } }

/-- `s` with the reference sink out of reset and its pointer at the origin (R72, R287). -/
def shown (s : State) : State := { s with tr := [.pins, .rst false, .rst true] }

theorem witness_DecodeEncodeRoundTrip : WellFormed (.setch 2#2 255#8) = true ∧ WellFormed (.xfer 0#8) = true := by decide

theorem witness_EncodeDecodeRoundTrip : decode 0x4202FF00#32 = .ok (.setch 2#2 255#8) := by decide

theorem opField_encode (i : Instr) : opField (encode i) ≠ 0x15#8 := by
  cases i <;> simp only [encode, opField_requestWord] <;> decide

theorem witness_ReservedWordRefused : let s := asking [.request 0x15000000#32]
    legal s.cfg = true ∧ s.port.life ≠ .resetPending ∧ s.port.opBusy = false
      ∧ s.host = .request 0x15000000#32 :: [] ∧ ∀ i, WellFormed i = true → encode i ≠ 0x15000000#32 :=
  ⟨by decide, by decide, by decide, by decide, fun i _ h => opField_encode i (by rw [h]; decide)⟩

theorem witness_StepRunsDecodedRequest : let s := asking [.request 0x53000000#32, .readReg 6#3]
    legal s.cfg = true ∧ s.port.life ≠ .resetPending ∧ s.port.opBusy = false
      ∧ s.host = .request 0x53000000#32 :: [.readReg 6#3] ∧ decode 0x53000000#32 = .ok .getw := by decide

theorem witness_BusyBlockWaits : let s := busy [.request 0x53000000#32]
    legal s.cfg = true ∧ s.port.opBusy = true ∧ s.port.life ≠ .resetPending
      ∧ (∀ idx rest, s.host ≠ .readReg idx :: rest) ∧ ∀ rest, s.host ≠ .powerOn :: rest ∧ s.host ≠ .externalReset :: rest :=
  ⟨by decide, by decide, by decide, nofun, fun _ => ⟨nofun, nofun⟩⟩

theorem witness_ResetOverrides : ∀ a ∈ [HostAct.powerOn, .externalReset], legal (busy [a]).cfg = true
    ∧ (busy [a]).port.life ≠ .resetPending ∧ (busy [a]).host = a :: [] := by decide

theorem witness_WatchdogResetAtOnce : let s : State := { lin with port := { lin.port with life := .resetPending } }
    legal s.cfg = true ∧ s.port.life = .resetPending := by decide

theorem witness_IllegalBuildRefused_divisor :
    ({ Config.default.busSetup with div := 1#8 } : BusSetup).div.toNat < 2 := by decide

/-- Each build breaks one constraint of R6 at its boundary. -/
theorem witness_IllegalBuildRefused : ([{ Config.default with width := 0 }, { Config.default with width := 256 },
    { Config.default with height := 0 }, { Config.default with height := 256 }, { Config.default with height := 63 },
    { Config.default with opcContrast := ⟨1#8, 1#8⟩ }, { Config.default with shutdownSeq := [0xAE#8] },
    { Config.default with pageSelect := [0xB0#8] }, { Config.default with pageSelect := List.replicate 8 0xB0#8 },
    { Config.default with btnBit := [] }, { Config.default with btnBit := [8, 1, 2] },
    { Config.default with btnBit := [1, 1, 2] }, { Config.default with btnUp := 6 },
    { Config.default with expander := { Config.default.expander with on4 := 0#4 } },
    { Config.default with expander := { Config.default.expander with on2 := 0#2 } }] : List Cfg).all
      (fun c => !legal c) = true := by decide

theorem witness_IllegalBuildRefused_coverage :
    let c : Cfg := { Config.default with family := .exp4, width := 1, height := 24, expander := Config.expanderDefaults 1 3 }
    (c.family = .exp4 ∨ c.family = .exp2) ∧ ¬ (traversal c.expander).Perm (List.range (fbSize c)) := by decide

theorem witness_RegisterReadHasNoSideEffect :
    ∀ idx ∈ [0#3, 6#3, 7#3], legal (asking [.readReg idx]).cfg = true ∧ (asking [.readReg idx]).port.life ≠ .resetPending
      ∧ (asking [.readReg idx]).host = .readReg idx :: []
      ∧ (asking [.readReg idx]).port.opBusy = false := by decide

theorem witness_RegisterReadHasNoSideEffect_busy : let s := busy [.readReg 5#3]
    legal s.cfg = true ∧ s.port.life ≠ .resetPending ∧ s.host = .readReg 5#3 :: []
      ∧ s.port.opBusy = true := by decide

theorem witness_OutsideWritesOneByte_fb : ∀ a ∈ [3, 4], let s := asking [.fbWrite a 0x55#8]
    legal s.cfg = true ∧ s.port.life ≠ .resetPending ∧ s.port.opBusy = false
      ∧ s.host = .fbWrite a 0x55#8 :: [] ∧ (a < fbSize s.cfg ↔ a = 3) := by decide

theorem witness_OutsideWritesOneByte_marker : ∀ a ∈ [1, 2], let s := asking [.markerWrite a 0x55#8]
    legal s.cfg = true ∧ s.port.life ≠ .resetPending ∧ s.port.opBusy = false
      ∧ s.host = .markerWrite a 0x55#8 :: [] ∧ (a < 2 ↔ a = 1) := by decide

theorem witness_CfgbusIdempotent : ∃ t, exec .cfgbus State.reset = .next t := ⟨_, rfl⟩

theorem witness_XferCompletes : lin.plat.pinsOk = true ∧ BusReady lin 1 ∧ BusReady (budget 8) 1 :=
  ⟨rfl, ready_live rfl rfl rfl, ready_budget rfl rfl rfl le_rfl⟩

theorem witness_XferHangs_stops : ¬ BusReady (budget 7) 1 ∧ (budget 7).bus.en = true ∧ (budget 7).bus.role = true
    ∧ (budget 7).env.shifterLeft = some 7 := ⟨not_ready_budget rfl (by omega), rfl, rfl, rfl⟩

theorem witness_XferHangs_disabled : ¬ BusReady busOff 1 ∧ busOff.bus.en = false := ⟨not_ready_disabled rfl, rfl⟩

theorem witness_ModeTogglesComplete : lin.plat.pinsOk = true := by decide

theorem witness_SingleCommandCompletes :
    BusReady (budget 8) 1 ∧ ∀ i ∈ [Instr.sendcmd 0#8, .invert true, .fliph true, .flipv true, .allon false, .contrast false],
      (singleCommand (budget 8).cfg i).isSome = true := ⟨ready_budget rfl rfl rfl le_rfl, by decide⟩

theorem witness_SingleCommandHangs : singleCommand (budget 7).cfg (.invert true) = some 0xA7#8 ∧ ¬ BusReady (budget 7) 1 :=
  ⟨by decide, not_ready_budget rfl (by omega)⟩

theorem witness_BootdispCompletes : BusReady (budget 24) ((budget 24).cfg.ramClearCount + (budget 24).cfg.cmdTable.length) :=
  ready_budget rfl rfl rfl (by decide)

theorem witness_BootdispCompletes_empty : let s : State := { busOff with cfg := { busOff.cfg with cmdTable := [] } }
    s.cfg.ramClearCount + s.cfg.cmdTable.length = 0 := by decide

theorem witness_BootdispBeforeCfgbusHangs :
    busOff.bus.en = false ∧ 0 < busOff.cfg.ramClearCount + busOff.cfg.cmdTable.length ∧ busOff.cfg.ramClearCount = 0 := by decide

theorem witness_BootdispBeforeCfgbusHangs_clear :
    let s : State := { busOff with cfg := { busOff.cfg with ramClearCount := 1, cmdTable := [] } }
    s.bus.en = false ∧ 0 < s.cfg.ramClearCount + s.cfg.cmdTable.length ∧ s.cfg.ramClearCount ≠ 0 := by decide

theorem witness_ShutdownCompletes : legal (budget 24).cfg = true ∧ BusReady (budget 24) (budget 24).cfg.shutdownSeq.length :=
  ⟨by decide, ready_budget rfl rfl rfl (by decide)⟩

theorem witness_DataModeBetweenOperations_boot : ∃ t, exec .bootdisp lin = .next t ∧ t.port.opBusy = false :=
  ⟨_, rfl, by decide⟩

theorem witness_DataModeBetweenOperations_keeps :
    ∃ t, exec (.sendcmd 0#8) lin = .next t ∧ t.port.opBusy = false ∧ InDataMode lin := ⟨_, rfl, by decide, rfl, rfl⟩

theorem witness_DriverStateAgreesWithLine :
    ModesAgree lin ∧ ∃ t, exec .cmdmode lin = .next t ∧ t.port.opBusy = false ∧ t.disp.dstate = .commandMode :=
  ⟨⟨by decide, by decide⟩, _, rfl, by decide, by decide⟩

theorem witness_InvertRoundTrip : ∃ t u v, exec (.invert true) (shown lin) = .next t ∧ t.port.opBusy = false
    ∧ exec (.invert false) t = .next u ∧ u.port.opBusy = false ∧ exec (.invert false) (shown lin) = .next v
    ∧ v.port.opBusy = false ∧ (shown lin).sinkShows = true ∧ (shown lin).sink.inv = false ∧ InvertBytesOwn (shown lin).cfg :=
  ⟨_, _, _, rfl, by decide, rfl, by decide, rfl, by decide, by decide, by decide, by unfold InvertBytesOwn; decide⟩

theorem witness_PaintLinearCompletes : legal (budget 32).cfg = true ∧ (budget 32).cfg.family = .linear1
    ∧ BusReady (budget 32) (paintLength (budget 32).cfg) := ⟨by decide, rfl, ready_budget rfl rfl rfl (by decide)⟩

theorem witness_PaintPagedCompletes : legal paged.cfg = true ∧ paged.cfg.family = .paged1
    ∧ BusReady paged (paintLength paged.cfg) := ⟨by decide, rfl, ready_live rfl rfl rfl⟩

theorem witness_PaintExp4Completes : legal exp4.cfg = true ∧ exp4.cfg.family = .exp4
    ∧ BusReady exp4 (paintLength exp4.cfg) := ⟨by decide, rfl, ready_live rfl rfl rfl⟩

theorem witness_PaintExp2Completes : legal exp2.cfg = true ∧ exp2.cfg.family = .exp2
    ∧ BusReady exp2 (paintLength exp2.cfg) := ⟨by decide, rfl, ready_live rfl rfl rfl⟩

theorem witness_PaintHangsPartWay : legal (budget 31).cfg = true ∧ ¬ BusReady (budget 31) (paintLength (budget 31).cfg) :=
  ⟨by decide, not_ready_budget rfl (by decide)⟩

theorem witness_Exp4PixelMapping : DefaultTraversal exp4.cfg ∧ pageCount exp4.cfg % 2 = 0 ∧ 1 < exp4.cfg.width
    ∧ 0 < pageCount exp4.cfg / 2 ∧ 7 < 8 := ⟨by unfold DefaultTraversal; decide, by decide, by decide, by decide, by decide⟩

theorem witness_Exp2PixelMapping : DefaultTraversal exp2.cfg ∧ pageCount exp2.cfg % 2 = 0 ∧ 1 < exp2.cfg.width
    ∧ 0 < pageCount exp2.cfg / 2 ∧ 3 < 4 := ⟨by unfold DefaultTraversal; decide, by decide, by decide, by decide, by decide⟩

theorem witness_EachIndexVisitedOnce : legal (tiny .exp4) = true ∧ ((tiny .exp4).family = .exp4 ∨ (tiny .exp4).family = .exp2) := by
  decide

/-- `exp4` with an all-zero framebuffer. -/
def blank : State := { exp4 with fb := [(0, 0#8), (1, 0#8), (2, 0#8), (3, 0#8)] }

theorem witness_ZeroFramebufferPaintsZero : legal blank.cfg = true ∧ ∀ a < fbSize blank.cfg, blank.fbRead a = 0#8 := by
  decide

theorem witness_SinkShowsLinearPaint : let s := shown lin
    legal s.cfg = true ∧ s.cfg.family = .linear1 ∧ BusReady s (paintLength s.cfg) ∧ s.disp.dc = .data ∧ s.sinkShows = true
      ∧ s.sink.ptr = 0 := ⟨by decide, rfl, ready_live rfl rfl rfl, rfl, by decide, by decide⟩

theorem witness_SinkShowsExpanderPaint : let s := shown { exp4 with cfg := sideways }
    legal s.cfg = true ∧ (s.cfg.family = .exp4 ∨ s.cfg.family = .exp2) ∧ BusReady s (paintLength s.cfg) ∧ s.disp.dc = .data
      ∧ s.sinkShows = true ∧ s.sink.ptr = 0 :=
  ⟨by decide, .inl rfl, ready_live rfl rfl rfl, rfl, by decide, by decide⟩

theorem witness_SinkShowsPagedPaint : let s := shown paged
    legal s.cfg = true ∧ s.cfg.family = .paged1 ∧ BusReady s (paintLength s.cfg) ∧ s.cfg.columnReset ∉ s.cfg.pageSelect
      ∧ s.sinkShows = true := ⟨by decide, rfl, ready_live rfl rfl rfl, by decide, by decide⟩

theorem witness_RdbtnCompletes : legal (pressing 0b111011#8).cfg = true := by decide

theorem witness_RdbtnPure : ∃ t t', (pressing 0b111011#8).cfg = (pressing 0b11111011#8).cfg
    ∧ (pressing 0b111011#8).buttonsNow = (pressing 0b11111011#8).buttonsNow ∧ exec .rdbtn (pressing 0b111011#8) = .next t
    ∧ exec .rdbtn (pressing 0b11111011#8) = .next t' := ⟨_, _, by decide, by decide, rfl, rfl⟩

theorem witness_SafemodeReleasedCompletes : let s := pressing 0b000100#8
    s.buttonsNow.getLsbD s.cfg.btnUp = true := by decide

theorem witness_SafemodePressedHalts : let s := pressing 0b111011#8
    s.buttonsNow.getLsbD s.cfg.btnUp = false ∧ s.cfg.safeIndicator = .rgb .r ∧ s.plat.pinsOk = true := by decide

theorem witness_SafemodePressedHalts_aux :
    let s : State := { pressing 0b111011#8 with cfg := { lin.cfg with safeIndicator := .aux, auxInverted := true } }
    s.buttonsNow.getLsbD s.cfg.btnUp = false ∧ s.cfg.safeIndicator = .aux ∧ s.plat.pinsOk = true
      ∧ indicatorLit s.cfg s.cfg.safeIndicator = false := by decide

theorem witness_SetchCompletes : channelOfBits 1#2 = some .g ∧ lin.plat.pinsOk = true ∧ (lin.chan .g).pwmEn = false ∧ perChannel lin.cfg.pwmCapable .g = true
    ∧ perChannel { lin.cfg.pwmCapable with g := false } .g = false := by decide

theorem witness_SetchRoundTrip : ∃ t u v, channelOfBits 0#2 = some .r ∧ lin.plat.pinsOk = true ∧ exec (.setch 0#2 0#8) lin = .next t
    ∧ exec (.setch 0#2 255#8) t = .next u ∧ exec (.setch 0#2 0#8) u = .next v := ⟨_, _, _, rfl, rfl, rfl, rfl, rfl⟩

theorem witness_BootCompletes : ShifterLasts (budget 24) ((budget 24).cfg.ramClearCount + (budget 24).cfg.cmdTable.length) :=
  (ready_budget (s := budget 24) rfl rfl rfl (by decide)).2.2

theorem witness_IdleSleepsUntilWake : State.wakeNow { lin with env := { lin.env with wake := [true] } } = true
    ∧ State.wakeNow { lin with env := { lin.env with wake := [false] } } = false := by decide

theorem witness_MrestartWritesMarker : lin.tearNow = .whole
    ∧ State.tearNow { lin with env := { lin.env with tears := [.lowOnly] } } = .lowOnly
    ∧ State.tearNow { lin with env := { lin.env with tears := [.highOnly] } } = .highOnly := by decide

theorem witness_GeometryReadsComplete : legal lin.cfg = true := by decide

theorem witness_MarkerSurvivesMaintenanceRestart : ∃ t, legal lin.cfg = true ∧ lin.tearNow = .whole
    ∧ exec .mrestart lin = .next t := ⟨_, by decide, by decide, rfl⟩

/-- A state that meets the invariant with an enabled bus, a waveform output on and both memories in use. -/
def running : State := { lin with plat := { lin.plat with green := ⟨false, true, 155#8⟩ }, marker := [(0, 0x77#8), (1, 0x77#8)]
                                  host := [.request 0x20010000#32] }

theorem witness_StepKeepsInvariant : Inv running ∧ ∃ t, Sys2Proof.core.step running = .next t := by
  refine ⟨?_, _, rfl⟩
  constructor <;> first | decide | (intro ch; cases ch <;> decide)

theorem witness_BuildNeverChanges : ∃ t, step running = .next t := ⟨_, rfl⟩

theorem witness_OnlyCfgbusConfiguresBus : ∃ t, Instr.cfgpins ≠ .cfgbus ∧ Instr.cfgpins ≠ .boot
    ∧ (Instr.cfgpins = .mrestart → lin.tearNow = .whole) ∧ exec .cfgpins lin = .next t :=
  ⟨_, by decide, by decide, by decide, rfl⟩

theorem witness_OnlyFourWriteResult : ∃ t, (∀ b, Instr.boot ≠ .xfer b) ∧ Instr.boot ≠ .rdbtn ∧ Instr.boot ≠ .getw
    ∧ Instr.boot ≠ .geth ∧ (Instr.boot = .mrestart → lin.tearNow = .whole) ∧ exec .boot lin = .next t :=
  ⟨_, by decide, by decide, by decide, by decide, by decide, rfl⟩

theorem witness_OnlyPaintAndMrestartWriteMemory : ∃ t, (Instr.mrestart = .mrestart → lin.tearNow = .whole)
    ∧ exec .mrestart lin = .next t := ⟨_, by decide, rfl⟩

theorem witness_CompletesUnderBusLive : WellFormed (.paint true) = true ∧ Instr.paint true ≠ .safemode
    ∧ Instr.paint true ≠ .idle ∧ Instr.paint true ≠ .mrestart
    ∧ (usesBus (.paint true) = true → lin.bus.en = true ∧ lin.bus.role = true ∧ BusLive lin) :=
  ⟨by decide, by decide, by decide, by decide, fun _ => ⟨rfl, rfl, rfl⟩⟩

end Sys2Proof.Tests
end

section
/-! SUPPORT. The scope of the model (spec/00_scope.md): what a legal build satisfies, what one step can do, said once, and that
no step changes the build. -/

namespace Sys2Proof.Machine

/-! ### What a legal build satisfies (R6, R21, R182) -/

theorem legal_parts {c : Cfg} (h : legal c = true) : legalGeometry c = true ∧ legalCommands c = true
    ∧ 2 ≤ c.busSetup.div.toNat ∧ legalExpander c = true ∧ legalButtons c = true := by
  simpa [legal, and_assoc] using h

theorem legalGeometry_bounds {c : Cfg} (h : legalGeometry c = true) :
    1 ≤ c.width ∧ c.width ≤ 255 ∧ 8 ≤ c.height ∧ c.height ≤ 248 ∧ c.height % 8 = 0 := by
  simpa [legalGeometry, and_assoc] using h

theorem legalCommands_toggles {c : Cfg} (h : legalCommands c = true) :
    ∀ p ∈ [c.opcInvert, c.opcFlipH, c.opcFlipV, c.opcAllOn, c.opcContrast], p.off ≠ p.on := by
  simp only [legalCommands, legalPair, Bool.and_eq_true, decide_eq_true_eq] at h
  simp [h]

theorem legalCommands_lists {c : Cfg} (h : legalCommands c = true) : 2 ≤ c.shutdownSeq.length
    ∧ c.cmdTable.length ≤ 65535 ∧ c.pageSelect.length = c.height / 8 ∧ c.pageSelect.Nodup := by
  simp only [legalCommands, Bool.and_eq_true, decide_eq_true_eq] at h
  obtain ⟨⟨⟨⟨-, hshut⟩, htable⟩, hpages⟩, hnodup⟩ := h
  exact ⟨hshut, htable, hpages, hnodup⟩

theorem legalButtons_bounds {c : Cfg} (h : legalButtons c = true) : 1 ≤ c.btnBit.length ∧ c.btnBit.length ≤ 8
    ∧ (∀ k ∈ c.btnBit, k < 8) ∧ c.btnBit.Nodup ∧ c.btnUp < c.btnBit.length := by
  simp only [legalButtons, Bool.and_eq_true, decide_eq_true_eq, List.all_eq_true, and_assoc] at h
  exact h

theorem legalExpander_onLevels {c : Cfg} (h : legalExpander c = true) :
    c.expander.on4 ≠ 0#4 ∧ c.expander.on2 ≠ 0#2 := by
  simp only [legalExpander, Bool.and_eq_true, decide_eq_true_eq] at h
  exact h.1

/-- R182 as a permutation: the traversal reads every framebuffer index once. -/
theorem Covers.perm {c : Cfg} (h : Covers c) : (traversal c.expander).Perm (List.range (fbSize c)) :=
  (List.perm_ext_iff_of_nodup h.nodup List.nodup_range).2 fun a => by rw [h.mem, List.mem_range]

/-! ### What a step can do (R18, R95, R182, R270) -/

theorem step_of_not_legal {s : State} (h : ¬ legal s.cfg = true) : step s = .refused .illegalConfig := if_neg h

theorem step_of_legal {s : State} (h : legal s.cfg = true) : step s = stepLegal s := if_pos h

/-- The next states of `s`, each with the guards under which the step answers it. -/
inductive NextState (s : State) : State → Prop where
  | watchdog (hlife : s.port.life = .resetPending) : NextState s (s.hardReset .watchdog)
  | idle (hhost : s.host = []) : NextState s s
  | waiting (hbusy : s.port.opBusy = true) : NextState s s
  | readReg {idx : BitVec 3} {rest : List HostAct} {v : Byte} (hhost : s.host = .readReg idx :: rest)
      (hread : s.regRead idx = some v) : NextState s (s.dropHost.readPort v)
  | fbWrite {a : Nat} {v : Byte} {rest : List HostAct} (hhost : s.host = .fbWrite a v :: rest)
      (hbusy : s.port.opBusy = false) (ha : a < fbSize s.cfg) : NextState s (s.dropHost.fbWrite a v)
  | markerWrite {a : Nat} {v : Byte} {rest : List HostAct} (hhost : s.host = .markerWrite a v :: rest)
      (hbusy : s.port.opBusy = false) (ha : a < 2) : NextState s (s.dropHost.mkWrite a v)
  | request {w : Word} {i : Instr} {rest : List HostAct} {t : State} (hhost : s.host = .request w :: rest)
      (hbusy : s.port.opBusy = false) (hdec : decode w = .ok i) (hexec : exec i s.dropHost = .next t) : NextState s t
  | powerOn {rest : List HostAct} (hhost : s.host = .powerOn :: rest) : NextState s (s.dropHost.hardReset .powerOn)
  | externalReset {rest : List HostAct} (hhost : s.host = .externalReset :: rest) :
      NextState s (s.dropHost.hardReset .external)

theorem nextState_of_stepReadReg {s t : State} {idx : BitVec 3} {rest : List HostAct} (hhost : s.host = .readReg idx :: rest)
    (h : stepReadReg idx s = .next t) : NextState s t := by
  unfold stepReadReg at h
  split at h
  · next v hread => cases h; exact .readReg hhost hread
  · cases h

theorem nextState_of_stepFbWrite {s t : State} {a : Nat} {v : Byte} {rest : List HostAct}
    (hhost : s.host = .fbWrite a v :: rest) (h : stepFbWrite a v s = .next t) : NextState s t := by
  unfold stepFbWrite at h
  split at h
  · next hbusy => cases h; exact .waiting hbusy
  · next hbusy =>
    split at h
    · next ha => cases h; exact .fbWrite hhost (Bool.eq_false_iff.2 hbusy) ha
    · cases h

theorem nextState_of_stepMarkerWrite {s t : State} {a : Nat} {v : Byte} {rest : List HostAct}
    (hhost : s.host = .markerWrite a v :: rest) (h : stepMarkerWrite a v s = .next t) : NextState s t := by
  unfold stepMarkerWrite at h
  split at h
  · next hbusy => cases h; exact .waiting hbusy
  · next hbusy =>
    split at h
    · next ha => cases h; exact .markerWrite hhost (Bool.eq_false_iff.2 hbusy) ha
    · cases h

theorem nextState_of_stepRequest {s t : State} {w : Word} {rest : List HostAct} (hhost : s.host = .request w :: rest)
    (h : stepRequest w s = .next t) : NextState s t := by
  unfold stepRequest at h
  split at h
  · next hbusy => cases h; exact .waiting hbusy
  · next hbusy =>
    split at h
    · next i hdec => exact .request hhost (Bool.eq_false_iff.2 hbusy) hdec h
    · cases h

theorem nextState_of_stepHost {s t : State} (h : stepHost s = .next t) : NextState s t := by
  unfold stepHost at h
  split at h
  · next hhost => cases h; exact .idle hhost
  · next hhost => exact nextState_of_stepReadReg hhost h
  · next hhost => exact nextState_of_stepFbWrite hhost h
  · next hhost => exact nextState_of_stepMarkerWrite hhost h
  · next hhost => exact nextState_of_stepRequest hhost h
  · next hhost => cases h; exact .powerOn hhost
  · next hhost => cases h; exact .externalReset hhost

/-- Every way a step answers a next state; the build is legal then (R182). -/
theorem nextState_of_step {s t : State} (h : step s = .next t) : legal s.cfg = true ∧ NextState s t := by
  by_cases hl : legal s.cfg = true
  · rw [step_of_legal hl] at h
    unfold stepLegal at h
    refine ⟨hl, ?_⟩
    split at h
    · next hlife => cases h; exact .watchdog hlife
    · exact nextState_of_stepHost h
    · exact nextState_of_stepHost h
  · rw [step_of_not_legal hl] at h; cases h

/-! ### No operation changes the build (R6, R63) -/

/-- Wherever the flow `r` of a part begun at `s` ends, the build is that of `s`. -/
def KeepsBuild (s : State) (r : Run) : Prop := r.Ends (fun t => t.cfg = s.cfg) fun t => t.cfg = s.cfg

theorem KeepsBuild.bind {s : State} {r : Run} {f : State → Run} (h : KeepsBuild s r) (hf : ∀ t, KeepsBuild t (f t)) :
    KeepsBuild s (r.bind f) :=
  Run.Ends.bind h fun t ht => ht ▸ hf t

theorem KeepsBuild.settle_cfg {s : State} {r : Run} (h : KeepsBuild s r) : r.settle.cfg = s.cfg := by
  cases r with
  | reached t => exact h.1 t rfl
  | stuck t => exact h.2 t rfl

theorem Streams.keepsBuild {l : List Event} {n : Nat} {P Q : State → Prop} {s : State} {r : Run} (h : Streams l n P Q s r) :
    KeepsBuild s r :=
  Run.Ends.mono h (fun _ ht => ht.1.part.cfg) fun _ ht => ht.1.part.cfg

theorem Flows.keepsBuild {P : State → Prop} {s : State} {r : Run} (h : Flows P s r) : KeepsBuild s r := by
  obtain ⟨l, n, h⟩ := h
  exact h.keepsBuild

theorem cfgpinsBody_keepsBuild (s : State) : KeepsBuild s (cfgpinsBody s) := Run.ends_reached rfl

theorem cfgbusBody_keepsBuild (s : State) : KeepsBuild s (cfgbusBody s) := Run.ends_reached rfl

theorem cfgpwrBody_keepsBuild (s : State) : KeepsBuild s (cfgpwrBody s) := Run.ends_reached rfl

theorem bootBody_keepsBuild (s : State) : KeepsBuild s (bootBody s) :=
  (((cfgpinsBody_keepsBuild s).bind cfgbusBody_keepsBuild).bind fun t => (bootDisplay_streams t).keepsBuild).bind
    cfgpwrBody_keepsBuild

theorem safemodeBody_keepsBuild (s : State) : KeepsBuild s (safemodeBody s) := by
  obtain ⟨-, e, he, -⟩ := drawButtons_spec s
  unfold safemodeBody
  simp only [he]
  split
  · exact Run.ends_reached rfl
  · obtain ⟨p, hp, -⟩ := enterSafeHalt_spec ((s.setEnv e).emit (.btn s.drawButtons.1))
    exact Run.ends_stuck (by rw [hp]; rfl)

theorem setch_keepsBuild (ch : BitVec 2) (v : Byte) (s : State) : KeepsBuild s (opBody (.setch ch v) s) := by
  simp only [opBody]
  split
  · next c _ =>
    obtain ⟨t, hreach, rfl⟩ := setchBody_spec c v s
    rw [hreach]
    exact Run.ends_reached rfl
  · exact Run.ends_reached rfl

theorem idleBody_keepsBuild (s : State) : KeepsBuild s (idleBody s) := by
  obtain ⟨t, hrest, hwake, hsleep⟩ := idleBody_spec s
  cases hw : s.wakeNow with
  | true => rw [(hwake hw).1]; exact Run.ends_reached hrest.cfg
  | false => rw [(hsleep hw).1]; exact Run.ends_stuck hrest.cfg

theorem mrestartBody_keepsBuild (s : State) : KeepsBuild s (mrestartBody s) := by
  obtain ⟨e, hwhole, hlow, hhigh⟩ := mrestartBody_spec s
  cases ht : s.tearNow with
  | whole => rw [hwhole ht]; exact Run.ends_stuck rfl
  | lowOnly => rw [hlow ht]; exact Run.ends_stuck rfl
  | highOnly => rw [hhigh ht]; exact Run.ends_stuck rfl

/-- The pseudocode of every operation, complete or stuck, leaves the build as it was. -/
theorem opBody_keepsBuild (i : Instr) (s : State) : KeepsBuild s (opBody i s) := by
  cases i with
  | xfer b => exact (transfer_streams s b).keepsBuild.bind fun _ => Run.ends_reached rfl
  | boot => exact bootBody_keepsBuild s
  | sendcmd _ | bootdisp | shutdown | invert _ | fliph _ | flipv _ | allon _ | contrast _ | paint _ =>
    exact (opBody_flows rfl (by simp) (by simp) s).keepsBuild
  | safemode => exact safemodeBody_keepsBuild s
  | setch ch v => exact setch_keepsBuild ch v s
  | idle => exact idleBody_keepsBuild s
  | mrestart => exact mrestartBody_keepsBuild s
  | rdbtn =>
    obtain ⟨-, e, he, -⟩ := drawButtons_spec s
    exact Run.ends_reached (by rw [he]; rfl)
  | cfgbus => exact cfgbusBody_keepsBuild s
  | cfgpins => exact cfgpinsBody_keepsBuild s
  | cfgpwr => exact cfgpwrBody_keepsBuild s
  | cmdmode | datamode | relch | getw | geth => exact Run.ends_reached rfl

theorem exec_cfg {i : Instr} {s t : State} (h : exec i s = .next t) : t.cfg = s.cfg := by
  rw [next_of_exec h]
  exact (opBody_keepsBuild i (s.accept i)).settle_cfg

theorem NextState.cfg {s t : State} (h : NextState s t) : t.cfg = s.cfg := by
  cases h with
  | request _ _ _ hexec => exact (exec_cfg hexec).trans s.dropHost_cfg
  | watchdog | idle | waiting | readReg | fbWrite | markerWrite | powerOn | externalReset => rfl

end Sys2Proof.Machine

open Sys2Proof Sys2Proof.Machine

/-- Settles O9: a legal build meets every constraint, so a build that breaks one is not legal. -/
theorem illegalBuildRefused : Obligations.IllegalBuildRefused := by
  intro s hbad
  refine step_of_not_legal fun hlegal => ?_
  obtain ⟨hgeo, hcmd, hdiv, hexp, hbtn⟩ := legal_parts hlegal
  obtain ⟨hw1, hw255, hh8, hh248, hmod⟩ := legalGeometry_bounds hgeo
  obtain ⟨hshut, htable, hpages, hpagesNodup⟩ := legalCommands_lists hcmd
  obtain ⟨hnb1, hnb8, hbits, hbitsNodup, hup⟩ := legalButtons_bounds hbtn
  obtain ⟨hon4, hon2⟩ := legalExpander_onLevels hexp
  rcases hbad with h | h | h | h | h | ⟨p, hp, h⟩ | h | h | h | h | h | h | ⟨k, hk, h⟩ | h | h | h | h | h | ⟨hfam, h⟩
  · exact absurd h (Nat.not_lt.2 hw1)
  · exact absurd h (Nat.not_lt.2 hw255)
  · exact absurd h (Nat.not_lt.2 hh8)
  · exact absurd h (Nat.not_lt.2 hh248)
  · exact h hmod
  · exact legalCommands_toggles hcmd p hp h
  · exact absurd h (Nat.not_lt.2 hshut)
  · exact absurd h (Nat.not_lt.2 htable)
  · exact h hpages
  · exact h hpagesNodup
  · exact absurd h (Nat.not_lt.2 hnb1)
  · exact absurd h (Nat.not_lt.2 hnb8)
  · exact absurd h (Nat.not_le.2 (hbits k hk))
  · exact h hbitsNodup
  · exact absurd h (Nat.not_le.2 hup)
  · exact absurd h (Nat.not_lt.2 hdiv)
  · exact hon4 h
  · exact hon2 h
  · exact h (covers_of_legal hlegal hfam).perm

/-- Settles O56, by the ways a step answers a next state; an operation keeps the build wherever its flow ends. -/
theorem buildNeverChanges : Obligations.BuildNeverChanges := fun _ _ h => (nextState_of_step h).2.cfg

end

section
/-! SUPPORT. The state (spec/10_state.md): the register map, what PAINT keeps, that DSTATE follows the DC line, and the invariant
of the machine, carried through the parts of an operation by `Working`. -/

namespace Sys2Proof.Machine

/-! ### The register map (R40) -/

theorem regBusCfg_getLsbD (b : BusUnit) :
    (regBusCfg b).getLsbD 7 = b.en ∧ (regBusCfg b).getLsbD 6 = b.role ∧ (regBusCfg b).getLsbD 5 = b.order
      ∧ (regBusCfg b).getLsbD 4 = b.cpol ∧ (regBusCfg b).getLsbD 3 = b.cpha ∧ (regBusCfg b).getLsbD 2 = false
      ∧ (regBusCfg b).getLsbD 1 = false ∧ (regBusCfg b).getLsbD 0 = false := by
  unfold regBusCfg
  cases b.en <;> cases b.role <;> cases b.order <;> cases b.cpol <;> cases b.cpha <;> decide

theorem regBusStat_getLsbD (b : BusUnit) :
    (regBusStat b).getLsbD 7 = b.doneFlag ∧ (regBusStat b).getLsbD 6 = b.busyFlag
      ∧ ∀ k < 6, (regBusStat b).getLsbD k = false := by
  unfold regBusStat
  cases b.doneFlag <;> cases b.busyFlag <;> decide

theorem regDispCtl_getLsbD (d : Display) :
    (regDispCtl d).getLsbD 0 = (d.dc == .data) ∧ (regDispCtl d).getLsbD 1 = d.drst
      ∧ (regDispCtl d).getLsbD 2 = (d.dstate == .commandMode || d.dstate == .off)
      ∧ (regDispCtl d).getLsbD 3 = (d.dstate == .dataMode || d.dstate == .off)
      ∧ ∀ k, 4 ≤ k → (regDispCtl d).getLsbD k = false := by
  have low : (regDispCtl d).toNat < 2 ^ 4 := by
    unfold regDispCtl
    cases d.dstate <;> cases d.drst <;> cases d.dc <;> decide
  have high : ∀ k, 4 ≤ k → (regDispCtl d).getLsbD k = false := fun k hk =>
    Nat.testBit_lt_two_pow (low.trans_le (Nat.pow_le_pow_right (by decide) hk))
  refine ⟨?_, ?_, ?_, ?_, high⟩
  all_goals
    unfold regDispCtl
    cases d.dstate <;> cases d.drst <;> cases d.dc <;> decide

theorem regOpStat_getLsbD (p : Port) :
    (regOpStat p).getLsbD 7 = p.opBusy ∧ (regOpStat p).getLsbD 0 = (p.life == .safeHalt)
      ∧ (regOpStat p).getLsbD 1 = (p.life == .resetPending) ∧ ∀ k, 2 ≤ k → k < 7 → (regOpStat p).getLsbD k = false := by
  have middle : ∀ k < 7, 2 ≤ k → (regOpStat p).getLsbD k = false := by
    unfold regOpStat
    cases p.opBusy <;> cases p.life <;> decide
  refine ⟨?_, ?_, ?_, fun k h2 h7 => middle k h7 h2⟩
  all_goals
    unfold regOpStat
    cases p.opBusy <;> cases p.life <;> decide

/-- Register 7 is the only one the map does not have (R40, R60). -/
theorem State.reg_of_ne_seven (s : State) {idx : BitVec 3} (h : idx ≠ 7#3) : ∃ v, s.reg idx = some v := by
  have listed : ∀ i : BitVec 3, i ≠ 7#3 → i = 0#3 ∨ i = 1#3 ∨ i = 2#3 ∨ i = 3#3 ∨ i = 4#3 ∨ i = 5#3 ∨ i = 6#3 := by decide
  rcases listed idx h with rfl | rfl | rfl | rfl | rfl | rfl | rfl <;> exact ⟨_, rfl⟩

theorem State.regRead_none (s : State) : s.regRead 7#3 = none := by
  unfold State.regRead
  split <;> rfl

/-- A read of a register that exists is answered, with the register itself unless an operation is in progress (R40). -/
theorem State.regRead_some (s : State) {idx : BitVec 3} (h : idx ≠ 7#3) :
    ∃ v, s.regRead idx = some v ∧ (s.port.opBusy = false ∨ idx = 5#3 → s.reg idx = some v) := by
  obtain ⟨r, hr⟩ := s.reg_of_ne_seven h
  unfold State.regRead
  split
  · next hhid =>
    refine ⟨_, by rw [hr]; rfl, fun hshown => ?_⟩
    rw [Bool.and_eq_true, bne_iff_ne] at hhid
    rcases hshown with hfree | hfive
    · simp [hfree] at hhid
    · exact absurd hfive hhid.2
  · exact ⟨r, hr, fun _ => hr⟩

/-- A step in which no reset is pending takes the outside's next action. -/
theorem step_eq_stepHost {s : State} (hl : legal s.cfg = true) (h : s.port.life ≠ .resetPending) : step s = stepHost s := by
  rw [step_of_legal hl, stepLegal]
  cases hlife : s.port.life with
  | resetPending => exact absurd hlife h
  | running | safeHalt => rfl

theorem stepHost_readReg {s : State} {idx : BitVec 3} {rest : List HostAct} (h : s.host = .readReg idx :: rest) :
    stepHost s = stepReadReg idx s := by
  rw [stepHost, h]

/-! ### What PAINT keeps -/

/-- The framebuffer indices a PAINT visits, in its order (R172, R174, R181). -/
def paintIndices (c : Cfg) : List Nat :=
  match c.family with
  | .paged1 => (List.range (pageCount c)).flatMap fun p => (List.range c.width).map fun k => p * c.width + k
  | .linear1 => List.range (fbSize c)
  | .exp4 | .exp2 => traversal c.expander

theorem paintIndices_lt {c : Cfg} (h : legal c = true) : ∀ a ∈ paintIndices c, a < fbSize c := by
  unfold paintIndices
  split
  · intro a ha
    obtain ⟨p, hp, ha⟩ := List.mem_flatMap.1 ha
    obtain ⟨k, hk, rfl⟩ := List.mem_map.1 ha
    have hpage : (p + 1) * c.width ≤ pageCount c * c.width := Nat.mul_le_mul_right _ (List.mem_range.1 hp)
    rw [pageCount_mul_width h, Nat.succ_mul] at hpage
    have hcol := List.mem_range.1 hk
    omega
  · exact fun a ha => List.mem_range.1 ha
  · next hf => exact (covers_of_legal h (.inl hf)).below
  · next hf => exact (covers_of_legal h (.inr hf)).below

/-- `P` survives each primitive of a PAINT in the build `c`. -/
structure PaintStable (c : Cfg) (P : State → Prop) : Prop where
  build     : ∀ {t}, P t → t.cfg = c
  setEng    : ∀ {t} (e : Engine), P t → P (t.setEng e)
  enterMode : ∀ {t} (m : DcMode), P t → P (t.enterMode m)
  clearIf   : ∀ {t i}, i ∈ paintIndices c → P t → P (t.clearIf i)
  butBus    : ∀ {t u}, SameButBus t u → P t → P u

section
variable {c : Cfg} {P : State → Prop}

theorem PaintStable.transfer (h : PaintStable c P) {t : State} (ht : P t) (b : Byte) : (t.transfer b).Ends P P :=
  (transfer_ends t b).mono (fun _ hu => h.butBus hu.rest ht) fun _ hu => h.butBus hu.rest ht

theorem PaintStable.paintByte (h : PaintStable c P) {t : State} (ht : P t) {i : Nat} (hi : i ∈ paintIndices c) :
    (paintByte i t).Ends P P :=
  h.transfer (h.clearIf hi (h.setEng _ ht)) _

theorem PaintStable.paintPage (h : PaintStable c P) {t : State} (ht : P t) {p : Nat}
    (hp : ∀ k < c.width, p * c.width + k ∈ paintIndices c) : (paintPage p t).Ends P P := by
  refine (h.transfer (h.enterMode .cmd (h.setEng _ ht)) _).bind fun u hu => (h.transfer hu _).bind fun v hv => ?_
  refine loop_ends (P := fun _ => P) (h.enterMode .data hv) fun k w hk hw => ?_
  rw [h.build hv] at hk
  unfold paintColumn
  rw [h.build hw]
  exact h.paintByte (h.setEng _ hw) (hp k hk)

theorem PaintStable.expandPair (h : PaintStable c P) (pack : Expander → Byte → Byte → Byte) (n sh : Nat) {x q : Nat} {t : State}
    (ht : P t) (hi : pairIndex c.expander x q ∈ paintIndices c)
    (hj : pairIndex c.expander x q + c.expander.pairOffset ∈ paintIndices c) :
    (expandPair pack n sh x q t).Ends P P := by
  unfold Machine.expandPair
  rw [h.build ht]
  refine Run.Ends.map (P := P) ?_ fun u hu => h.setEng _ hu
  refine loop_ends (P := fun _ => P) (h.clearIf hj (h.clearIf hi (h.setEng _ ht))) fun k u _ hu => ?_
  exact (h.transfer (h.setEng _ hu) _).map fun v hv => h.setEng _ hv

theorem PaintStable.paintExpand (h : PaintStable c P) (pack : Expander → Byte → Byte → Byte) (n sh : Nat) {t : State} (ht : P t)
    (hidx : traversal c.expander ⊆ paintIndices c) : (paintExpand pack n sh t).Ends P P := by
  refine loop_ends (P := fun _ => P) (h.setEng _ ht) fun x u hx hu => Run.Ends.map (P := P) ?_ fun v hv => h.setEng _ hv
  refine loop_ends (P := fun _ => P) (h.setEng _ hu) fun q v hq hv => ?_
  rw [h.build ht] at hx
  rw [h.build hu] at hq
  have visited : ∀ a ∈ [pairIndex c.expander x q, pairIndex c.expander x q + c.expander.pairOffset], a ∈ paintIndices c :=
    fun a ha => hidx (List.mem_flatMap.2 ⟨x, List.mem_range.2 hx, List.mem_flatMap.2 ⟨q, List.mem_range.2 hq, ha⟩⟩)
  exact h.expandPair pack n sh hv (visited _ (by simp)) (visited _ (by simp))

/-- The induction over a PAINT, in any family and however it ends (R170). -/
theorem PaintStable.paintBody (h : PaintStable c P) (f : Bool) {s : State} (hs : P s) : (paintBody f s).Ends P P := by
  have hc := h.build hs
  have hclr : P (s.setEng { s.eng with clr := f }) := h.setEng _ hs
  unfold Machine.paintBody
  simp only [State.setEng_cfg, hc]
  cases hf : c.family with
  | paged1 =>
    refine loop_ends (P := fun _ => P) hclr fun p t hp ht => h.paintPage ht fun k hk => ?_
    rw [State.setEng_cfg, hc] at hp
    simp only [paintIndices, hf]
    exact List.mem_flatMap.2 ⟨p, List.mem_range.2 hp, List.mem_map.2 ⟨k, List.mem_range.2 hk, rfl⟩⟩
  | linear1 =>
    refine loop_ends (P := fun _ => P) hclr fun i t hi ht => h.paintByte ht ?_
    rw [State.setEng_cfg, hc] at hi
    simp only [paintIndices, hf]
    exact List.mem_range.2 hi
  | exp4 => exact h.paintExpand pack4 8 1 hclr (by simp [paintIndices, hf])
  | exp2 => exact h.paintExpand pack2 4 2 hclr (by simp [paintIndices, hf])

end

/-! ### DSTATE follows the DC line (R31) -/

theorem ModesAgree.of_disp {s t : State} (h : ModesAgree s) (hd : t.disp = s.disp) : ModesAgree t := by
  unfold ModesAgree
  rw [hd]
  exact h

/-- After an entry into mode `m` the two agree, whatever they were before (R140 to R142). -/
theorem modesAgree_of_entered {s : State} (m : DcMode) (old : DState) (hdc : s.disp.dc = m)
    (hd : s.disp.dstate = dstateThen (modeState m) old) : ModesAgree s := by
  unfold ModesAgree
  rw [hdc, hd]
  cases m <;> cases old <;> decide

theorem enterMode_modesAgree (s : State) (m : DcMode) : ModesAgree (s.enterMode m) :=
  modesAgree_of_entered m s.disp.dstate (by rw [enterMode_disp]) (by rw [enterMode_disp])

/-- In Uninitialized and Off there is nothing to agree on. -/
theorem modesAgree_of_outside {s : State} (h : s.disp.dstate = .uninitialized ∨ s.disp.dstate = .off) : ModesAgree s := by
  unfold ModesAgree
  rcases h with h | h <;> rw [h] <;> exact ⟨nofun, nofun⟩

theorem paintStable_modesAgree (c : Cfg) : PaintStable c fun t => t.cfg = c ∧ ModesAgree t where
  build := fun ht => ht.1
  setEng := fun _ ht => ht
  enterMode := fun {t} m ht => ⟨ht.1, enterMode_modesAgree t m⟩
  clearIf := fun _ ht => ⟨(clearIf_cfg _ _).trans ht.1, ht.2.of_disp (clearIf_disp _ _)⟩
  butBus := fun hu ht => ⟨hu.cfg.trans ht.1, ht.2.of_disp hu.disp⟩

/-- Where a flow begun in an operation reaches its end, DSTATE and the line agree; where it is stuck, they do so too or the
operation is still in progress. -/
def EndsAgreeing (r : Run) : Prop := r.Ends ModesAgree fun t => t.port.opBusy = true ∨ ModesAgree t

theorem Streams.endsAgreeing {l : List Event} {n : Nat} {P Q : State → Prop} {s : State} {r : Run} (h : Streams l n P Q s r)
    (hs : s.port.opBusy = true) (hP : ∀ t, P t → ModesAgree t) : EndsAgreeing r :=
  Run.Ends.mono h (fun t ht => hP t ht.2) fun t ht => .inl (by rw [ht.1.part.port]; exact hs)

theorem sendCommand_endsAgreeing (c : Byte) {s : State} (hs : s.port.opBusy = true) : EndsAgreeing (sendCommand c s) :=
  (sendCommand_streams c s).endsAgreeing hs fun t ht =>
    modesAgree_of_entered .data s.disp.dstate (by rw [ht.1]) (by rw [ht.1]; rfl)

theorem modesAgree_of_booted {s : State} {c : Cfg} (h : s.disp = bootedDisplay c) : ModesAgree s :=
  modesAgree_of_entered .data .dataMode (by rw [h]; rfl) (by rw [h]; rfl)

theorem bootBody_endsAgreeing {s : State} (hs : s.port.opBusy = true) : EndsAgreeing (bootBody s) := by
  have hboot (t : State) (ht : t.port.opBusy = true) : EndsAgreeing (bootDisplay t) :=
    (bootDisplay_streams t).endsAgreeing ht fun u hu => modesAgree_of_booted hu.1
  exact Run.Ends.bind (hboot _ hs) fun t ht => Run.ends_reached (ht.of_disp rfl)

theorem safemodeBody_endsAgreeing {s : State} (hs : s.port.opBusy = true) (h : ModesAgree s) :
    EndsAgreeing (safemodeBody s) := by
  obtain ⟨-, e, he, -⟩ := drawButtons_spec s
  unfold safemodeBody
  simp only [he]
  split
  · exact Run.ends_reached (h.of_disp rfl)
  · obtain ⟨p, hp, -⟩ := enterSafeHalt_spec ((s.setEnv e).emit (.btn s.drawButtons.1))
    exact Run.ends_stuck (.inl (by rw [hp]; exact hs))

theorem idleBody_endsAgreeing {s : State} (hs : s.port.opBusy = true) (h : ModesAgree s) : EndsAgreeing (idleBody s) := by
  obtain ⟨t, hrest, hwake, hsleep⟩ := idleBody_spec s
  cases hw : s.wakeNow with
  | true => rw [(hwake hw).1]; exact Run.ends_reached (h.of_disp hrest.disp)
  | false => rw [(hsleep hw).1]; exact Run.ends_stuck (.inl (by rw [hrest.port]; exact hs))

theorem mrestartBody_endsAgreeing {s : State} (hs : s.port.opBusy = true) : EndsAgreeing (mrestartBody s) := by
  obtain ⟨e, hwhole, hlow, hhigh⟩ := mrestartBody_spec s
  cases ht : s.tearNow with
  | whole => rw [hwhole ht]; exact Run.ends_stuck (.inl hs)
  | lowOnly => rw [hlow ht]; exact Run.ends_stuck (.inr (modesAgree_of_outside (.inl rfl)))
  | highOnly => rw [hhigh ht]; exact Run.ends_stuck (.inr (modesAgree_of_outside (.inl rfl)))

/-- Every operation but CFGPINS, from a state in which DSTATE and the line agree. -/
theorem opBody_endsAgreeing {i : Instr} (hi : i ≠ .cfgpins) {s : State} (hs : s.port.opBusy = true) (h : ModesAgree s) :
    EndsAgreeing (opBody i s) := by
  cases i with
  | cfgpins => exact absurd rfl hi
  | cmdmode | datamode => exact Run.ends_reached (enterMode_modesAgree s _)
  | sendcmd _ | invert _ | fliph _ | flipv _ | allon _ | contrast _ => exact sendCommand_endsAgreeing _ hs
  | xfer b =>
    exact Run.Ends.map ((transfer_streams s b).endsAgreeing hs fun t ht => h.of_disp ht.disp) fun t ht => ht.of_disp rfl
  | bootdisp => exact (bootDisplay_streams s).endsAgreeing hs fun t ht => modesAgree_of_booted ht.1
  | shutdown =>
    exact (shutdownBody_streams s).endsAgreeing hs fun t ht => modesAgree_of_outside (.inr (by rw [ht.1]))
  | paint f =>
    exact Run.Ends.mono ((paintStable_modesAgree s.cfg).paintBody f ⟨rfl, h⟩) (fun _ ht => ht.2) fun _ ht => .inr ht.2
  | rdbtn =>
    obtain ⟨-, e, he, -⟩ := drawButtons_spec s
    exact Run.ends_reached (h.of_disp (by rw [he]; rfl))
  | setch ch v =>
    simp only [opBody]
    split
    · next c _ =>
      obtain ⟨t, hreach, rfl⟩ := setchBody_spec c v s
      rw [hreach]
      exact Run.ends_reached (h.of_disp rfl)
    · exact Run.ends_reached h
  | boot => exact bootBody_endsAgreeing hs
  | safemode => exact safemodeBody_endsAgreeing hs h
  | idle => exact idleBody_endsAgreeing hs h
  | mrestart => exact mrestartBody_endsAgreeing hs
  | cfgbus | cfgpwr | relch | getw | geth => exact Run.ends_reached (h.of_disp rfl)

/-! ### The parts of the invariant -/

/-- FB is canonical and in range (R60, R61). -/
def FbFits (s : State) : Prop := s.fb.wf = true ∧ s.fb.below (fbSize s.cfg) = true

/-- MK is canonical and in range (R60, R64). -/
def MkFits (s : State) : Prop := s.marker.wf = true ∧ s.marker.below 2 = true

/-- An enabled bus carries the build's configuration (R123). -/
def Configured (s : State) : Prop :=
  s.bus.en = true → s.bus.role = true ∧ s.bus.cpol = s.cfg.busSetup.cpol ∧ s.bus.cpha = s.cfg.busSetup.cpha
    ∧ s.bus.order = s.cfg.busSetup.order ∧ s.bus.div = s.cfg.busSetup.div

/-- A waveform only on a capable channel, with a compare value from 1 to 254 (R216, R217). -/
def ChanSound (c : Cfg) (ch : Channel) (x : RgbChan) : Prop :=
  x.pwmEn = true → perChannel c.pwmCapable ch = true ∧ 1 ≤ x.pwmCmp.toNat ∧ x.pwmCmp.toNat ≤ 254

/-- Every channel's waveform is sound. -/
def WaveformsSound (s : State) : Prop := ∀ ch, ChanSound s.cfg ch (s.chan ch)

/-- No byte is in flight on a bus that is not enabled or idles at CPOL with the build's configuration (R24, R25, R123). -/
structure BusSettled (s : State) : Prop where
  quiet      : s.bus.busyFlag = false
  configured : Configured s
  idleClock  : s.bus.en = true → s.bus.sck = s.bus.cpol

theorem FbFits.of_eq {s t : State} (h : FbFits s) (hc : t.cfg = s.cfg) (hf : t.fb = s.fb) : FbFits t := by
  unfold FbFits
  rw [hc, hf]
  exact h

theorem FbFits.fbWrite {s : State} (h : FbFits s) {i : Nat} (hi : i < fbSize s.cfg) (v : Byte) : FbFits (s.fbWrite i v) :=
  ⟨Memory.write_wf i v h.1, Memory.write_below h.2 hi⟩

theorem FbFits.clearIf {s : State} (h : FbFits s) {i : Nat} (hi : i < fbSize s.cfg) : FbFits (s.clearIf i) := by
  unfold State.clearIf
  split
  · exact h.fbWrite hi _
  · exact h

theorem MkFits.mkWrite {s : State} (h : MkFits s) {i : Nat} (hi : i < 2) (v : Byte) : MkFits (s.mkWrite i v) :=
  ⟨Memory.write_wf i v h.1, Memory.write_below h.2 hi⟩

theorem MkFits.of_eq {s t : State} (h : MkFits s) (hm : t.marker = s.marker) : MkFits t := by
  unfold MkFits
  rw [hm]
  exact h

theorem Configured.of_setup {s t : State} (h : Configured s) (hb : SameBusSetup s t) (hc : t.cfg = s.cfg) :
    Configured t := by
  obtain ⟨hen, hrole, horder, hcpol, hcpha, hdiv⟩ := hb
  unfold Configured
  rw [hen, hrole, horder, hcpol, hcpha, hdiv, hc]
  exact h

theorem ChanSound.of_eq {c : Cfg} {ch : Channel} {x y : RgbChan} (h : ChanSound c ch x) (hen : y.pwmEn = x.pwmEn)
    (hcmp : y.pwmCmp = x.pwmCmp) : ChanSound c ch y := by
  unfold ChanSound
  rw [hen, hcmp]
  exact h

theorem chanSound_of_off {c : Cfg} {ch : Channel} {x : RgbChan} (h : x.pwmEn = false) : ChanSound c ch x := fun hen => by
  rw [h] at hen; cases hen

theorem pwmCompare_bounds (c : Cfg) (ch : Channel) {v : Byte} (h0 : v ≠ 0#8) (h255 : v ≠ 255#8) :
    1 ≤ (pwmCompare c ch v).toNat ∧ (pwmCompare c ch v).toNat ≤ 254 := by
  unfold pwmCompare
  split <;> bv_omega

/-- SETCH turns a waveform on only on a capable channel and only for an intermediate value (R214 to R217). -/
theorem ChanSound.setchChan {c : Cfg} {ch : Channel} {x : RgbChan} (h : ChanSound c ch x) (v : Byte) :
    ChanSound c ch (setchChan c ch v x) := by
  unfold Machine.setchChan
  split
  · next hcap =>
    split
    · exact chanSound_of_off rfl
    · next h0 =>
      split
      · exact chanSound_of_off rfl
      · next h255 => exact fun _ => ⟨hcap, pwmCompare_bounds c ch h0 h255⟩
  · exact h.of_eq rfl rfl

theorem WaveformsSound.of_eq {s t : State} (h : WaveformsSound s) (hc : t.cfg = s.cfg) (hp : t.plat = s.plat) :
    WaveformsSound t := by
  unfold WaveformsSound State.chan
  rw [hc, hp]
  exact h

theorem paintStable_fbFits {c : Cfg} (hl : legal c = true) : PaintStable c fun t => t.cfg = c ∧ FbFits t where
  build := fun ht => ht.1
  setEng := fun _ ht => ht
  enterMode := fun _ ht => ht
  clearIf := fun hi ht => ⟨(clearIf_cfg _ _).trans ht.1, ht.2.clearIf (by rw [ht.1]; exact paintIndices_lt hl _ hi)⟩
  butBus := fun hu ht => ⟨hu.cfg.trans ht.1, ht.2.of_eq hu.cfg hu.fb⟩

/-! ### The invariant at rest -/

/-- After a reset the invariant needs only the marker, which a reset may keep (R39, R44). -/
theorem AtReset.inv {s : State} (h : AtReset s) (hfb : s.fb = []) (hmk : MkFits s) : Inv s := by
  obtain ⟨hen, -, -, hquiet⟩ := h.bus
  obtain ⟨hbusy, hlife⟩ := h.port
  obtain ⟨-, -, hawake⟩ := h.ghosts
  exact
    { fb := by rw [hfb]; exact ⟨rfl, rfl⟩
      marker := hmk
      flags := fun hb => by rw [hquiet] at hb; cases hb
      inFlight := fun hb => by rw [hquiet] at hb; cases hb
      configured := fun he => by rw [hen] at he; cases he
      idleClock := fun he => by rw [hen] at he; cases he
      occupied := fun ho => by rw [hlife, hawake] at ho; rcases ho with ho | ho <;> [exact absurd rfl ho; cases ho]
      ack := fun hb => by rw [hbusy] at hb; cases hb
      waveform := fun ch hch => by rw [h.pwm ch] at hch; cases hch }

theorem hardReset_inv {s : State} (h : MkFits s) (k : ResetKind) : Inv (s.hardReset k) := by
  refine (hardReset_atReset s k).inv rfl ?_
  cases k with
  | powerOn => exact ⟨rfl, rfl⟩
  | external | watchdog => exact h

theorem State.reset_atReset : AtReset State.reset where
  bus := ⟨rfl, rfl, rfl, rfl⟩
  driver := rfl
  port := ⟨rfl, rfl⟩
  ghosts := ⟨rfl, rfl, rfl⟩
  pwm := fun ch => by cases ch <;> rfl
  trace := rfl

/-- The invariant of a state that differs only in its memories and in what it does not speak of. -/
theorem Inv.of_memory {s t : State} (h : Inv s) (hfb : FbFits t) (hmk : MkFits t) (hc : t.cfg = s.cfg) (hb : t.bus = s.bus)
    (hbusy : t.port.opBusy = s.port.opBusy) (hack : t.port.opAck = s.port.opAck) (hlife : t.port.life = s.port.life)
    (hp : t.plat = s.plat) : Inv t where
  fb := hfb
  marker := hmk
  flags := by rw [hb]; exact h.flags
  inFlight := by rw [hb, hbusy]; exact h.inFlight
  configured := by rw [hb, hc]; exact h.configured
  idleClock := by rw [hb]; exact h.idleClock
  occupied := by rw [hlife, hp, hbusy]; exact h.occupied
  ack := by rw [hbusy, hack]; exact h.ack
  waveform := WaveformsSound.of_eq h.waveform hc hp

/-! ### The invariant inside an operation -/

/-- The invariant between two parts of an operation that goes on: no byte is in flight, and the block neither sleeps nor waits
for a reset. -/
structure Working (s : State) : Prop where
  fb       : FbFits s
  marker   : MkFits s
  bus      : BusSettled s
  accepted : s.port.opBusy = true ∧ s.port.opAck = false
  awake    : s.port.life = .running ∧ s.plat.sleeping = false
  waveform : WaveformsSound s

/-- A flow that keeps the invariant: it goes on as `Working`, or it is stuck in a state that meets the invariant. -/
def KeepsInv (r : Run) : Prop := r.Ends Working Inv

theorem KeepsInv.bind {r : Run} {f : State → Run} (h : KeepsInv r) (hf : ∀ t, Working t → KeepsInv (f t)) :
    KeepsInv (r.bind f) :=
  Run.Ends.bind h hf

/-- An accepted request begins in `Working` (R95). -/
theorem Inv.accept {s : State} (h : Inv s) (hbusy : s.port.opBusy = false) (i : Instr) : Working (s.accept i) := by
  have hquiet : s.bus.busyFlag = false := by
    by_contra hb
    have := (h.inFlight (Bool.eq_true_of_not_eq_false hb)).1
    rw [hbusy] at this; cases this
  have hfree : ¬ (s.port.life ≠ .running ∨ s.plat.sleeping = true) := fun ho => by
    have := h.occupied ho
    rw [hbusy] at this; cases this
  rw [not_or, not_not, Bool.not_eq_true] at hfree
  exact
    { fb := h.fb
      marker := h.marker
      bus := ⟨hquiet, h.configured, fun he => h.idleClock he hquiet⟩
      accepted := ⟨rfl, rfl⟩
      awake := hfree
      waveform := h.waveform }

/-- A completed operation leaves the invariant (R95). -/
theorem Working.complete {s : State} (h : Working s) : Inv s.complete where
  fb := h.fb
  marker := h.marker
  flags := fun hb => absurd hb (by rw [State.complete_bus, h.bus.quiet]; decide)
  inFlight := fun hb => absurd hb (by rw [State.complete_bus, h.bus.quiet]; decide)
  configured := h.bus.configured
  idleClock := fun he _ => h.bus.idleClock he
  occupied := fun ho => by
    rcases ho with ho | ho
    · exact absurd h.awake.1 ho
    · exact absurd h.awake.2 (by rw [← State.complete_plat, ho]; decide)
  ack := nofun
  waveform := h.waveform

theorem KeepsInv.settle {r : Run} (h : KeepsInv r) : Inv r.settle := by
  cases r with
  | reached t => exact (h.1 t rfl).complete
  | stuck t => exact h.2 t rfl

/-- An operation that is stuck with no byte in flight, whatever LIFE and SLEEPING say (R97, R266). -/
theorem inv_of_occupied {s : State} (hfb : FbFits s) (hmk : MkFits s) (hbus : BusSettled s)
    (hacc : s.port.opBusy = true ∧ s.port.opAck = false) (hw : WaveformsSound s) : Inv s where
  fb := hfb
  marker := hmk
  flags := fun hb => absurd hb (by rw [hbus.quiet]; decide)
  inFlight := fun hb => absurd hb (by rw [hbus.quiet]; decide)
  configured := hbus.configured
  idleClock := fun he _ => hbus.idleClock he
  occupied := fun _ => hacc.1
  ack := fun _ => hacc.2
  waveform := hw

theorem BusSettled.of_eq {s t : State} (h : BusSettled s) (hc : t.cfg = s.cfg) (hb : t.bus = s.bus) : BusSettled t where
  quiet := by rw [hb]; exact h.quiet
  configured := h.configured.of_setup (by rw [SameBusSetup, hb]; simp) hc
  idleClock := by rw [hb]; exact h.idleClock

/-- The bus after a part that streamed some bytes or none. -/
theorem BusSettled.of_flow {s t : State} (h : BusSettled s) (hp : Part s t) (hb : t.bus = s.bus ∨ BusIdle t) :
    BusSettled t := by
  rcases hb with hb | ⟨-, hquiet, hsck⟩
  · exact h.of_eq hp.cfg hb
  · exact ⟨hquiet, h.configured.of_setup hp.setup hp.cfg, fun _ => hsck⟩

/-- A part that flows keeps the invariant when it keeps the framebuffer in range. -/
theorem Working.keeps_flow {P : State → Prop} {s : State} {r : Run} (h : Working s) (hr : Flows P s r)
    (hfb : r.Ends FbFits FbFits) : KeepsInv r := by
  obtain ⟨hreached, hstuck⟩ := hr.ends
  refine ⟨fun t ht => ?_, fun t ht => ?_⟩
  · obtain ⟨hp, -, hb⟩ := hreached t ht
    exact
      { fb := hfb.1 t ht
        marker := h.marker.of_eq hp.marker
        bus := h.bus.of_flow hp hb
        accepted := by rw [hp.port]; exact h.accepted
        awake := by rw [hp.port, hp.plat]; exact h.awake
        waveform := h.waveform.of_eq hp.cfg hp.plat }
  · obtain ⟨hp, -, ⟨hbusy, hdone⟩, hcount, hbits⟩ := hstuck t ht
    have hacc : t.port.opBusy = true ∧ t.port.opAck = false := by rw [hp.port]; exact h.accepted
    exact
      { fb := hfb.2 t ht
        marker := h.marker.of_eq hp.marker
        flags := fun _ => hdone
        inFlight := fun _ => ⟨hacc.1, hcount, hbits⟩
        configured := h.bus.configured.of_setup hp.setup hp.cfg
        idleClock := fun _ hq => by rw [hbusy] at hq; cases hq
        occupied := fun _ => hacc.1
        ack := fun _ => hacc.2
        waveform := h.waveform.of_eq hp.cfg hp.plat }

/-- A part that streams and leaves the framebuffer alone. -/
theorem Working.keeps_streams {l : List Event} {n : Nat} {P Q : State → Prop} {s : State} {r : Run} (h : Working s)
    (hr : Streams l n P Q s r) (hP : ∀ t, P t → t.fb = s.fb) (hQ : ∀ t, Q t → t.fb = s.fb) : KeepsInv r :=
  h.keeps_flow (hr.flows (R := fun t => t.fb = s.fb) hP hQ)
    (Run.Ends.mono hr (fun t ht => h.fb.of_eq ht.1.part.cfg (hP t ht.2)) fun t ht => h.fb.of_eq ht.1.part.cfg (hQ t ht.2))

/-- A part that touches neither the memories nor the bus nor the progress of the operation. -/
theorem Working.quietly {s t : State} (h : Working s) (hc : t.cfg = s.cfg) (hf : t.fb = s.fb) (hm : t.marker = s.marker)
    (hb : t.bus = s.bus) (hacc : t.port.opBusy = s.port.opBusy ∧ t.port.opAck = s.port.opAck)
    (hlife : t.port.life = s.port.life) (hsleep : t.plat.sleeping = s.plat.sleeping) (hw : WaveformsSound t) : Working t where
  fb := h.fb.of_eq hc hf
  marker := h.marker.of_eq hm
  bus := h.bus.of_eq hc hb
  accepted := by rw [hacc.1, hacc.2]; exact h.accepted
  awake := by rw [hlife, hsleep]; exact h.awake
  waveform := hw

/-! ### Each operation keeps the invariant -/

theorem sendCommand_keepsInv (c : Byte) {s : State} (h : Working s) : KeepsInv (sendCommand c s) :=
  h.keeps_streams (sendCommand_streams c s) (fun _ ht => ht.2.fb) fun _ ht => ht.2.1.fb

theorem bootDisplay_keepsInv {s : State} (h : Working s) : KeepsInv (bootDisplay s) :=
  h.keeps_streams (bootDisplay_streams s) (fun _ ht => ht.2.fb) fun _ ht => ht.2.fb

theorem paintBody_keepsInv (f : Bool) {s : State} (hl : legal s.cfg = true) (h : Working s) : KeepsInv (paintBody f s) :=
  h.keeps_flow (paintBody_flows f s)
    (((paintStable_fbFits hl).paintBody f ⟨rfl, h.fb⟩).mono (fun _ ht => ht.2) fun _ ht => ht.2)

theorem cfgbusBody_keepsInv {s : State} (h : Working s) : KeepsInv (cfgbusBody s) :=
  Run.ends_reached { h with bus := ⟨h.bus.quiet, fun _ => ⟨rfl, rfl, rfl, rfl, rfl⟩, fun _ => rfl⟩ }

theorem freeBusLines_settled {s : State} (h : BusSettled s) (n : Nat) : BusSettled (s.setBus (freeBusLines n s.bus)) := by
  unfold freeBusLines
  split
  · exact h
  · next hen =>
    exact ⟨h.quiet, fun he => absurd he hen, fun he => absurd he hen⟩

/-- The levels CFGPINS leaves free are not those of a waveform (R210). -/
theorem freeLeds_chan (n : Nat) (p : Platform) (ch : Channel) :
    ((freeLeds n p).chan ch).pwmEn = (p.chan ch).pwmEn ∧ ((freeLeds n p).chan ch).pwmCmp = (p.chan ch).pwmCmp := by
  cases ch <;> exact ⟨rfl, rfl⟩

theorem cfgpinsBody_keepsInv {s : State} (h : Working s) : KeepsInv (cfgpinsBody s) := by
  obtain ⟨hquiet, hconf, hidle⟩ := freeBusLines_settled h.bus s.env.draws
  refine Run.ends_reached { h with bus := ⟨hquiet, hconf, hidle⟩, waveform := fun ch => (h.waveform ch).of_eq ?_ ?_ }
  · exact (freeLeds_chan s.env.draws s.plat ch).1
  · exact (freeLeds_chan s.env.draws s.plat ch).2

theorem cfgpwrBody_keepsInv {s : State} (h : Working s) : KeepsInv (cfgpwrBody s) :=
  Run.ends_reached (h.quietly rfl rfl rfl rfl ⟨rfl, rfl⟩ rfl rfl h.waveform)

theorem bootBody_keepsInv {s : State} (h : Working s) : KeepsInv (bootBody s) :=
  (((cfgpinsBody_keepsInv h).bind fun _ => cfgbusBody_keepsInv).bind fun _ => bootDisplay_keepsInv).bind
    fun _ => cfgpwrBody_keepsInv

theorem setchBody_keepsInv (ch : Channel) (v : Byte) {s : State} (h : Working s) : KeepsInv (setchBody ch v s) := by
  obtain ⟨t, hreach, rfl⟩ := setchBody_spec ch v s
  rw [hreach]
  refine Run.ends_reached (h.quietly rfl rfl rfl rfl ⟨rfl, rfl⟩ rfl (Platform.setChan_rest ..).2.2.2 fun d => ?_)
  change ChanSound s.cfg d ((s.setChan ch (setchChan s.cfg ch v (s.chan ch))).chan d)
  rw [State.chan_setChan]
  split
  · next hd => subst hd; exact (h.waveform d).setchChan v
  · exact h.waveform d

theorem relchBody_keepsInv {s : State} (h : Working s) : KeepsInv (relchBody s) := by
  obtain ⟨t, hreach, hplat, -, hcfg, hbus, -, -, hport, hfb, hmk, -⟩ := relchBody_spec s
  rw [hreach]
  refine Run.ends_reached (h.quietly hcfg hfb hmk hbus (by simp [hport]) (by rw [hport]) (by rw [hplat]; rfl) fun ch => ?_)
  exact chanSound_of_off (by rw [State.chan, hplat, releasedPlat_chan])

theorem rdbtnBody_keepsInv {s : State} (h : Working s) : KeepsInv (rdbtnBody s) := by
  obtain ⟨-, e, he, -⟩ := drawButtons_spec s
  unfold rdbtnBody
  simp only [he]
  exact Run.ends_reached (h.quietly rfl rfl rfl rfl ⟨rfl, rfl⟩ rfl rfl h.waveform)

/-- The safe-mode halt moves an indicator line and LIFE (R202). -/
theorem enterSafeHalt_inv {s : State} (h : Working s) : Inv s.enterSafeHalt := by
  obtain ⟨p, hp, -, -, -, hled, hrest, -⟩ := enterSafeHalt_spec s
  rw [hp]
  refine inv_of_occupied h.fb h.marker (h.bus.of_eq rfl rfl) h.accepted fun ch => ?_
  change ChanSound s.cfg ch (p.chan ch)
  by_cases hch : s.cfg.safeIndicator = .rgb ch
  · rw [hled ch hch]; exact (h.waveform ch).of_eq rfl rfl
  · rw [hrest ch hch]; exact h.waveform ch

theorem safemodeBody_keepsInv {s : State} (h : Working s) : KeepsInv (safemodeBody s) := by
  obtain ⟨-, e, he, -⟩ := drawButtons_spec s
  have sampled : Working ((s.setEnv e).emit (.btn s.drawButtons.1)) :=
    h.quietly rfl rfl rfl rfl ⟨rfl, rfl⟩ rfl rfl h.waveform
  unfold safemodeBody
  simp only [he]
  split
  · exact Run.ends_reached sampled
  · exact Run.ends_stuck (enterSafeHalt_inv sampled)

theorem idleBody_keepsInv {s : State} (h : Working s) : KeepsInv (idleBody s) := by
  obtain ⟨t, hrest, hwake, hsleep⟩ := idleBody_spec s
  have hwave (b : Bool) (hp : t.plat = { s.plat with sleeping := b }) : WaveformsSound t := fun ch => by
    rw [hrest.cfg]
    refine (h.waveform ch).of_eq ?_ ?_ <;> rw [State.chan, hp] <;> cases ch <;> rfl
  cases hw : s.wakeNow with
  | true =>
    obtain ⟨hreach, -, hp⟩ := hwake hw
    rw [hreach]
    exact Run.ends_reached (h.quietly hrest.cfg hrest.fb hrest.marker hrest.bus (by simp [hrest.port]) (by rw [hrest.port])
      (by rw [hp]; exact h.awake.2.symm) (hwave _ hp))
  | false =>
    obtain ⟨hstuck, -, hp⟩ := hsleep hw
    rw [hstuck]
    exact Run.ends_stuck (inv_of_occupied (h.fb.of_eq hrest.cfg hrest.fb) (h.marker.of_eq hrest.marker)
      (h.bus.of_eq hrest.cfg hrest.bus) (by rw [hrest.port]; exact h.accepted) (hwave _ hp))

/-- The watchdog is triggered with the request still in progress (R228). -/
theorem triggerWatchdog_inv {s : State} (h : Working s) : Inv s.triggerWatchdog :=
  inv_of_occupied (h.fb.of_eq rfl rfl) (h.marker.of_eq rfl) (h.bus.of_eq rfl rfl) h.accepted (h.waveform.of_eq rfl rfl)

/-- MRESTART ends with both marker bytes written and the watchdog triggered, or with one byte written and a reset (R66, R228). -/
theorem mrestartBody_keepsInv {s : State} (h : Working s) : KeepsInv (mrestartBody s) := by
  obtain ⟨e, hwhole, hlow, hhigh⟩ := mrestartBody_spec s
  have hmk : MkFits (s.setEnv e) := h.marker
  cases ht : s.tearNow with
  | whole =>
    rw [hwhole ht]
    have written : MkFits ((s.setEnv e).writeMarker s.cfg.markerValue) :=
      (hmk.mkWrite (by decide) _).mkWrite (by decide) _
    exact Run.ends_stuck (triggerWatchdog_inv { h with marker := written, bus := h.bus.of_eq rfl rfl })
  | lowOnly => rw [hlow ht]; exact Run.ends_stuck (hardReset_inv (hmk.mkWrite (by decide) _) .external)
  | highOnly => rw [hhigh ht]; exact Run.ends_stuck (hardReset_inv (hmk.mkWrite (by decide) _) .external)

/-- The pseudocode of every operation keeps the invariant in a legal build. -/
theorem opBody_keepsInv (i : Instr) {s : State} (hl : legal s.cfg = true) (h : Working s) : KeepsInv (opBody i s) := by
  cases i with
  | cfgbus => exact cfgbusBody_keepsInv h
  | xfer b =>
    refine (h.keeps_streams (transfer_streams s b) (fun _ ht => ht.fb) fun _ ht => ht.1.fb).bind fun t ht => ?_
    exact Run.ends_reached (ht.quietly rfl rfl rfl rfl ⟨rfl, rfl⟩ rfl rfl ht.waveform)
  | sendcmd _ | invert _ | fliph _ | flipv _ | allon _ | contrast _ => exact sendCommand_keepsInv _ h
  | bootdisp => exact bootDisplay_keepsInv h
  | shutdown => exact h.keeps_streams (shutdownBody_streams s) (fun _ ht => ht.2.fb) fun _ ht => ht.2.fb
  | paint f => exact paintBody_keepsInv f hl h
  | rdbtn => exact rdbtnBody_keepsInv h
  | safemode => exact safemodeBody_keepsInv h
  | cfgpins => exact cfgpinsBody_keepsInv h
  | cfgpwr => exact cfgpwrBody_keepsInv h
  | setch ch v =>
    simp only [opBody]
    split
    · exact setchBody_keepsInv _ v h
    · exact Run.ends_reached h
  | relch => exact relchBody_keepsInv h
  | boot => exact bootBody_keepsInv h
  | idle => exact idleBody_keepsInv h
  | mrestart => exact mrestartBody_keepsInv h
  | cmdmode | datamode | getw | geth =>
    exact Run.ends_reached (h.quietly rfl rfl rfl rfl ⟨rfl, rfl⟩ rfl rfl h.waveform)

theorem exec_inv {i : Instr} {s t : State} (hl : legal s.cfg = true) (h : Inv s) (hbusy : s.port.opBusy = false)
    (hexec : exec i s = .next t) : Inv t := by
  rw [next_of_exec hexec]
  exact (opBody_keepsInv i (s := s.accept i) hl (h.accept hbusy i)).settle

/-- The outside taking its next action is nothing the invariant speaks of. -/
theorem Inv.dropHost {s : State} (h : Inv s) : Inv s.dropHost :=
  h.of_memory h.fb h.marker rfl rfl rfl rfl rfl rfl

theorem NextState.inv {s t : State} (hl : legal s.cfg = true) (h : Inv s) (hn : NextState s t) : Inv t := by
  cases hn with
  | watchdog => exact hardReset_inv h.marker .watchdog
  | idle | waiting => exact h
  | readReg => exact h.of_memory h.fb h.marker rfl rfl rfl rfl rfl rfl
  | fbWrite _ _ ha => exact h.dropHost.of_memory (FbFits.fbWrite h.dropHost.fb ha _) h.marker rfl rfl rfl rfl rfl rfl
  | markerWrite _ _ ha => exact h.dropHost.of_memory h.fb (MkFits.mkWrite h.dropHost.marker ha _) rfl rfl rfl rfl rfl rfl
  | request _ hbusy _ hexec => exact exec_inv (s := s.dropHost) hl h.dropHost hbusy hexec
  | powerOn => exact hardReset_inv h.dropHost.marker .powerOn
  | externalReset => exact hardReset_inv h.dropHost.marker .external

/-! ### The maintenance restart (R39, R228, R246) -/

/-- A whole MRESTART leaves both marker bytes and the watchdog reset pending. -/
theorem exec_mrestart_whole {s t : State} (hw : s.tearNow = .whole) (h : exec .mrestart s = .next t) :
    t.cfg = s.cfg ∧ t.port.life = .resetPending ∧ t.mkRead 0 = s.cfg.markerValue.extractLsb' 0 8
      ∧ t.mkRead 1 = s.cfg.markerValue.extractLsb' 8 8 := by
  obtain ⟨e, hwhole, -, -⟩ := mrestartBody_spec (s.accept .mrestart)
  rw [next_of_exec h, opBody, hwhole hw, Run.settle_stuck]
  have hmk (u : State) (v : Half) (a : Nat) : (u.writeMarker v).triggerWatchdog.mkRead a =
      if a = 1 then v.extractLsb' 8 8 else if a = 0 then v.extractLsb' 0 8 else u.mkRead a := by
    rw [State.mkRead_congr (s := u.writeMarker v) (t := (u.writeMarker v).triggerWatchdog) rfl rfl,
      State.writeMarker, State.mkRead_mkWrite, State.mkRead_mkWrite]
  refine ⟨rfl, rfl, ?_, ?_⟩ <;> rw [hmk] <;> rfl

theorem step_of_resetPending {s : State} (hl : legal s.cfg = true) (h : s.port.life = .resetPending) :
    step s = .next (s.hardReset .watchdog) := by
  rw [step_of_legal hl, stepLegal, h]

end Sys2Proof.Machine

open Sys2Proof Sys2Proof.Machine

/-- Settles O55: an operation carries `Working` from part to part until it completes or is stuck; a reset leaves only the
marker, and the outside writes within the memories. -/
theorem stepKeepsInvariant : Obligations.StepKeepsInvariant := by
  intro s t hinv hstep
  obtain ⟨hl, hn⟩ := nextState_of_step hstep
  exact hn.inv hl hinv

/-- Settles O10, by the two answers of the read port: none for index 7, and a byte for every other. -/
theorem registerReadHasNoSideEffect : Obligations.RegisterReadHasNoSideEffect := by
  intro s idx rest hl hlife hhost
  rw [step_eq_stepHost hl hlife, stepHost_readReg hhost]
  refine ⟨fun h7 => ?_, fun h7 => ?_⟩
  · subst h7
    rw [stepReadReg, s.regRead_none]
  · obtain ⟨v, hread, hreg⟩ := s.regRead_some h7
    refine ⟨s.dropHost.readPort v, v, by rw [stepReadReg, hread], rfl, hreg, rfl, rfl, rfl, rfl, rfl, ?_, rfl, ?_, rfl, rfl⟩
    · exact .of_eq rfl rfl rfl rfl
    · exact congrArg List.tail hhost

/-- Settles O11, register by register. -/
theorem registerMapLayout : Obligations.RegisterMapLayout := fun s =>
  ⟨regBusCfg s.bus, regBusStat s.bus, regDispCtl s.disp, regOpStat s.port, rfl, rfl, rfl, rfl, rfl, rfl, rfl, rfl,
    regBusCfg_getLsbD s.bus, regBusStat_getLsbD s.bus, regDispCtl_getLsbD s.disp, regOpStat_getLsbD s.port⟩

/-- Settles O24: where an operation reaches its end the two agree; where it is stuck it has not completed, but for an MRESTART
that a reset cut short. -/
theorem driverStateAgreesWithLine : Obligations.DriverStateAgreesWithLine := by
  intro i s t hi hs hexec hdone
  have hends := opBody_endsAgreeing hi (s := s.accept i) rfl (hs.of_disp rfl)
  have ht := next_of_exec hexec
  cases hr : opBody i (s.accept i) with
  | reached u =>
    rw [hr, Run.settle_reached] at ht
    exact ht ▸ (hends.1 u hr).of_disp rfl
  | stuck u =>
    rw [hr, Run.settle_stuck] at ht
    subst ht
    rcases hends.2 t hr with hbusy | hagree
    · rw [hdone] at hbusy; cases hbusy
    · exact hagree

/-- Settles O52: the step after a whole MRESTART is the watchdog's reset, which keeps the marker. -/
theorem markerSurvivesMaintenanceRestart : Obligations.MarkerSurvivesMaintenanceRestart := by
  intro s t hl hwhole hexec
  obtain ⟨hcfg, hlife, hlow, hhigh⟩ := exec_mrestart_whole hwhole hexec
  have hkept (a : Nat) : (t.hardReset .watchdog).mkRead a = t.mkRead a := hardReset_mkRead t (by decide) a
  exact ⟨t.hardReset .watchdog, step_of_resetPending (by rw [hcfg]; exact hl) hlife, hardReset_atReset t .watchdog,
    (hkept 0).trans hlow, (hkept 1).trans hhigh⟩

/-- Settles O53, field by field. -/
theorem resetValues : Obligations.ResetValues := ⟨State.reset_atReset, rfl⟩

/-- Settles O54: the reset values meet the invariant, and no memory byte is written. -/
theorem resetMeetsInvariant : Obligations.ResetMeetsInvariant := State.reset_atReset.inv rfl ⟨rfl, rfl⟩

end

section
/-! SUPPORT. The memories (spec/20_memory.md): the outside's writes between operations, who inside the block writes FB and MK, and
where the bytes of an expander PAINT stand in the reference sink. -/

namespace Sys2Proof.Machine

/-! ### The outside's writes (R61, R64, R284) -/

theorem stepHost_fbWrite {s : State} {a : Nat} {v : Byte} {rest : List HostAct} (h : s.host = .fbWrite a v :: rest) :
    stepHost s = stepFbWrite a v s := by
  rw [stepHost, h]

theorem stepHost_markerWrite {s : State} {a : Nat} {v : Byte} {rest : List HostAct} (h : s.host = .markerWrite a v :: rest) :
    stepHost s = stepMarkerWrite a v s := by
  rw [stepHost, h]

/-- Between operations a framebuffer write is done below FB_SIZE and faults from there on. -/
theorem stepFbWrite_of_free {s : State} (h : s.port.opBusy = false) (a : Nat) (v : Byte) : stepFbWrite a v s =
    if a < fbSize s.cfg then .next (s.dropHost.fbWrite a v) else .fault (.noSuchFbIndex a) := by
  simp [stepFbWrite, h]

/-- Between operations a marker write is done at 0 and 1 and faults elsewhere. -/
theorem stepMarkerWrite_of_free {s : State} (h : s.port.opBusy = false) (a : Nat) (v : Byte) : stepMarkerWrite a v s =
    if a < 2 then .next (s.dropHost.mkWrite a v) else .fault (.noSuchMarkerIndex a) := by
  simp [stepMarkerWrite, h]

/-! ### Who writes FB and MK (R60, R70) -/

/-- The memories read at `t` as the operation `i`, begun at `s`, may leave them. -/
def MemoryAfter (i : Instr) (s t : State) : Prop :=
  (∀ a, t.fbRead a = s.fbRead a ∨ (i = .paint true ∧ t.fbRead a = 0#8)) ∧ (i ≠ .mrestart → ∀ a, t.mkRead a = s.mkRead a)

/-- Wherever the flow `r` of the operation `i` begun at `s` ends, the memories are as `i` may leave them. -/
def KeepsMemory (i : Instr) (s : State) (r : Run) : Prop := r.Ends (MemoryAfter i s) (MemoryAfter i s)

theorem SameMemory.memoryAfter {s t : State} (h : SameMemory s t) (i : Instr) : MemoryAfter i s t :=
  ⟨fun a => .inl (h.1 a), fun _ => h.2⟩

/-- A part that leaves the memories alone, before another part. -/
theorem KeepsMemory.after {i : Instr} {s t : State} {r : Run} (h : SameMemory s t) (hr : KeepsMemory i t r) :
    KeepsMemory i s r := by
  have back (u : State) (hu : MemoryAfter i t u) : MemoryAfter i s u := by
    obtain ⟨hfb, hmk⟩ := hu
    exact ⟨fun a => h.1 a ▸ hfb a, fun hi a => (hmk hi a).trans (h.2 a)⟩
  exact Run.Ends.mono hr back back

theorem KeepsMemory.settle {i : Instr} {s : State} {r : Run} (h : KeepsMemory i s r) : MemoryAfter i s r.settle := by
  cases r with
  | reached t => exact h.1 t rfl
  | stuck t => exact h.2 t rfl

/-- A bus operation streams bytes: nothing it sends touches MK. -/
theorem Flows.keepsMemory {i : Instr} {s : State} {r : Run}
    (h : Flows (fun t => ∀ a, t.fbRead a = s.fbRead a ∨ (i = .paint true ∧ t.fbRead a = 0#8)) s r) : KeepsMemory i s r :=
  Run.Ends.mono h.ends (fun _ ⟨hpart, hfb, _⟩ => ⟨hfb, fun _ => hpart.mkRead⟩) fun _ ⟨hpart, hfb, _⟩ =>
    ⟨hfb, fun _ => hpart.mkRead⟩

theorem Part.sameMemory {s t : State} (h : Part s t) (hfb : t.fb = s.fb) : SameMemory s t :=
  .of_eq hfb h.lives h.marker h.powerOns

theorem SameButBus.sameMemory {s t : State} (h : SameButBus s t) : SameMemory s t :=
  .of_eq h.fb h.lives h.marker h.powerOns

theorem Rested.sameMemory {s t : State} (h : Rested s t) : SameMemory s t := .of_eq h.fb h.lives h.marker h.powerOns

theorem KeepsMemory.reached {s t : State} (h : SameMemory s t) (i : Instr) : KeepsMemory i s (.reached t) :=
  Run.ends_reached (h.memoryAfter i)

theorem KeepsMemory.stuck {s t : State} (h : SameMemory s t) (i : Instr) : KeepsMemory i s (.stuck t) :=
  Run.ends_stuck (h.memoryAfter i)

theorem xfer_keepsMemory (b : Byte) (s : State) : KeepsMemory (.xfer b) s (opBody (.xfer b) s) := by
  have ends : (s.transfer b).Ends (SameButBus s) (MemoryAfter (.xfer b) s) :=
    (transfer_ends s b).mono (fun _ ht => ht.rest) fun _ ht => (SameButBus.sameMemory ht.rest).memoryAfter _
  exact ends.map fun t ht => SameMemory.memoryAfter (.of_eq ht.fb ht.lives ht.marker ht.powerOns) _

theorem bootDisplay_sameMemory (s : State) : (bootDisplay s).Ends (SameMemory s) (SameMemory s) :=
  Run.Ends.mono (bootDisplay_streams s) (fun _ ⟨ht, _, honly⟩ => ht.part.sameMemory honly.fb)
    fun _ ⟨ht, _, honly⟩ => ht.part.sameMemory honly.fb

theorem bootBody_keepsMemory (s : State) : KeepsMemory .boot s (bootBody s) := by
  have configured : ∃ t, (cfgpinsBody s).bind cfgbusBody = .reached t ∧ SameMemory s t :=
    ⟨_, rfl, .of_eq rfl rfl rfl rfl⟩
  obtain ⟨t, hreach, ht⟩ := configured
  rw [bootBody, hreach, Run.bind_reached]
  refine KeepsMemory.after ht (Run.Ends.bind (P := SameMemory t) ?_ fun u hu => ?_)
  · exact (bootDisplay_sameMemory t).mono (fun _ hu => hu) fun _ hu => hu.memoryAfter _
  · exact KeepsMemory.after hu (.reached (.of_eq rfl rfl rfl rfl) _)

theorem safemodeBody_keepsMemory (s : State) : KeepsMemory .safemode s (safemodeBody s) := by
  obtain ⟨-, e, he, -⟩ := drawButtons_spec s
  unfold safemodeBody
  simp only [he]
  split
  · exact .reached (.of_eq rfl rfl rfl rfl) _
  · obtain ⟨p, hp, -⟩ := enterSafeHalt_spec ((s.setEnv e).emit (.btn s.drawButtons.1))
    rw [hp]
    exact .stuck (.of_eq rfl rfl rfl rfl) _

theorem rdbtnBody_keepsMemory (s : State) : KeepsMemory .rdbtn s (rdbtnBody s) := by
  obtain ⟨-, e, he, -⟩ := drawButtons_spec s
  unfold rdbtnBody
  simp only [he]
  exact .reached (.of_eq rfl rfl rfl rfl) _

theorem setch_keepsMemory (ch : BitVec 2) (v : Byte) (s : State) :
    KeepsMemory (.setch ch v) s (opBody (.setch ch v) s) := by
  simp only [opBody]
  split
  · next c _ =>
    obtain ⟨t, hreach, rfl⟩ := setchBody_spec c v s
    rw [hreach]
    exact .reached (.of_eq rfl rfl rfl rfl) _
  · exact .reached (.of_eq rfl rfl rfl rfl) _

theorem idleBody_keepsMemory (s : State) : KeepsMemory .idle s (idleBody s) := by
  obtain ⟨t, hrest, hwake, hsleep⟩ := idleBody_spec s
  cases hw : s.wakeNow with
  | true => rw [(hwake hw).1]; exact .reached hrest.sameMemory _
  | false => rw [(hsleep hw).1]; exact .stuck hrest.sameMemory _

/-- An MRESTART that no reset cuts short does not touch FB. -/
theorem mrestartBody_keepsMemory {s : State} (h : s.tearNow = .whole) : KeepsMemory .mrestart s (mrestartBody s) := by
  obtain ⟨e, hwhole, -, -⟩ := mrestartBody_spec s
  rw [hwhole h]
  exact Run.ends_stuck ⟨fun a => .inl (State.fbRead_congr rfl rfl a), fun hi => absurd rfl hi⟩

/-- The pseudocode of every operation, complete or stuck. -/
theorem opBody_keepsMemory (i : Instr) {s : State} (hwhole : i = .mrestart → s.tearNow = .whole) :
    KeepsMemory i s (opBody i s) := by
  cases i with
  | xfer b => exact xfer_keepsMemory b s
  | sendcmd _ | bootdisp | shutdown | invert _ | fliph _ | flipv _ | allon _ | contrast _ | paint _ =>
    exact (opBody_flows rfl (by simp) (by simp) s).keepsMemory
  | boot => exact bootBody_keepsMemory s
  | safemode => exact safemodeBody_keepsMemory s
  | setch ch v => exact setch_keepsMemory ch v s
  | idle => exact idleBody_keepsMemory s
  | mrestart => exact mrestartBody_keepsMemory (hwhole rfl)
  | rdbtn => exact rdbtnBody_keepsMemory s
  | relch =>
    obtain ⟨t, hreach, -, -, -, -, -, -, -, hfb, hmk, -, -, hlives, hpowerOns⟩ := relchBody_spec s
    rw [opBody, hreach]
    exact .reached (.of_eq hfb hlives hmk hpowerOns) _
  | cfgbus | cmdmode | datamode | cfgpins | cfgpwr | getw | geth => exact .reached (.of_eq rfl rfl rfl rfl) _

/-! ### The order of an expander PAINT (R75, R181) -/

/-- Element `j` of the `i`-th block of a flattened list of equal blocks. -/
theorem getElem?_flatMap_blocks {α β : Type} {f : α → List β} {n : Nat} (hf : ∀ a, (f a).length = n) (l : List α) (i : Nat)
    {j : Nat} (hj : j < n) : (l.flatMap f)[i * n + j]? = l[i]?.bind fun a => (f a)[j]? := by
  induction l generalizing i with
  | nil => rfl
  | cons a l ih =>
    rw [List.flatMap_cons]
    cases i with
    | zero =>
      rw [Nat.zero_mul, Nat.zero_add, List.getElem?_append_left (by rw [hf]; exact hj)]
      rfl
    | succ i =>
      have past : (i + 1) * n + j = n + (i * n + j) := by rw [Nat.succ_mul]; omega
      rw [past, List.getElem?_append_right (by rw [hf]; omega), hf, Nat.add_sub_cancel_left, ih]
      rfl

theorem length_flatMap_blocks {α β : Type} {f : α → List β} {n : Nat} (hf : ∀ a, (f a).length = n) (l : List α) :
    (l.flatMap f).length = l.length * n := by
  rw [List.length_flatMap, List.map_congr_left fun a _ => hf a, List.map_const', List.sum_replicate, smul_eq_mul]

/-- The index `i` of each pair, in the order of R181. -/
def pairStarts (e : Expander) : List Nat :=
  (List.range e.outerCount).flatMap fun x => (List.range e.innerCount).map fun q => pairIndex e x q

/-- The two indices of a pair. -/
def pairOf (e : Expander) (i : Nat) : List Nat := [i, i + e.pairOffset]

theorem length_pairOf (e : Expander) (i : Nat) : (pairOf e i).length = 2 := rfl

theorem traversal_eq_pairs (e : Expander) : traversal e = (pairStarts e).flatMap (pairOf e) := by
  simp only [traversal, pairStarts, pairOf, List.flatMap_assoc, List.flatMap_map]

theorem expanderBytes_eq_pairs (pack : Expander → Byte → Byte → Byte) (n sh : Nat) (s : State) :
    expanderBytes pack n sh s = (pairStarts s.cfg.expander).flatMap (pairBytes pack n sh s) := by
  simp only [expanderBytes, pairStarts, List.flatMap_assoc, List.flatMap_map]

theorem length_pairBytes (pack : Expander → Byte → Byte → Byte) (n sh : Nat) (s : State) (i : Nat) :
    (pairBytes pack n sh s i).length = n := by
  simp [pairBytes]

/-- Each pair of source bytes gives `n` output bytes. -/
theorem Covers.length_expanderBytes {s : State} (h : Covers s.cfg) (pack : Expander → Byte → Byte → Byte) (n sh : Nat) :
    (expanderBytes pack n sh s).length * 2 = fbSize s.cfg * n := by
  rw [← h.length, traversal_eq_pairs, length_flatMap_blocks (length_pairOf _), expanderBytes_eq_pairs,
    length_flatMap_blocks (length_pairBytes pack n sh s), Nat.mul_right_comm]

/-- Byte `k` of pair `m`: the two source bytes, both shifted `k` times, packed (R181). -/
theorem expanderBytes_getElem? (pack : Expander → Byte → Byte → Byte) {n : Nat} (sh : Nat) (s : State) {m i k : Nat}
    (hm : (pairStarts s.cfg.expander)[m]? = some i) (hk : k < n) : (expanderBytes pack n sh s)[m * n + k]? =
      some (pack s.cfg.expander (s.fbRead i >>> (k * sh)) (s.fbRead (i + s.cfg.expander.pairOffset) >>> (k * sh))) := by
  rw [expanderBytes_eq_pairs, getElem?_flatMap_blocks (length_pairBytes pack n sh s) _ _ hk, hm, Option.bind_some, pairBytes,
    List.getElem?_map, List.getElem?_range hk, Option.map_some]

theorem pixelIndex_lt {c : Cfg} (hl : legal c = true) {x y : Nat} (hx : x < c.width) (hy : y < c.height) :
    pixelIndex c x y < fbSize c := by
  have hpage : y / 8 + 1 ≤ pageCount c := by
    obtain ⟨-, -, -, -, hmod⟩ := legalGeometry_bounds (legal_parts hl).1
    unfold pageCount
    omega
  have hrow := Nat.mul_le_mul_right c.width hpage
  rw [pageCount_mul_width hl, Nat.succ_mul] at hrow
  unfold pixelIndex
  omega

/-- The pair that holds a pixel: the byte at `sourcePlace` is the lower one of pair `sourcePlace / 2` where the place is even,
and the upper one where it is odd. -/
theorem Covers.exists_pair {c : Cfg} (h : Covers c) {x y : Nat} (hp : pixelIndex c x y < fbSize c) :
    ∃ i, (pairStarts c.expander)[sourcePlace c x y / 2]? = some i
      ∧ (sourcePlace c x y % 2 = 0 ∧ pixelIndex c x y = i
        ∨ sourcePlace c x y % 2 = 1 ∧ pixelIndex c x y = i + c.expander.pairOffset) := by
  have hget : (traversal c.expander)[sourcePlace c x y]? = some (pixelIndex c x y) := List.getElem?_idxOf ((h.mem _).2 hp)
  have hside : sourcePlace c x y % 2 < 2 := Nat.mod_lt _ (by decide)
  rw [← Nat.div_add_mod' (sourcePlace c x y) 2, traversal_eq_pairs, getElem?_flatMap_blocks (length_pairOf _) _ _ hside,
    Option.bind_eq_some_iff] at hget
  obtain ⟨i, hi, hget⟩ := hget
  refine ⟨i, hi, ?_⟩
  rcases Nat.mod_two_eq_zero_or_one (sourcePlace c x y) with h0 | h1
  · rw [h0] at hget
    exact .inl ⟨h0, (Option.some.inj hget).symm⟩
  · rw [h1] at hget
    exact .inr ⟨h1, (Option.some.inj hget).symm⟩

/-! ### The groups of a packed byte (R106, R107) -/

theorem groupOn_group4 {e : Expander} (h : e.on4 ≠ 0#4) (on : Bool) : groupOn (group4 e on).toNat e.on4.toNat = on := by
  cases on
  · exact groupOn_off _
  · exact groupOn_on fun h0 => h (BitVec.eq_of_toNat_eq h0)

theorem groupOn_group2 {e : Expander} (h : e.on2 ≠ 0#2) (on : Bool) : groupOn (group2 e on).toNat e.on2.toNat = on := by
  cases on
  · exact groupOn_off _
  · exact groupOn_on fun h0 => h (BitVec.eq_of_toNat_eq h0)

theorem pack4_lower (e : Expander) (a b : Byte) : (pack4 e a b).extractLsb' 0 4 = group4 e (a.getLsbD 0) :=
  BitVec.extractLsb'_append_eq_right

theorem pack4_upper (e : Expander) (a b : Byte) : (pack4 e a b).extractLsb' 4 4 = group4 e (b.getLsbD 0) :=
  BitVec.extractLsb'_append_eq_left

/-- The two groups of SRCA in an EXP2 byte. -/
theorem pack2_lower (e : Expander) (a b : Byte) {k : Nat} (hk : k < 2) :
    (pack2 e a b).extractLsb' (k * 2) 2 = group2 e (a.getLsbD k) := by
  unfold pack2
  interval_cases k
  · exact BitVec.extractLsb'_append_eq_right
  · rw [BitVec.extractLsb'_append_eq_of_le (by decide)]
    exact BitVec.extractLsb'_append_eq_right

/-- The two groups of SRCB in an EXP2 byte. -/
theorem pack2_upper (e : Expander) (a b : Byte) {k : Nat} (hk : k < 2) :
    (pack2 e a b).extractLsb' (4 + k * 2) 2 = group2 e (b.getLsbD k) := by
  unfold pack2
  rw [BitVec.extractLsb'_append_eq_of_le (by omega), BitVec.extractLsb'_append_eq_of_le (by omega)]
  interval_cases k
  · exact BitVec.extractLsb'_append_eq_right
  · exact BitVec.extractLsb'_append_eq_left

/-! ### The sink after a PAINT (R72, R74, R75) -/

theorem Emits.sink {s t : State} {l : List Event} (h : Emits s t l) (hc : t.cfg = s.cfg) :
    t.sink = l.foldl (sinkStep s.cfg) s.sink := by
  obtain ⟨ev, htr, rfl⟩ := h
  rw [State.sink, htr, hc, List.foldl_append, sink_foldl_shape]
  rfl

/-- Data bytes that fill the RAM of the sink once, from its origin on: each is stored at its own place and the pointer is at its
origin again. -/
theorem sink_after_fill {s t : State} {bs : List Byte} (h : Emits s t (transfers .data bs)) (hc : t.cfg = s.cfg)
    (hf : s.cfg.family ≠ .paged1) (hrun : s.sink.inReset = false) (hptr : s.sink.ptr = 0)
    (hlen : bs.length = sinkRamSize s.cfg) (hpos : 0 < sinkRamSize s.cfg) :
    t.sink.ptr = 0 ∧ ∀ a b, bs[a]? = some b → t.sinkByte a = b := by
  obtain ⟨hend, hram⟩ := sink_foldl_data hf bs s.sink hrun (by omega) (by omega)
  rw [← h.sink hc] at hend hram
  refine ⟨by rw [hend, hptr, hlen, Nat.zero_add, Nat.mod_self], fun a b hab => ?_⟩
  obtain ⟨ha, rfl⟩ := List.getElem?_eq_some_iff.1 hab
  rw [State.sinkByte, hram, dif_pos (by omega)]
  simp only [hptr, Nat.sub_zero, Option.getD_some]

/-- With the bus ready for it PAINT completes, and its events are those of the whole framebuffer (R170, R243). -/
theorem exec_paint_completes {s : State} (hl : legal s.cfg = true) (hr : BusReady s (paintLength s.cfg)) (f : Bool) :
    ∃ t, exec (.paint f) s = .next t ∧ t.port.opBusy = false ∧ t.cfg = s.cfg ∧ Emits s t (paintEvents s) := by
  obtain ⟨t, hreach, hs, -⟩ := (paint_streams (s := s.accept (.paint f)) hl f).reaches (.inr hr)
  exact ⟨t.complete, runOp_reached hreach, rfl, hs.part.cfg, hs.emits⟩

theorem pixels_eq {c : Cfg} (hl : legal c = true) : c.width * c.height = fbSize c * 8 := by
  obtain ⟨-, -, -, -, hmod⟩ := legalGeometry_bounds (legal_parts hl).1
  exact (Nat.div_mul_cancel ((Nat.dvd_of_mod_eq_zero hmod).mul_left _)).symm

theorem fbSize_pos {c : Cfg} (hl : legal c = true) : 0 < fbSize c := by
  rw [← pageCount_mul_width hl]
  exact Nat.mul_pos (pageCount_pos hl) (width_pos hl)

theorem sinkRamSize_exp4 {c : Cfg} (hl : legal c = true) (hf : c.family = .exp4) : sinkRamSize c = fbSize c * 4 := by
  simp only [sinkRamSize, hf, pixels_eq hl]
  omega

theorem sinkRamSize_exp2 {c : Cfg} (hl : legal c = true) (hf : c.family = .exp2) : sinkRamSize c = fbSize c * 2 := by
  simp only [sinkRamSize, hf, pixels_eq hl]
  omega

/-- A sink whose RAM holds the bytes of an EXP4 PAINT shows the framebuffer they were made from (R75, R106). -/
theorem sinkPixel_exp4 {s t : State} (hl : legal s.cfg = true) (hf : s.cfg.family = .exp4) (hc : t.cfg = s.cfg)
    (hram : ∀ a b, (expanderBytes pack4 8 1 s)[a]? = some b → t.sinkByte a = b) {x y : Nat} (hx : x < s.cfg.width)
    (hy : y < s.cfg.height) : t.sinkPixel x y = s.pixelOn x y := by
  obtain ⟨-, -, -, hexp, -⟩ := legal_parts hl
  obtain ⟨hon, -⟩ := legalExpander_onLevels hexp
  obtain ⟨i, hi, hside⟩ := (covers_of_legal hl (.inl hf)).exists_pair (pixelIndex_lt hl hx hy)
  have hbyte := hram (exp4ByteOf s.cfg x y) _ (expanderBytes_getElem? pack4 1 s hi (Nat.mod_lt y (by decide)))
  simp only [State.sinkPixel, State.pixelOn, pixelBit, hc, hf, hbyte]
  rcases hside with ⟨hplace, hp⟩ | ⟨hplace, hp⟩
  · rw [hplace, hp, Nat.zero_mul, pack4_lower, groupOn_group4 hon, BitVec.getLsbD_ushiftRight, Nat.mul_one, Nat.add_zero]
  · rw [hplace, hp, Nat.one_mul, pack4_upper, groupOn_group4 hon, BitVec.getLsbD_ushiftRight, Nat.mul_one, Nat.add_zero]

/-- A sink whose RAM holds the bytes of an EXP2 PAINT shows the framebuffer they were made from (R75, R107). -/
theorem sinkPixel_exp2 {s t : State} (hl : legal s.cfg = true) (hf : s.cfg.family = .exp2) (hc : t.cfg = s.cfg)
    (hram : ∀ a b, (expanderBytes pack2 4 2 s)[a]? = some b → t.sinkByte a = b) {x y : Nat} (hx : x < s.cfg.width)
    (hy : y < s.cfg.height) : t.sinkPixel x y = s.pixelOn x y := by
  obtain ⟨-, -, -, hexp, -⟩ := legal_parts hl
  obtain ⟨-, hon⟩ := legalExpander_onLevels hexp
  obtain ⟨i, hi, hside⟩ := (covers_of_legal hl (.inr hf)).exists_pair (pixelIndex_lt hl hx hy)
  have hbyte := hram (exp2ByteOf s.cfg x y) _ (expanderBytes_getElem? pack2 2 s hi (by omega : y % 8 / 2 < 4))
  have hbit : y % 8 / 2 * 2 + y % 2 = y % 8 := by omega
  simp only [State.sinkPixel, State.pixelOn, pixelBit, hc, hf, hbyte]
  rcases hside with ⟨hplace, hp⟩ | ⟨hplace, hp⟩
  · rw [hplace, hp, Nat.zero_mul, Nat.zero_add, pack2_lower _ _ _ (Nat.mod_lt y (by decide)), groupOn_group2 hon,
      BitVec.getLsbD_ushiftRight, hbit]
  · rw [hplace, hp, Nat.one_mul, pack2_upper _ _ _ (Nat.mod_lt y (by decide)), groupOn_group2 hon,
      BitVec.getLsbD_ushiftRight, hbit]

theorem State.sinkShows_inReset {s : State} (h : s.sinkShows = true) : s.sink.inReset = false := by
  simp only [State.sinkShows, Bool.and_eq_true, Bool.not_eq_true'] at h
  exact h.1.2

end Sys2Proof.Machine

open Sys2Proof Sys2Proof.Machine

/-- Settles O12, by the read-after-write laws of the two memories. -/
theorem outsideWritesOneByte : Obligations.OutsideWritesOneByte := by
  intro s a v rest hl hlife hfree
  rw [step_eq_stepHost hl hlife]
  refine ⟨fun hhost => ?_, fun hhost => ?_⟩
  · rw [stepHost_fbWrite hhost, stepFbWrite_of_free hfree]
    refine ⟨fun ha => ⟨s.dropHost.fbWrite a v, if_pos ha, s.dropHost.fbRead_fbWrite a v, ?_, ?_, ?_⟩, fun ha => if_neg ha⟩
    · exact State.mkRead_congr rfl rfl
    · exact congrArg List.tail hhost
    · exact ⟨rfl, rfl, rfl, rfl, rfl, rfl, rfl, rfl, rfl, rfl⟩
  · rw [stepHost_markerWrite hhost, stepMarkerWrite_of_free hfree]
    refine ⟨fun ha => ⟨s.dropHost.mkWrite a v, if_pos ha, s.dropHost.mkRead_mkWrite a v, ?_, ?_, ?_⟩, fun ha => if_neg ha⟩
    · exact State.fbRead_congr rfl rfl
    · exact congrArg List.tail hhost
    · exact ⟨rfl, rfl, rfl, rfl, rfl, rfl, rfl, rfl, rfl, rfl⟩

/-- Settles O37: the bytes of PAINT fill the sink's RAM once, and each pixel's group carries the pixel's own source bit. -/
theorem sinkShowsExpanderPaint : Obligations.SinkShowsExpanderPaint := by
  intro f s hl hfam hready hdc hshows hptr
  obtain ⟨t, hexec, hdone, hc, hev⟩ := exec_paint_completes hl hready f
  have hrun := State.sinkShows_inReset hshows
  have hfb := fbSize_pos hl
  have hcov := covers_of_legal hl hfam
  refine ⟨t, hexec, hdone, ?_⟩
  rcases hfam with hf | hf <;> simp only [paintEvents, hf, hdc] at hev
  · have hlen := hcov.length_expanderBytes pack4 8 1
    have hsize := sinkRamSize_exp4 hl hf
    obtain ⟨hend, hram⟩ := sink_after_fill hev hc (by simp [hf]) hrun hptr (by omega) (by omega)
    exact ⟨hend, fun x y hx hy => sinkPixel_exp4 hl hf hc hram hx hy⟩
  · have hlen := hcov.length_expanderBytes pack2 4 2
    have hsize := sinkRamSize_exp2 hl hf
    obtain ⟨hend, hram⟩ := sink_after_fill hev hc (by simp [hf]) hrun hptr (by omega) (by omega)
    exact ⟨hend, fun x y hx hy => sinkPixel_exp2 hl hf hc hram hx hy⟩

/-- Settles O59: PAINT's pseudocode is the one that may zero FB, MRESTART's the one that writes MK. -/
theorem onlyPaintAndMrestartWriteMemory : Obligations.OnlyPaintAndMrestartWriteMemory := by
  intro i s t hwhole hexec
  rw [next_of_exec hexec]
  exact (opBody_keepsMemory i (s := s.accept i) hwhole).settle

end

section
/-! SUPPORT. The request words (spec/30_encoding.md): that a decoded word is the encoding of what was decoded, what the step does
with a request, and that RESULT is written by the four operations that return a byte. -/

namespace Sys2Proof

/-! ### Fields (R90, R91) -/

/-- A word whose C field is 0 is the request word of its three other fields. -/
theorem requestWord_fields {w : Word} (hc : cField w = 0#8) : requestWord (opField w) (aField w) (bField w) = w := by
  refine BitVec.eq_of_getLsbD_eq fun k hk => ?_
  rw [requestWord_getLsbD]
  split_ifs with h8 h16 h24
  · have hbit := congrArg (BitVec.getLsbD · k) hc
    simpa [cField, BitVec.getLsbD_extractLsb', h8] using hbit.symm
  · rw [bField, BitVec.getLsbD_extractLsb', Nat.add_sub_cancel' (by omega), decide_eq_true (by omega), Bool.true_and]
  · rw [aField, BitVec.getLsbD_extractLsb', Nat.add_sub_cancel' (by omega), decide_eq_true (by omega), Bool.true_and]
  · rw [opField, BitVec.getLsbD_extractLsb', Nat.add_sub_cancel' (by omega), decide_eq_true (by omega), Bool.true_and]

/-- A byte whose bits 7..2 are 0 is the A field of its channel. -/
theorem channelByte_of_upper_zero {a : Byte} (h : a.extractLsb' 2 6 = 0#6) : 0#6 ++ a.extractLsb' 0 2 = a := by
  have whole : a.extractLsb' 2 6 ++ a.extractLsb' 0 2 = a.extractLsb' 0 8 :=
    BitVec.extractLsb'_append_extractLsb'_eq_extractLsb' rfl
  rw [← h, whole, BitVec.extractLsb'_eq_self]

/-- A byte whose bits 7..1 are 0 is the A field of its flag. -/
theorem flagByte_of_upper_zero {a : Byte} (h : a.extractLsb' 1 7 = 0#7) : flagByte (a.getLsbD 0) = a := by
  have whole : a.extractLsb' 1 7 ++ a.extractLsb' 0 1 = a.extractLsb' 0 8 :=
    BitVec.extractLsb'_append_extractLsb'_eq_extractLsb' rfl
  have flag : BitVec.ofBool (a.getLsbD 0) = a.extractLsb' 0 1 := BitVec.setWidth_one.symm
  rw [flagByte, flag, ← h, whole, BitVec.extractLsb'_eq_self]

/-! ### What a decoded word encodes (R91 to R93, R96) -/

/-- `w` is the request word of the well-formed operation `i`. -/
def IsRequestOf (i : Instr) (w : Word) : Prop := encode i = w ∧ WellFormed i = true

section
variable {w : Word} {op : Byte} {j : Instr}

theorem isRequestOf_of_decodeN {i : Instr} (hop : opField w = op) (henc : encode i = requestWord op 0#8 0#8)
    (hwf : WellFormed i = true) (h : decodeN w i = .ok j) : IsRequestOf j w := by
  unfold decodeN at h
  split at h
  · next hzero =>
    obtain ⟨ha, hb, hc⟩ := hzero
    cases h
    have hw := requestWord_fields hc
    rw [hop, ha, hb] at hw
    exact ⟨henc.trans hw, hwf⟩
  · cases h

theorem isRequestOf_of_decodeB {mk : Byte → Instr} (hop : opField w = op) (henc : ∀ b, encode (mk b) = requestWord op b 0#8)
    (hwf : ∀ b, WellFormed (mk b) = true) (h : decodeB w mk = .ok j) : IsRequestOf j w := by
  unfold decodeB at h
  split at h
  · next hzero =>
    obtain ⟨hb, hc⟩ := hzero
    cases h
    have hw := requestWord_fields hc
    rw [hop, hb] at hw
    exact ⟨(henc _).trans hw, hwf _⟩
  · cases h

theorem isRequestOf_of_decodeF {mk : Bool → Instr} (hop : opField w = op)
    (henc : ∀ f, encode (mk f) = requestWord op (flagByte f) 0#8) (hwf : ∀ f, WellFormed (mk f) = true)
    (h : decodeF w mk = .ok j) : IsRequestOf j w := by
  unfold decodeF at h
  split at h
  · next hzero =>
    obtain ⟨ha, hb, hc⟩ := hzero
    cases h
    have hw := requestWord_fields hc
    rw [hop, ← flagByte_of_upper_zero ha, hb] at hw
    exact ⟨(henc _).trans hw, hwf _⟩
  · cases h

theorem isRequestOf_of_decodeC {mk : BitVec 2 → Byte → Instr} (hop : opField w = op)
    (henc : ∀ ch v, encode (mk ch v) = requestWord op (0#6 ++ ch) v) (hwf : ∀ ch v, ch ≠ 3#2 → WellFormed (mk ch v) = true)
    (h : decodeC w mk = .ok j) : IsRequestOf j w := by
  unfold decodeC at h
  split at h
  · next hzero =>
    obtain ⟨ha, hc⟩ := hzero
    split at h
    · cases h
    · next hch =>
      cases h
      have hw := requestWord_fields hc
      rw [hop, ← channelByte_of_upper_zero ha] at hw
      exact ⟨(henc _ _).trans hw, hwf _ _ hch⟩
  · cases h

end

/-- Only the request word of a well-formed operation decodes, and to that operation: row by row, by the row's format. -/
theorem isRequestOf_of_decode {w : Word} {i : Instr} (h : decode w = .ok i) : IsRequestOf i w := by
  unfold decode at h
  split at h
  case h_2 hop | h_5 hop => exact isRequestOf_of_decodeB hop (fun _ => rfl) (fun _ => rfl) h
  case h_8 hop | h_9 hop | h_10 hop | h_11 hop | h_12 hop | h_13 hop =>
    exact isRequestOf_of_decodeF hop (fun _ => rfl) (fun _ => rfl) h
  case h_18 hop => exact isRequestOf_of_decodeC (mk := .setch) hop (fun _ _ => rfl) (fun _ _ => bne_iff_ne.2) h
  case h_1 hop | h_3 hop | h_4 hop | h_6 hop | h_7 hop | h_14 hop | h_15 hop | h_16 hop | h_17 hop | h_19 hop | h_20 hop |
      h_21 hop | h_22 hop | h_23 hop | h_24 hop =>
    exact isRequestOf_of_decodeN hop rfl rfl h
  case h_25 => cases h

/-- A word that is the request word of no well-formed operation is reserved (R96). -/
theorem decode_reserved {w : Word} (h : ∀ i, WellFormed i = true → encode i ≠ w) : ∃ why, decode w = .error why := by
  cases hdec : decode w with
  | error why => exact ⟨why, rfl⟩
  | ok i =>
    obtain ⟨henc, hwf⟩ := isRequestOf_of_decode hdec
    exact absurd henc (h i hwf)

end Sys2Proof

namespace Sys2Proof.Machine

/-! ### The request in a step (R95 to R97, R283) -/

theorem stepHost_request {s : State} {w : Word} {rest : List HostAct} (h : s.host = .request w :: rest) :
    stepHost s = stepRequest w s := by
  rw [stepHost, h]

theorem stepRequest_of_decoded {s : State} {w : Word} {i : Instr} (hfree : s.port.opBusy = false) (hdec : decode w = .ok i) :
    stepRequest w s = exec i s.dropHost := by
  simp [stepRequest, hfree, hdec]

theorem stepRequest_of_reserved {s : State} {w : Word} {why : Reject} (hfree : s.port.opBusy = false)
    (hdec : decode w = .error why) : stepRequest w s = .refused (.reservedRequest why) := by
  simp [stepRequest, hfree, hdec]

theorem State.dropHost_of_cons {s : State} {a : HostAct} {rest : List HostAct} (h : s.host = a :: rest) :
    s.dropHost = { s with host := rest } := by
  rw [State.dropHost, h, List.tail_cons]

/-- While an operation is in progress a request or a write of the outside waits (R283, R284). -/
theorem stepHost_of_busy {s : State} (hbusy : s.port.opBusy = true) (hread : ∀ idx rest, s.host ≠ .readReg idx :: rest)
    (hreset : ∀ rest, s.host ≠ .powerOn :: rest ∧ s.host ≠ .externalReset :: rest) : stepHost s = .next s := by
  unfold stepHost
  split
  · rfl
  · next idx rest hhost => exact absurd hhost (hread idx rest)
  · exact if_pos hbusy
  · exact if_pos hbusy
  · exact if_pos hbusy
  · next rest hhost => exact absurd hhost (hreset rest).1
  · next rest hhost => exact absurd hhost (hreset rest).2

/-- SETCH of bits that name no channel is refused (R96, R214). -/
theorem exec_setch_of_noChannel {ch : BitVec 2} (h : channelOfBits ch = none) (v : Byte) (s : State) :
    exec (.setch ch v) s = .refused .reservedChannel := by
  rw [exec, execSetch, h]

/-! ### Who writes RESULT (R34, R94) -/

/-- Wherever the flow `r` of a part begun at `s` ends, RESULT is that of `s`. -/
def KeepsResult (s : State) (r : Run) : Prop :=
  r.Ends (fun t => t.port.result = s.port.result) fun t => t.port.result = s.port.result

theorem KeepsResult.bind {s : State} {r : Run} {f : State → Run} (h : KeepsResult s r) (hf : ∀ t, KeepsResult t (f t)) :
    KeepsResult s (r.bind f) :=
  Run.Ends.bind h fun t ht => ht ▸ hf t

theorem KeepsResult.settle {s : State} {r : Run} (h : KeepsResult s r) : r.settle.port.result = s.port.result := by
  cases r with
  | reached t => exact h.1 t rfl
  | stuck t => exact h.2 t rfl

/-- A part that only streams bytes leaves the requester's interface alone. -/
theorem Flows.keepsResult {P : State → Prop} {s : State} {r : Run} (h : Flows P s r) : KeepsResult s r :=
  Run.Ends.mono h.ends (fun _ ⟨hpart, _⟩ => congrArg Port.result hpart.port) fun _ ⟨hpart, _⟩ =>
    congrArg Port.result hpart.port

theorem bootDisplay_keepsResult (s : State) : KeepsResult s (bootDisplay s) :=
  (opBody_flows (i := .bootdisp) rfl (by simp) (by simp) s).keepsResult

theorem bootBody_keepsResult (s : State) : KeepsResult s (bootBody s) :=
  have pins : KeepsResult s (cfgpinsBody s) := Run.ends_reached rfl
  have bus (t : State) : KeepsResult t (cfgbusBody t) := Run.ends_reached rfl
  have power (t : State) : KeepsResult t (cfgpwrBody t) := Run.ends_reached rfl
  ((pins.bind bus).bind bootDisplay_keepsResult).bind power

/-- SAFEMODE returns, or halts with no change of the requester's interface but LIFE. -/
theorem safemodeBody_keepsResult (s : State) : KeepsResult s (safemodeBody s) := by
  obtain ⟨-, e, he, -⟩ := drawButtons_spec s
  unfold safemodeBody
  simp only [he]
  split
  · exact Run.ends_reached rfl
  · obtain ⟨p, hp, -⟩ := enterSafeHalt_spec ((s.setEnv e).emit (.btn s.drawButtons.1))
    exact Run.ends_stuck (by rw [hp]; rfl)

theorem setch_keepsResult (ch : BitVec 2) (v : Byte) (s : State) : KeepsResult s (opBody (.setch ch v) s) := by
  simp only [opBody]
  split
  · next c _ =>
    obtain ⟨t, hreach, rfl⟩ := setchBody_spec c v s
    rw [hreach]
    exact Run.ends_reached rfl
  · exact Run.ends_reached rfl

theorem idleBody_keepsResult (s : State) : KeepsResult s (idleBody s) := by
  obtain ⟨t, hrest, hwake, hsleep⟩ := idleBody_spec s
  have hresult : t.port.result = s.port.result := congrArg Port.result hrest.port
  cases hw : s.wakeNow with
  | true => rw [(hwake hw).1]; exact Run.ends_reached hresult
  | false => rw [(hsleep hw).1]; exact Run.ends_stuck hresult

/-- An MRESTART that no reset cuts short changes only LIFE in the requester's interface. -/
theorem mrestartBody_keepsResult {s : State} (h : s.tearNow = .whole) : KeepsResult s (mrestartBody s) := by
  obtain ⟨e, hwhole, -, -⟩ := mrestartBody_spec s
  rw [hwhole h]
  exact Run.ends_stuck rfl

/-- The pseudocode of every operation that returns no byte, complete or stuck. -/
theorem opBody_keepsResult {i : Instr} {s : State} (hxfer : ∀ b, i ≠ .xfer b) (hrdbtn : i ≠ .rdbtn) (hgetw : i ≠ .getw)
    (hgeth : i ≠ .geth) (hwhole : i = .mrestart → s.tearNow = .whole) : KeepsResult s (opBody i s) := by
  cases i with
  | xfer b => exact absurd rfl (hxfer b)
  | rdbtn => exact absurd rfl hrdbtn
  | getw => exact absurd rfl hgetw
  | geth => exact absurd rfl hgeth
  | sendcmd _ | bootdisp | shutdown | invert _ | fliph _ | flipv _ | allon _ | contrast _ | paint _ =>
    exact (opBody_flows rfl (by simp) (by simp) s).keepsResult
  | boot => exact bootBody_keepsResult s
  | safemode => exact safemodeBody_keepsResult s
  | setch ch v => exact setch_keepsResult ch v s
  | idle => exact idleBody_keepsResult s
  | mrestart => exact mrestartBody_keepsResult (hwhole rfl)
  | cfgbus | cmdmode | datamode | cfgpins | cfgpwr | relch => exact Run.ends_reached rfl

end Sys2Proof.Machine

open Sys2Proof Sys2Proof.Machine

/-- Settles O4: a word that decodes is a request word, so the decoder rejects any other and the step with it. -/
theorem reservedWordRefused : Obligations.ReservedWordRefused := by
  intro s w rest hl hlife hfree hhost hreserved
  obtain ⟨why, hdec⟩ := decode_reserved hreserved
  exact ⟨why, by rw [step_eq_stepHost hl hlife, stepHost_request hhost, stepRequest_of_reserved hfree hdec]⟩

/-- Settles O58: no pseudocode but that of the four writes RESULT, wherever it ends. -/
theorem onlyFourWriteResult : Obligations.OnlyFourWriteResult := by
  intro i s t hxfer hrdbtn hgetw hgeth hwhole hexec
  rw [next_of_exec hexec]
  exact (opBody_keepsResult (s := s.accept i) hxfer hrdbtn hgetw hgeth hwhole).settle

/-- Settles O5, by what the step does with a request between operations. -/
theorem stepRunsDecodedRequest : Obligations.StepRunsDecodedRequest := by
  intro s w i rest hl hlife hfree hhost hdec
  rw [step_eq_stepHost hl hlife, stepHost_request hhost, stepRequest_of_decoded hfree hdec, State.dropHost_of_cons hhost]

/-- Settles O6: each action of the outside that is neither a read nor a reset waits. -/
theorem busyBlockWaits : Obligations.BusyBlockWaits := by
  intro s hl hbusy hlife hread hreset
  rw [step_eq_stepHost hl hlife, stepHost_of_busy hbusy hread hreset]

/-- Settles O45: the bits 3 name no channel. -/
theorem setchReservedRefused : Obligations.SetchReservedRefused := exec_setch_of_noChannel rfl

end

section
/-! SUPPORT. The Bus Driver's operations (spec/40_bus_driver.md): the state CFGBUS leaves, the two ends of XFER, and that only CFGBUS
and BOOT write the bus configuration. -/

namespace Sys2Proof.Machine

/-! ### CFGBUS (R122) -/

/-- The state a CFGBUS requested at `s` leaves (R122). -/
def State.afterCfgbus (s : State) : State := (cfgbusBody (s.accept .cfgbus)).settle

theorem exec_cfgbus (s : State) : exec .cfgbus s = .next s.afterCfgbus := rfl

theorem State.afterCfgbus_bus (s : State) : s.afterCfgbus.bus =
    { s.bus with role := true, cpol := s.cfg.busSetup.cpol, cpha := s.cfg.busSetup.cpha, order := s.cfg.busSetup.order,
                 div := s.cfg.busSetup.div, en := true, sck := s.cfg.busSetup.cpol } := rfl

/-- What CFGBUS writes it reads from the build, which it does not change. -/
theorem State.afterCfgbus_afterCfgbus (s : State) : s.afterCfgbus.afterCfgbus = s.afterCfgbus := rfl

/-! ### XFER (R124, R126, R127) -/

theorem SameButBus.sameSystem {s t : State} (h : SameButBus s t) : SameSystem s t := ⟨h.cfg, h.host, h.lives, h.powerOns⟩

theorem exec_xfer (b : Byte) (s : State) :
    exec (.xfer b) s = .next (((s.accept (.xfer b)).transfer b).map fun t => t.setResult t.bus.sdr).settle := rfl

/-- XFER completes when its transfer does, with the byte received in RESULT (R124). -/
theorem exec_xfer_completes {b : Byte} {s : State} (h : BusReady s 1) :
    ∃ t, exec (.xfer b) s = .next (t.setResult t.bus.sdr).complete ∧ Transferred b (s.accept (.xfer b)) t := by
  obtain ⟨t, hreach, ht⟩ := transfer_reaches (s := s.accept (.xfer b)) b h
  exact ⟨t, by rw [exec_xfer, hreach, Run.map_reached, Run.settle_reached], ht⟩

/-- XFER hangs when its transfer does (R126, R247). -/
theorem exec_xfer_hangs {b : Byte} {s : State} (h : ¬ BusReady s 1) :
    ∃ t, exec (.xfer b) s = .next t ∧ Hung b (s.accept (.xfer b)) t := by
  obtain ⟨t, hstuck, ht⟩ := transfer_hangs (s := s.accept (.xfer b)) b h
  exact ⟨t, by rw [exec_xfer, hstuck, Run.map_stuck, Run.settle_stuck], ht⟩

/-- On a bus that is not enabled XFER is stuck at the load of SDR (R127). -/
theorem exec_xfer_disabled {s : State} (h : s.bus.en = false) (b : Byte) :
    exec (.xfer b) s = .next ((s.accept (.xfer b)).loadSdr b) := by
  rw [exec_xfer, transfer_disabled (s := s.accept (.xfer b)) b h, Run.map_stuck, Run.settle_stuck]

/-- A shifter that stops before the eighth exchange takes the exchanges it has left (R126). -/
theorem exchanges_of_stopping {s : State} {m : Nat} (hen : s.bus.en = true) (hrole : s.bus.role = true)
    (hleft : s.env.shifterLeft = some m) (h : exchanges s < 8) : exchanges s = m := by
  simp only [exchanges, hen, hrole, hleft, Bool.and_self, if_true] at h ⊢
  omega

/-! ### Who writes the bus configuration (R123) -/

theorem SameBusSetup.of_bus {s t : State} (h : t.bus = s.bus) : SameBusSetup s t := by
  rw [SameBusSetup, h]
  exact ⟨rfl, rfl, rfl, rfl, rfl, rfl⟩

/-- Wherever the flow `r` of a part begun at `s` ends, the bus unit is that of `s`. -/
def KeepsBus (s : State) (r : Run) : Prop := r.Ends (fun t => t.bus = s.bus) fun t => t.bus = s.bus

/-- Wherever the flow `r` of a part begun at `s` ends, the bus configuration is that of `s`. -/
def KeepsBusSetup (s : State) (r : Run) : Prop := r.Ends (SameBusSetup s) (SameBusSetup s)

theorem KeepsBus.keepsBusSetup {s : State} {r : Run} (h : KeepsBus s r) : KeepsBusSetup s r :=
  Run.Ends.mono h (fun _ => .of_bus) fun _ => .of_bus

theorem KeepsBusSetup.settle {s : State} {r : Run} (h : KeepsBusSetup s r) : SameBusSetup s r.settle := by
  cases r with
  | reached t => exact h.1 t rfl
  | stuck t => exact h.2 t rfl

theorem Flows.keepsBusSetup {P : State → Prop} {s : State} {r : Run} (h : Flows P s r) : KeepsBusSetup s r :=
  Run.Ends.mono h.ends (fun _ ⟨hpart, _⟩ => hpart.setup) fun _ ⟨hpart, _⟩ => hpart.setup

theorem xfer_keepsBusSetup (b : Byte) (s : State) : KeepsBusSetup s (opBody (.xfer b) s) :=
  have ends : (s.transfer b).Ends (SameBusSetup s) (SameBusSetup s) :=
    (transfer_ends s b).mono (fun _ ht => ht.setup) fun _ ht => ht.setup
  ends.map fun _ ht => ht

/-- CFGPINS moves at most the lines of a bus that is not enabled (R210). -/
theorem freeBusLines_sameBusSetup (s : State) (n : Nat) : SameBusSetup s (s.setBus (freeBusLines n s.bus)) := by
  unfold freeBusLines
  split
  · exact .refl s
  · exact ⟨rfl, rfl, rfl, rfl, rfl, rfl⟩

theorem cfgpinsBody_keepsBusSetup (s : State) : KeepsBusSetup s (cfgpinsBody s) :=
  Run.ends_reached (freeBusLines_sameBusSetup s s.env.draws)

theorem safemodeBody_keepsBus (s : State) : KeepsBus s (safemodeBody s) := by
  obtain ⟨-, e, he, -⟩ := drawButtons_spec s
  unfold safemodeBody
  simp only [he]
  split
  · exact Run.ends_reached rfl
  · obtain ⟨p, hp, -⟩ := enterSafeHalt_spec ((s.setEnv e).emit (.btn s.drawButtons.1))
    exact Run.ends_stuck (by rw [hp]; rfl)

theorem setch_keepsBus (ch : BitVec 2) (v : Byte) (s : State) : KeepsBus s (opBody (.setch ch v) s) := by
  simp only [opBody]
  split
  · next c _ =>
    obtain ⟨t, hreach, rfl⟩ := setchBody_spec c v s
    rw [hreach]
    exact Run.ends_reached rfl
  · exact Run.ends_reached rfl

theorem idleBody_keepsBus (s : State) : KeepsBus s (idleBody s) := by
  obtain ⟨t, hrest, hwake, hsleep⟩ := idleBody_spec s
  cases hw : s.wakeNow with
  | true => rw [(hwake hw).1]; exact Run.ends_reached hrest.bus
  | false => rw [(hsleep hw).1]; exact Run.ends_stuck hrest.bus

/-- An MRESTART that no reset cuts short leaves the bus to the watchdog reset that follows it (R228). -/
theorem mrestartBody_keepsBus {s : State} (h : s.tearNow = .whole) : KeepsBus s (mrestartBody s) := by
  obtain ⟨e, hwhole, -, -⟩ := mrestartBody_spec s
  rw [hwhole h]
  exact Run.ends_stuck rfl

/-- The pseudocode of an operation that sends nothing and configures neither the bus nor the pins does not touch the bus unit. -/
theorem opBody_keepsBus {i : Instr} {s : State} (hsend : usesBus i = false) (hcfgbus : i ≠ .cfgbus) (hcfgpins : i ≠ .cfgpins)
    (hwhole : i = .mrestart → s.tearNow = .whole) : KeepsBus s (opBody i s) := by
  cases i with
  | xfer _ | sendcmd _ | bootdisp | shutdown | invert _ | fliph _ | flipv _ | allon _ | contrast _ | paint _ | boot => cases hsend
  | cfgbus => exact absurd rfl hcfgbus
  | cfgpins => exact absurd rfl hcfgpins
  | safemode => exact safemodeBody_keepsBus s
  | setch ch v => exact setch_keepsBus ch v s
  | idle => exact idleBody_keepsBus s
  | mrestart => exact mrestartBody_keepsBus (hwhole rfl)
  | rdbtn =>
    obtain ⟨-, e, he, -⟩ := drawButtons_spec s
    exact Run.ends_reached (by rw [he]; rfl)
  | cmdmode | datamode | cfgpwr | relch | getw | geth => exact Run.ends_reached rfl

/-- The pseudocode of every operation but CFGBUS and BOOT, complete or stuck. -/
theorem opBody_keepsBusSetup {i : Instr} {s : State} (hcfgbus : i ≠ .cfgbus) (hboot : i ≠ .boot)
    (hwhole : i = .mrestart → s.tearNow = .whole) : KeepsBusSetup s (opBody i s) := by
  cases i with
  | cfgbus => exact absurd rfl hcfgbus
  | boot => exact absurd rfl hboot
  | cfgpins => exact cfgpinsBody_keepsBusSetup s
  | xfer b => exact xfer_keepsBusSetup b s
  | sendcmd _ | bootdisp | shutdown | invert _ | fliph _ | flipv _ | allon _ | contrast _ | paint _ =>
    exact (opBody_flows rfl (by simp) (by simp) s).keepsBusSetup
  | cmdmode | datamode | rdbtn | safemode | cfgpwr | setch _ _ | relch | idle | mrestart | getw | geth =>
    exact (opBody_keepsBus rfl (by simp) (by simp) hwhole).keepsBusSetup

end Sys2Proof.Machine

open Sys2Proof Sys2Proof.Machine

/-- Settles O15: XFER completes with its transfer, whose frame gives the bits sent and the bits received. -/
theorem xferCompletes : Obligations.XferCompletes := by
  intro b s hready
  obtain ⟨t, hexec, ht⟩ := exec_xfer_completes (b := b) hready
  have hmem := ht.rest.sameMemory
  have hsys := ht.rest.sameSystem
  refine ⟨_, hexec, ?_, ht.sdr, ht.bits, ht.received, ht.tr, ht.idle, ht.bitcnt, ht.setup, ht.rest.disp, ht.rest.eng,
    ht.rest.plat, hmem, hsys⟩
  simp [AckedWith, State.setResult, ht.rest.port]

/-- Settles O16: XFER hangs with its transfer, after the exchanges the shifter had left, and at the load if the bus is off. -/
theorem xferHangs : Obligations.XferHangs := by
  intro b s hready
  obtain ⟨t, hexec, ht⟩ := exec_xfer_hangs (b := b) hready
  obtain ⟨hlt, hcount⟩ := ht.count
  have hmem := ht.rest.sameMemory
  have hsys := ht.rest.sameSystem
  refine ⟨t, hexec, ht.rest.port, ht.stuck, ht.tr, fun hoff => ?_, fun m hen hrole hleft => ?_, ht.setup, ht.rest.disp,
    ht.rest.eng, ht.rest.plat, hmem, hsys⟩
  · rw [exec_xfer_disabled hoff] at hexec
    cases hexec
    exact ⟨rfl, rfl⟩
  · rw [hcount, exchanges_of_stopping (s := s.accept (.xfer b)) hen hrole hleft hlt]

/-- Settles O57: no pseudocode but that of CFGBUS and BOOT writes the configuration, wherever it ends. -/
theorem onlyCfgbusConfiguresBus : Obligations.OnlyCfgbusConfiguresBus := by
  intro i s t hcfgbus hboot hwhole hexec
  rw [next_of_exec hexec]
  exact (opBody_keepsBusSetup (s := s.accept i) hcfgbus hboot hwhole).settle

/-- Settles O13, field by field of the state CFGBUS leaves. -/
theorem cfgbusCompletes : Obligations.CfgbusCompletes := by
  intro s
  refine ⟨s.afterCfgbus, exec_cfgbus s, rfl, ?_⟩
  rw [s.afterCfgbus_bus]
  exact ⟨rfl, rfl, rfl, rfl, rfl, rfl, rfl, rfl, rfl, rfl, rfl, rfl, rfl, rfl, rfl, rfl, rfl, rfl, .of_eq rfl rfl rfl rfl,
    rfl, rfl, rfl, rfl⟩

/-- Settles O14: a second CFGBUS leaves the state of the first. -/
theorem cfgbusIdempotent : Obligations.CfgbusIdempotent := by
  intro s t hexec
  rw [exec_cfgbus] at hexec
  cases hexec
  rw [exec_cfgbus, s.afterCfgbus_afterCfgbus]

end

section
/-! SUPPORT. The Display Controller Driver's operations (spec/41_display_controller.md): how each completes and what it leaves
alone, what a single command leaves whatever command came before it, and that Data Mode holds between operations. -/

namespace Sys2Proof.Machine

/-! ### CMDMODE and DATAMODE (R141, R142) -/

/-- The state that the operation `i`, an entry into mode `m` and nothing else, leaves when it is requested at `s`. -/
def State.afterMode (s : State) (i : Instr) (m : DcMode) : State := ((s.accept i).enterMode m).complete

theorem exec_cmdmode (s : State) : exec .cmdmode s = .next (s.afterMode .cmdmode .cmd) := rfl

theorem exec_datamode (s : State) : exec .datamode s = .next (s.afterMode .datamode .data) := rfl

theorem State.afterMode_disp (s : State) (i : Instr) (m : DcMode) :
    (s.afterMode i m).disp = { s.disp with dc := m, dstate := dstateThen (modeState m) s.disp.dstate } :=
  enterMode_disp (s.accept i) m

/-- A configured DC line is at the level of the mode entered (R29, R36). -/
theorem State.lineLevel_afterMode {s : State} (h : s.plat.pinsOk = true) (i : Instr) (m : DcMode) :
    (s.afterMode i m).lineLevel .dc = (s.afterMode i m).dcLevel :=
  State.lineLevel_wired (s := s.afterMode i m) h .dc

/-! ### An operation of the display driver alone -/

/-- The operation `i`, requested at `s`, has completed at `t` with the events `l`; the display driver and the bus aside, nothing
of the block has moved. -/
structure Displayed (i : Instr) (l : List Event) (s t : State) : Prop where
  acked  : Acked i s t
  emits  : Emits s t l
  setup  : SameBusSetup s t
  eng    : t.eng = s.eng
  plat   : t.plat = s.plat
  memory : SameMemory s t
  system : SameSystem s t

theorem Streamed.displayed {i : Instr} {l : List Event} {n : Nat} {s t : State} (h : Streamed l n (s.accept i) t)
    (ho : DisplayOnly (s.accept i) t) : Displayed i l s t.complete where
  acked := by rw [Acked, State.complete_port, h.part.port, State.accept_port]
  emits := h.emits
  setup := h.part.setup
  eng := ho.eng
  plat := h.part.plat
  memory := (h.part.sameMemory ho.fb : SameMemory (s.accept i) t)
  system := h.part.sameSystem

/-- With the bus ready for its bytes, an operation whose pseudocode leaves the display driver at `d` completes with it there. -/
theorem exec_completes_of_streams {i : Instr} {l : List Event} {n : Nat} {d : Display} {Q : State → Prop} {s : State}
    (hwf : WellFormed i = true)
    (h : Streams l n (fun t => t.disp = d ∧ DisplayOnly (s.accept i) t) Q (s.accept i) (opBody i (s.accept i)))
    (hr : n = 0 ∨ BusReady s n) :
    ∃ t, exec i s = .next t ∧ Displayed i l s t ∧ t.disp = d ∧ (n ≠ 0 → BusIdle t) := by
  obtain ⟨t, hreach, hs, hd, honly⟩ := h.reaches hr
  exact ⟨t.complete, by rw [exec_eq_runOp hwf, runOp_reached hreach], hs.displayed honly, hd, hs.idle⟩

/-! ### The single commands (R143, R150 to R155) -/

/-- The events of a SENDCMD of `c`. -/
def commandEvents (c : Byte) : List Event := [.dc .cmd, .bus .cmd c 0#8, .dc .data]

/-- The operation `i`, which is a SENDCMD of `c`, has completed at `t`. -/
structure CommandSent (i : Instr) (c : Byte) (s t : State) : Prop extends Displayed i (commandEvents c) s t where
  disp : t.disp = { s.disp with dc := .data, dstate := dstateThen .dataMode s.disp.dstate }
  idle : BusIdle t

theorem wellFormed_of_singleCommand {i : Instr} {c : Byte} {g : Cfg} (h : singleCommand g i = some c) : WellFormed i = true := by
  cases i with
  | setch _ _ => cases h
  | _ => rfl

/-- Each of them runs the pseudocode of SENDCMD on its byte (R150). -/
theorem opBody_singleCommand {i : Instr} {c : Byte} {s : State} (h : singleCommand s.cfg i = some c) :
    opBody i (s.accept i) = sendCommand c (s.accept i) := by
  cases i with
  | sendcmd _ | invert _ | fliph _ | flipv _ | allon _ | contrast _ => cases h; rfl
  | _ => cases h

section
variable {i : Instr} {c : Byte} {s : State} (h : singleCommand s.cfg i = some c)
include h

theorem exec_singleCommand_completes (hr : BusReady s 1) : ∃ t, exec i s = .next t ∧ CommandSent i c s t := by
  have hstreams := sendCommand_streams c (s.accept i)
  rw [← opBody_singleCommand h] at hstreams
  obtain ⟨t, hexec, ht, hd, hidle⟩ := exec_completes_of_streams (wellFormed_of_singleCommand h) hstreams (.inr hr)
  exact ⟨t, hexec, ht, hd, hidle Nat.one_ne_zero⟩

/-- A single command completes only where its byte does, and then leaves what R143 says. -/
theorem commandSent_of_completed {t : State} (hexec : exec i s = .next t) (hdone : t.port.opBusy = false) :
    CommandSent i c s t := by
  have ht := next_of_exec hexec
  have hstreams := sendCommand_streams c (s.accept i)
  rw [opBody_singleCommand h] at ht
  cases hr : sendCommand c (s.accept i) with
  | reached u =>
    obtain ⟨hu, hd, honly⟩ := hstreams.1 u hr
    rw [hr, Run.settle_reached] at ht
    exact ht ▸ ⟨hu.displayed honly, hd, hu.idle Nat.one_ne_zero⟩
  | stuck u =>
    obtain ⟨hu, -⟩ := hstreams.2 u hr
    rw [hr, Run.settle_stuck] at ht
    rw [ht, hu.part.port] at hdone
    cases hdone

/-- A single command hangs where its byte does, with DC at CMD (R143 Exceptions, R242). -/
theorem exec_singleCommand_hangs (hr : ¬ BusReady s 1) : ∃ t, exec i s = .next t ∧ Part (s.accept i) t ∧ BusStuck t
    ∧ t.tr = s.tr ++ [.dc .cmd] ∧ t.disp = { s.disp with dc := .cmd, dstate := dstateThen .commandMode s.disp.dstate }
    ∧ DisplayOnly (s.accept i) t := by
  obtain ⟨t, hstuck, ht, hd, honly, htr⟩ := (sendCommand_streams c (s.accept i)).stalls Nat.one_ne_zero hr
  rw [← opBody_singleCommand h] at hstuck
  exact ⟨t, by rw [exec_eq_runOp (wellFormed_of_singleCommand h), runOp_stuck hstuck], ht.part, ht.stuck, htr, hd, honly⟩

end

/-! ### A single command after another (R156) -/

theorem SameBusSetup.symm {s t : State} (h : SameBusSetup s t) : SameBusSetup t s := by
  obtain ⟨hen, hrole, horder, hcpol, hcpha, hdiv⟩ := h
  exact ⟨hen.symm, hrole.symm, horder.symm, hcpol.symm, hcpha.symm, hdiv.symm⟩

theorem SameMemory.symm {s t : State} (h : SameMemory s t) : SameMemory t s :=
  ⟨fun a => (h.1 a).symm, fun a => (h.2 a).symm⟩

theorem SameMemory.trans {s t u : State} (h : SameMemory s t) (g : SameMemory t u) : SameMemory s u :=
  ⟨fun a => (g.1 a).trans (h.1 a), fun a => (g.2 a).trans (h.2 a)⟩

theorem CommandSent.port {i : Instr} {c : Byte} {s t : State} (h : CommandSent i c s t) :
    t.port = { s.port with opBusy := false, opWord := encode i, opAck := true } := h.acked

section
variable {i j : Instr} {b c : Byte} {s t u v : State} (hst : CommandSent i b s t) (htu : CommandSent j c t u)
  (hsv : CommandSent j c s v)
include hst htu hsv

/-- Requester interface and display driver after two single commands are those after the second alone. -/
theorem CommandSent.same_port_disp : u.port = v.port ∧ u.disp = v.disp := by
  refine ⟨by rw [htu.port, hst.port, hsv.port], ?_⟩
  rw [htu.disp, hst.disp, hsv.disp]
  simp [dstateThen_twice]

/-- What no single command touches is after two of them as after the second alone. -/
theorem CommandSent.same_frame :
    u.eng = v.eng ∧ u.plat = v.plat ∧ SameBusSetup v u ∧ SameMemory v u :=
  ⟨(htu.eng.trans hst.eng).trans hsv.eng.symm, (htu.plat.trans hst.plat).trans hsv.plat.symm,
    hsv.setup.symm.trans (hst.setup.trans htu.setup), hsv.memory.symm.trans (hst.memory.trans htu.memory)⟩

end

/-! ### The sink after a single command (R72) -/

theorem toggled_off (p : OpPair) (old : Bool) : toggled p p.off old = false := if_pos rfl

theorem SamePanel.symm {k l : Sink} (h : SamePanel k l) : SamePanel l k :=
  ⟨h.on.symm, h.flipH.symm, h.flipV.symm, h.allOn.symm, h.contrast.symm, h.ram.symm, h.epoch.symm⟩

theorem SamePanel.trans {k l m : Sink} (h : SamePanel k l) (g : SamePanel l m) : SamePanel k m :=
  ⟨g.on.trans h.on, g.flipH.trans h.flipH, g.flipV.trans h.flipV, g.allOn.trans h.allOn, g.contrast.trans h.contrast,
    g.ram.trans h.ram, g.epoch.trans h.epoch⟩

/-- An INVERT byte that is no other command leaves the panel but for INV, whether or not the two bytes differ. -/
theorem sinkCommand_samePanel {c : Cfg} (h : InvertBytesOwn c) {b : Byte} (hb : b ∈ [c.opcInvert.off, c.opcInvert.on])
    (k : Sink) : SamePanel k (sinkCommand c b k) := by
  have hown := h b hb
  simp only [List.mem_append, List.mem_cons, not_or] at hown
  obtain ⟨⟨hh0, hh1, hv0, hv1, ha0, ha1, hc0, hc1, -⟩, hshut⟩ := hown
  constructor
  case on => simp [sinkCommand, hshut]
  case flipH => exact (if_neg hh0).trans (if_neg hh1)
  case flipV => exact (if_neg hv0).trans (if_neg hv1)
  case allOn => exact (if_neg ha0).trans (if_neg ha1)
  case contrast => exact (if_neg hc0).trans (if_neg hc1)
  case ram | epoch => rfl

section
variable {i : Instr} {c : Byte} {s t : State} (h : CommandSent i c s t) (hs : s.sinkShows = true)
include h hs

theorem CommandSent.sink : t.sink = sinkCommand s.cfg c s.sink := by
  obtain ⟨hcfg, -⟩ := h.system
  rw [h.emits.sink hcfg]
  simp [commandEvents, sinkStep, State.sinkShows_inReset hs]

/-- Where something may be said of the picture before a single command, it may after it. -/
theorem CommandSent.sinkShows : t.sinkShows = true := by
  have hk : t.sink.known = s.sink.known := by rw [h.sink hs]; rfl
  have hr : t.sink.inReset = s.sink.inReset := by rw [h.sink hs]; rfl
  simp only [State.sinkShows, Bool.and_eq_true, Bool.or_eq_true, beq_iff_eq] at hs
  obtain ⟨hshown, hmode⟩ := hs
  have hd : t.disp.dstate = .dataMode := by
    rw [h.disp]
    rcases hmode with hm | hm <;> simp [dstateThen, hm]
  simp [State.sinkShows, hk, hr, hshown, hd]

theorem CommandSent.sink_not_inverted (hc : c = s.cfg.opcInvert.off) : t.sink.inv = false := by
  rw [h.sink hs, hc]
  exact toggled_off _ _

theorem CommandSent.samePanel (hown : InvertBytesOwn s.cfg) (hc : c ∈ [s.cfg.opcInvert.off, s.cfg.opcInvert.on]) :
    SamePanel s.sink t.sink := by
  rw [h.sink hs]
  exact sinkCommand_samePanel hown hc s.sink

end

/-! ### PAINT in Data Mode (R172, R174, R181) -/

/-- Where the flow `r` reaches its end, the display driver is at `d`. -/
def EndsAt (d : Display) (r : Run) : Prop := r.Ends (fun t => t.disp = d) fun _ => True

section
variable {d : Display} {s : State} (h : s.disp = d)
include h

theorem transfer_endsAt (b : Byte) : EndsAt d (s.transfer b) :=
  (transfer_ends s b).mono (fun _ ht => ht.rest.disp.trans h) fun _ _ => trivial

theorem paintByte_endsAt (i : Nat) : EndsAt d (paintByte i s) := by
  unfold paintByte
  exact transfer_endsAt (by rw [clearIf_disp]; exact h) _

theorem expandShift_endsAt (pack : Expander → Byte → Byte → Byte) (sh k : Nat) : EndsAt d (expandShift pack sh k s) := by
  unfold expandShift
  exact Run.Ends.map (transfer_endsAt (by exact h) _) fun t ht => ht

theorem expandPair_endsAt (pack : Expander → Byte → Byte → Byte) (n sh x q : Nat) : EndsAt d (expandPair pack n sh x q s) := by
  refine Run.Ends.map (P := fun t => t.disp = d) ?_ fun t ht => ht
  refine loop_ends (P := fun _ t => t.disp = d) ?_ fun k t _ ht => expandShift_endsAt ht pack sh k
  rw [clearIf_disp, clearIf_disp]
  exact h

theorem paintExpand_endsAt (pack : Expander → Byte → Byte → Byte) (n sh : Nat) : EndsAt d (paintExpand pack n sh s) := by
  refine loop_ends (P := fun _ t => t.disp = d) h fun x t _ ht => Run.Ends.map (P := fun t => t.disp = d) ?_ fun u hu => hu
  exact loop_ends (P := fun _ t => t.disp = d) ht fun q u _ hu => expandPair_endsAt hu pack n sh x q

end

theorem InDataMode.of_disp {s t : State} (h : InDataMode s) (hd : t.disp = s.disp) : InDataMode t := by
  unfold InDataMode
  rw [hd]
  exact h

/-- A page leaves Data Mode for its command pair and enters it again for its bytes (R172). -/
theorem paintPage_inDataMode {s : State} (h : InDataMode s) (p : Nat) : (paintPage p s).Ends InDataMode fun _ => True := by
  have hcmd : ((s.setEng { s.eng with page := BitVec.ofNat 8 p }).enterMode .cmd).disp =
      { s.disp with dc := .cmd, dstate := .commandMode } := by
    rw [enterMode_disp, State.setEng_disp, h.2]
    rfl
  refine (transfer_endsAt hcmd _).bind fun t ht => (transfer_endsAt ht _).bind fun u hu => ?_
  have hdata : InDataMode (u.enterMode .data) := by
    rw [InDataMode, enterMode_disp, hu]
    exact ⟨rfl, rfl⟩
  refine loop_ends (P := fun _ => InDataMode) hdata fun k v _ hv => ?_
  exact (paintByte_endsAt rfl _).mono (fun w hw => hv.of_disp hw) fun _ ht => ht

theorem paintBody_inDataMode {s : State} (h : InDataMode s) (f : Bool) : (paintBody f s).Ends InDataMode fun _ => True := by
  have kept {r : Run} (hr : EndsAt s.disp r) : r.Ends InDataMode fun _ => True :=
    hr.mono (fun _ ht => h.of_disp ht) fun _ ht => ht
  unfold paintBody
  simp only [State.setEng_cfg]
  cases s.cfg.family with
  | paged1 => exact loop_ends (P := fun _ => InDataMode) h fun p t _ ht => paintPage_inDataMode ht p
  | linear1 => exact kept (loop_ends (P := fun _ t => t.disp = s.disp) rfl fun i t _ ht => paintByte_endsAt ht i)
  | exp4 => exact kept (paintExpand_endsAt rfl pack4 8 1)
  | exp2 => exact kept (paintExpand_endsAt rfl pack2 4 2)

/-! ### Data Mode between operations (R160) -/

/-- Where a flow begun in an operation reaches its end, the driver is in Data Mode; where it is stuck, the operation is still in
progress. -/
def EndsInDataMode (r : Run) : Prop := r.Ends InDataMode fun t => t.port.opBusy = true

theorem EndsInDataMode.settle {r : Run} (h : EndsInDataMode r) (hdone : r.settle.port.opBusy = false) : InDataMode r.settle := by
  cases r with
  | reached t => exact h.1 t rfl
  | stuck t => exact absurd hdone (by rw [Run.settle_stuck, h.2 t rfl]; decide)

theorem Streams.endsInDataMode {l : List Event} {n : Nat} {P Q : State → Prop} {s : State} {r : Run} (h : Streams l n P Q s r)
    (hs : s.port.opBusy = true) (hP : ∀ t, P t → InDataMode t) : EndsInDataMode r :=
  Run.Ends.mono h (fun t ht => hP t ht.2) fun t ht => by rw [ht.1.part.port]; exact hs

theorem bootDisplay_endsInDataMode {s : State} (hs : s.port.opBusy = true) : EndsInDataMode (bootDisplay s) :=
  (bootDisplay_streams s).endsInDataMode hs fun t ht => by rw [InDataMode, ht.1]; exact ⟨rfl, rfl⟩

theorem bootBody_endsInDataMode {s : State} (hs : s.port.opBusy = true) : EndsInDataMode (bootBody s) :=
  Run.Ends.bind (bootDisplay_endsInDataMode hs) fun _ ht => Run.ends_reached (ht.of_disp rfl)

section
variable {s : State} (hs : s.port.opBusy = true) (h : InDataMode s)
include hs h

theorem sendCommand_endsInDataMode (c : Byte) : EndsInDataMode (sendCommand c s) :=
  (sendCommand_streams c s).endsInDataMode hs fun t ht => by rw [InDataMode, ht.1, h.2]; exact ⟨rfl, rfl⟩

theorem paintBody_endsInDataMode (f : Bool) : EndsInDataMode (paintBody f s) := by
  refine ⟨(paintBody_inDataMode h f).1, fun t ht => ?_⟩
  obtain ⟨hpart, -⟩ := (paintBody_flows f s).ends.2 t ht
  rw [hpart.port]
  exact hs

theorem safemodeBody_endsInDataMode : EndsInDataMode (safemodeBody s) := by
  obtain ⟨-, e, he, -⟩ := drawButtons_spec s
  unfold safemodeBody
  simp only [he]
  split
  · exact Run.ends_reached (h.of_disp rfl)
  · obtain ⟨p, hp, -⟩ := enterSafeHalt_spec ((s.setEnv e).emit (.btn s.drawButtons.1))
    exact Run.ends_stuck (by rw [hp]; exact hs)

theorem idleBody_endsInDataMode : EndsInDataMode (idleBody s) := by
  obtain ⟨t, hrest, hwake, hsleep⟩ := idleBody_spec s
  cases hw : s.wakeNow with
  | true => rw [(hwake hw).1]; exact Run.ends_reached (h.of_disp hrest.disp)
  | false => rw [(hsleep hw).1]; exact Run.ends_stuck (by rw [hrest.port]; exact hs)

/-- Every operation that neither enters Command Mode for good nor drives DC to a free level, from Data Mode. -/
theorem opBody_endsInDataMode {i : Instr} (hcmdmode : i ≠ .cmdmode) (hshutdown : i ≠ .shutdown) (hcfgpins : i ≠ .cfgpins)
    (hmrestart : i ≠ .mrestart) : EndsInDataMode (opBody i s) := by
  cases i with
  | cmdmode => exact absurd rfl hcmdmode
  | shutdown => exact absurd rfl hshutdown
  | cfgpins => exact absurd rfl hcfgpins
  | mrestart => exact absurd rfl hmrestart
  | datamode =>
    refine Run.ends_reached ?_
    rw [InDataMode, enterMode_disp, h.2]
    exact ⟨rfl, rfl⟩
  | sendcmd _ | invert _ | fliph _ | flipv _ | allon _ | contrast _ => exact sendCommand_endsInDataMode hs h _
  | bootdisp => exact bootDisplay_endsInDataMode hs
  | boot => exact bootBody_endsInDataMode hs
  | paint f => exact paintBody_endsInDataMode hs h f
  | xfer b =>
    exact Run.Ends.map ((transfer_streams s b).endsInDataMode hs fun t ht => h.of_disp ht.disp) fun t ht => ht.of_disp rfl
  | rdbtn =>
    obtain ⟨-, e, he, -⟩ := drawButtons_spec s
    exact Run.ends_reached (h.of_disp (by rw [he]; rfl))
  | setch ch v =>
    simp only [opBody]
    split
    · next c _ =>
      obtain ⟨t, hreach, rfl⟩ := setchBody_spec c v s
      rw [hreach]
      exact Run.ends_reached (h.of_disp rfl)
    · exact Run.ends_reached h
  | safemode => exact safemodeBody_endsInDataMode hs h
  | idle => exact idleBody_endsInDataMode hs h
  | cfgbus | cfgpwr | relch | getw | geth => exact Run.ends_reached (h.of_disp rfl)

end

end Sys2Proof.Machine

open Sys2Proof Sys2Proof.Machine

/-- Settles O17, field by field of the state an entry into a mode leaves. -/
theorem modeTogglesComplete : Obligations.ModeTogglesComplete := by
  intro s
  refine ⟨⟨_, exec_cmdmode s, rfl, s.afterMode_disp .cmdmode .cmd, rfl, ?_, rfl, rfl, rfl, rfl,
      .of_eq rfl rfl rfl rfl, rfl, rfl, rfl, rfl⟩,
    ⟨_, exec_datamode s, rfl, s.afterMode_disp .datamode .data, rfl, ?_, rfl, rfl, rfl, rfl,
      .of_eq rfl rfl rfl rfl, rfl, rfl, rfl, rfl⟩⟩
  · exact fun hpins => State.lineLevel_afterMode hpins .cmdmode .cmd
  · exact fun hpins => State.lineLevel_afterMode hpins .datamode .data

/-- Settles O18: each of the six runs SENDCMD's pseudocode, which completes with its byte. -/
theorem singleCommandCompletes : Obligations.SingleCommandCompletes := by
  intro i c s hc hready
  obtain ⟨t, hexec, ht⟩ := exec_singleCommand_completes hc hready
  exact ⟨t, hexec, ht.acked, ht.emits, ht.disp, ht.idle, ht.setup, ht.eng, ht.plat, ht.memory, ht.system⟩

/-- Settles O19: each of the six hangs with its byte, after the entry into Command Mode. -/
theorem singleCommandHangs : Obligations.SingleCommandHangs := by
  intro i c s hc hready
  obtain ⟨t, hexec, hpart, hstuck, htr, hd, honly⟩ := exec_singleCommand_hangs hc hready
  exact ⟨t, hexec, hpart.port, hstuck, htr, hd, hpart.setup, honly.eng, hpart.plat, hpart.sameMemory honly.fb,
    hpart.sameSystem⟩

/-- Settles O20: pulse, clear pass and table stream one after the other. -/
theorem bootdispCompletes : Obligations.BootdispCompletes := by
  intro s hready
  obtain ⟨t, hexec, ht, hd, -⟩ := exec_completes_of_streams (i := .bootdisp) rfl (bootDisplay_streams _) hready
  exact ⟨t, hexec, ht.acked, ht.emits, hd, ht.setup, ht.eng, ht.plat, ht.memory, ht.system⟩

/-- Settles O22: a legal build has bytes to send, so the bus is idle after the last of them. -/
theorem shutdownCompletes : Obligations.ShutdownCompletes := by
  intro s hl hready
  obtain ⟨-, hcmd, -⟩ := legal_parts hl
  obtain ⟨hlen, -⟩ := legalCommands_lists hcmd
  have hsends : s.cfg.shutdownSeq.length ≠ 0 := by omega
  obtain ⟨t, hexec, ht, hd, hidle⟩ :=
    exec_completes_of_streams (i := .shutdown) rfl (shutdownBody_streams _) (.inr hready)
  exact ⟨t, hexec, ht.acked, ht.emits, hd, hidle hsends, ht.setup, ht.eng, ht.plat, ht.memory, ht.system⟩

/-- Settles O23: wherever its pseudocode reaches its end the driver is in Data Mode; where it is stuck it has not completed. -/
theorem dataModeBetweenOperations : Obligations.DataModeBetweenOperations := by
  intro i s t hexec hdone
  rw [next_of_exec hexec] at hdone ⊢
  refine ⟨fun hboot => ?_, fun h hcmdmode hshutdown hcfgpins hmrestart => ?_⟩
  · rcases hboot with rfl | rfl
    · exact (bootDisplay_endsInDataMode (s := s.accept .bootdisp) rfl).settle hdone
    · exact (bootBody_endsInDataMode (s := s.accept .boot) rfl).settle hdone
  · exact (opBody_endsInDataMode (s := s.accept i) rfl (h.of_disp rfl) hcmdmode hshutdown hcfgpins hmrestart).settle hdone

/-- Settles O25: a second single command hides the first, and the panel moves in INV alone, which INVERT 0 clears. -/
theorem invertRoundTrip : Obligations.InvertRoundTrip := by
  intro s t u v hst htdone htu hudone hsv hvdone
  have ht : CommandSent (.invert true) s.cfg.opcInvert.on s t := commandSent_of_completed rfl hst htdone
  obtain ⟨htcfg, -, htlives, -⟩ := ht.system
  have hu : CommandSent (.invert false) s.cfg.opcInvert.off t u :=
    commandSent_of_completed (by rw [htcfg]; rfl) htu hudone
  have hv : CommandSent (.invert false) s.cfg.opcInvert.off s v := commandSent_of_completed rfl hsv hvdone
  obtain ⟨hport, hdisp⟩ := ht.same_port_disp hu hv
  obtain ⟨heng, hplat, hsetup, hmemory⟩ := ht.same_frame hu hv
  refine ⟨hport, hdisp, heng, hplat, hsetup, hmemory, fun hshows => ?_⟩
  have htshows := ht.sinkShows hshows
  have huinv := hu.sink_not_inverted htshows (by rw [htcfg])
  have hvinv := hv.sink_not_inverted hshows rfl
  refine ⟨huinv, hvinv, fun hown => ?_⟩
  have hvpanel := hv.samePanel hshows hown (by simp)
  have hupanel := (ht.samePanel hshows hown (by simp)).trans (hu.samePanel htshows (by rwa [htcfg]) (by simp [htcfg]))
  obtain ⟨hucfg, -, hulives, -⟩ := hu.system
  obtain ⟨hvcfg, -, hvlives, -⟩ := hv.system
  refine ⟨fun x y => ?_, fun hsinv x y => ?_⟩
  · exact picture_congr ((hucfg.trans htcfg).trans hvcfg.symm) ((hulives.trans htlives).trans hvlives.symm)
      (hvpanel.symm.trans hupanel) (huinv.trans hvinv.symm) (hv.sinkShows hshows) (hu.sinkShows htshows) x y
  · exact picture_congr (hucfg.trans htcfg) (hulives.trans htlives) hupanel (huinv.trans hsinv.symm) hshows
      (hu.sinkShows htshows) x y

end

section
/-! SUPPORT. The Framebuffer Transfer Engine (spec/42_transfer_engine.md): the completion and the hang of PAINT, said once for all
four variants, and the bytes sent on either path; which source bit each group of an expander byte carries under the default
traversal; and what a paged PAINT stores in the reference sink. -/

namespace Sys2Proof.Machine

/-! ### The events and the display driver of each variant (R172, R174, R181) -/

section
variable {s : State}

theorem paintEvents_linear (h : s.cfg.family = .linear1) : paintEvents s = transfers s.disp.dc (linearBytes s) := by
  simp only [paintEvents, h]

theorem paintEvents_paged (h : s.cfg.family = .paged1) : paintEvents s = pagedEvents s := by
  simp only [paintEvents, h]

theorem paintEvents_exp4 (h : s.cfg.family = .exp4) :
    paintEvents s = transfers s.disp.dc (expanderBytes pack4 8 1 s) := by
  simp only [paintEvents, h]

theorem paintEvents_exp2 (h : s.cfg.family = .exp2) :
    paintEvents s = transfers s.disp.dc (expanderBytes pack2 4 2 s) := by
  simp only [paintEvents, h]

theorem paintDisp_paged (h : s.cfg.family = .paged1) : paintDisp s = pagedDisp s := if_pos h

theorem paintDisp_of_not_paged (h : s.cfg.family ≠ .paged1) : paintDisp s = s.disp := if_neg h

end

/-! ### How a PAINT ends (R170, R185, R242) -/

theorem length_traversal (e : Expander) : (traversal e).length = e.outerCount * e.innerCount * 2 := by
  rw [traversal_eq_pairs, length_flatMap_blocks (length_pairOf e), pairStarts,
    length_flatMap_blocks (n := e.innerCount) (fun x => by simp), List.length_range]

/-- In a legal build a PAINT has bytes to send. -/
theorem paintLength_pos {c : Cfg} (hl : legal c = true) : 0 < paintLength c := by
  have hfb := fbSize_pos hl
  have pairs (hf : c.family = .exp4 ∨ c.family = .exp2) : 0 < c.expander.outerCount * c.expander.innerCount := by
    have hlen := (covers_of_legal hl hf).length
    rw [length_traversal] at hlen
    omega
  unfold paintLength
  cases hf : c.family with
  | paged1 => exact Nat.mul_pos (pageCount_pos hl) (Nat.succ_pos _)
  | linear1 => exact hfb
  | exp4 => exact Nat.mul_pos (pairs (.inl hf)) (by decide)
  | exp2 => exact Nat.mul_pos (pairs (.inr hf)) (by decide)

/-- PAINT f, requested at `s`, completes with the events `l`, the display driver at `d` and the framebuffer as R185 says. -/
def PaintCompletes (f : Bool) (l : List Event) (d : Display) (s : State) : Prop :=
  ∃ t, exec (.paint f) s = .next t ∧ Acked (.paint f) s t ∧ Emits s t l ∧ FbAfterPaint f s t
    ∧ (∀ a, t.mkRead a = s.mkRead a) ∧ t.disp = d ∧ BusIdle t ∧ SameBusSetup s t ∧ t.plat = s.plat ∧ SameSystem s t

section
variable {s : State} (hl : legal s.cfg = true) (f : Bool)
include hl

theorem paintCompletes_of_busReady (hr : BusReady s (paintLength s.cfg)) :
    PaintCompletes f (paintEvents s) (paintDisp s) s := by
  obtain ⟨t, hreach, ht, hfb, hd⟩ := (paint_streams (s := s.accept (.paint f)) hl f).reaches (.inr hr)
  have hacked : Acked (.paint f) s t.complete := by rw [Acked, State.complete_port, ht.part.port, State.accept_port]
  exact ⟨t.complete, runOp_reached hreach, hacked, ht.emits, hfb, ht.part.mkRead, hd, ht.idle (paintLength_pos hl).ne',
    ht.part.setup, ht.part.plat, ht.part.sameSystem⟩

theorem exec_paint_hangs (hr : ¬ BusReady s (paintLength s.cfg)) :
    ∃ t, exec (.paint f) s = .next t ∧ Stalled (paintEvents s) (paintLength s.cfg) (s.accept (.paint f)) t
      ∧ ∀ a, t.fbRead a = s.fbRead a ∨ (f = true ∧ a < fbSize s.cfg ∧ t.fbRead a = 0#8) := by
  obtain ⟨t, hstuck, ht, hfb⟩ := (paint_streams (s := s.accept (.paint f)) hl f).stalls (paintLength_pos hl).ne' hr
  exact ⟨t, runOp_stuck hstuck, ht, hfb⟩

/-- Complete or not, a PAINT has sent a beginning of its events. -/
theorem exec_paint_emits_prefix : ∃ t l, exec (.paint f) s = .next t ∧ Emits s t l ∧ l <+: paintEvents s := by
  by_cases hr : BusReady s (paintLength s.cfg)
  · obtain ⟨t, hexec, -, hev, -⟩ := paintCompletes_of_busReady hl f hr
    exact ⟨t, _, hexec, hev, List.prefix_refl _⟩
  · obtain ⟨t, hexec, ht, -⟩ := exec_paint_hangs hl f hr
    obtain ⟨l, hev, hprefix⟩ := ht.emits
    exact ⟨t, l, hexec, hev, hprefix⟩

end

/-! ### Every index once (R182, R185) -/

/-- Rows of `w` consecutive numbers, one after the other, are consecutive. -/
theorem flatMap_rows_eq_range (n w : Nat) :
    ((List.range n).flatMap fun p => (List.range w).map fun k => p * w + k) = List.range (n * w) := by
  induction n with
  | zero => rw [Nat.zero_mul]; rfl
  | succ n ih => rw [List.range_succ, List.flatMap_append, ih, List.flatMap_singleton, Nat.succ_mul, List.range_add]

/-! ### The bytes of an all-zero framebuffer (R187) -/

theorem mem_transfers {m : DcMode} {bs : List Byte} {n : DcMode} {tx rx : Byte} (h : Event.bus n tx rx ∈ transfers m bs) :
    n = m ∧ tx ∈ bs := by
  obtain ⟨b, hb, he⟩ := List.mem_map.1 h
  cases he
  exact ⟨rfl, hb⟩

theorem getElem?_pageSelect {c : Cfg} (hl : legal c = true) {p : Nat} (hp : p < pageCount c) :
    c.pageSelect[p]? = some (pageSelectByte c p) := by
  obtain ⟨-, hcmd, -⟩ := legal_parts hl
  obtain ⟨-, -, hlen, -⟩ := legalCommands_lists hcmd
  have hlt : p < c.pageSelect.length := hlen.symm ▸ hp
  rw [pageSelectByte, List.getD_eq_getElem _ _ hlt, List.getElem?_eq_getElem hlt]

theorem pack4_zero (e : Expander) : pack4 e 0#8 0#8 = 0#8 := by simp [pack4, group4]

theorem pack2_zero (e : Expander) : pack2 e 0#8 0#8 = 0#8 := by simp [pack2, group2]

/-- The framebuffer of `s` is all zero. -/
def BlankFb (s : State) : Prop := ∀ a < fbSize s.cfg, s.fbRead a = 0#8

section
variable {s : State} (hz : BlankFb s)
include hz

theorem BlankFb.linearBytes_zero {b : Byte} (hb : b ∈ linearBytes s) : b = 0#8 := by
  obtain ⟨a, ha, rfl⟩ := List.mem_map.1 hb
  exact hz a (List.mem_range.1 ha)

theorem BlankFb.expanderBytes_zero (hcov : Covers s.cfg) {pack : Expander → Byte → Byte → Byte}
    (hpack : ∀ e, pack e 0#8 0#8 = 0#8) {n sh : Nat} {b : Byte} (hb : b ∈ expanderBytes pack n sh s) : b = 0#8 := by
  rw [expanderBytes_eq_pairs] at hb
  obtain ⟨i, hi, hb⟩ := List.mem_flatMap.1 hb
  obtain ⟨k, -, rfl⟩ := List.mem_map.1 hb
  have source : ∀ a ∈ pairOf s.cfg.expander i, s.fbRead a = 0#8 := fun a ha =>
    hz a (hcov.below a (by rw [traversal_eq_pairs]; exact List.mem_flatMap.2 ⟨i, hi, ha⟩))
  rw [source i (by simp [pairOf]), source (i + s.cfg.expander.pairOffset) (by simp [pairOf]), BitVec.zero_ushiftRight, hpack]

/-- The bytes of a page: the command pair, and zeros in Data Mode. -/
theorem BlankFb.pageEvents_bytes {p : Nat} (hp : (p + 1) * s.cfg.width ≤ fbSize s.cfg) {m : DcMode} {tx rx : Byte}
    (h : Event.bus m tx rx ∈ pageEvents s p) :
    tx = 0#8 ∨ m = .cmd ∧ (tx = pageSelectByte s.cfg p ∨ tx = s.cfg.columnReset) := by
  rcases List.mem_append.1 h with h | h
  · right
    simp only [List.mem_cons, List.not_mem_nil, reduceCtorEq, Event.bus.injEq, false_or, or_false] at h
    rcases h with ⟨rfl, rfl, -⟩ | ⟨rfl, rfl, -⟩
    · exact ⟨rfl, .inl rfl⟩
    · exact ⟨rfl, .inr rfl⟩
  · left
    obtain ⟨-, h⟩ := mem_transfers h
    obtain ⟨k, hk, rfl⟩ := List.mem_map.1 h
    rw [Nat.succ_mul] at hp
    exact hz _ (by have := List.mem_range.1 hk; omega)

/-- A byte of a PAINT is zero or a command byte of the paged pairs. -/
theorem BlankFb.paintEvents_bytes (hl : legal s.cfg = true) {m : DcMode} {tx rx : Byte} (h : Event.bus m tx rx ∈ paintEvents s) :
    tx = 0#8 ∨ s.cfg.family = .paged1 ∧ m = .cmd ∧ (tx ∈ s.cfg.pageSelect ∨ tx = s.cfg.columnReset) := by
  cases hf : s.cfg.family with
  | paged1 =>
    rw [paintEvents_paged hf] at h
    obtain ⟨p, hp, h⟩ := List.mem_flatMap.1 h
    have hpage : p < pageCount s.cfg := List.mem_range.1 hp
    have hfit : (p + 1) * s.cfg.width ≤ fbSize s.cfg := by
      rw [← pageCount_mul_width hl]
      exact Nat.mul_le_mul_right _ hpage
    rcases hz.pageEvents_bytes hfit h with h0 | ⟨hm, rfl | hcol⟩
    · exact .inl h0
    · exact .inr ⟨rfl, hm, .inl (List.mem_of_getElem? (getElem?_pageSelect hl hpage))⟩
    · exact .inr ⟨rfl, hm, .inr hcol⟩
  | linear1 =>
    rw [paintEvents_linear hf] at h
    exact .inl (hz.linearBytes_zero (mem_transfers h).2)
  | exp4 =>
    rw [paintEvents_exp4 hf] at h
    exact .inl (hz.expanderBytes_zero (covers_of_legal hl (.inl hf)) pack4_zero (mem_transfers h).2)
  | exp2 =>
    rw [paintEvents_exp2 hf] at h
    exact .inl (hz.expanderBytes_zero (covers_of_legal hl (.inr hf)) pack2_zero (mem_transfers h).2)

end

/-- A byte on the bus is one of the events named, whatever was received. -/
theorem bus_mem_of_shape {l ev : List Event} (h : ev.map Event.shape = l) {m : DcMode} {tx rx : Byte}
    (he : Event.bus m tx rx ∈ ev) : Event.bus m tx 0#8 ∈ l := h ▸ List.mem_map_of_mem (f := Event.shape) he

/-! ### The default traversal (R181 Defaults, R183, R184) -/

theorem pairStarts_getElem? {e : Expander} {x q : Nat} (hx : x < e.outerCount) (hq : q < e.innerCount) :
    (pairStarts e)[x * e.innerCount + q]? = some (pairIndex e x q) := by
  rw [pairStarts, getElem?_flatMap_blocks (n := e.innerCount) (fun x => by simp) _ _ hq, List.getElem?_range hx,
    Option.bind_some, List.getElem?_map, List.getElem?_range hq, Option.map_some]

section
variable {c : Cfg} (h : DefaultTraversal c) (heven : pageCount c % 2 = 0)
include h

theorem DefaultTraversal.constants : c.expander.pairOffset = c.width ∧ c.expander.innerStride = 2 * c.width
    ∧ c.expander.innerCount = pageCount c / 2 ∧ c.expander.outerCount = c.width
    ∧ c.expander.backOffset = c.width * pageCount c - 1 := by
  unfold DefaultTraversal at h
  rw [h]
  exact ⟨rfl, rfl, rfl, rfl, rfl⟩

include heven

/-- Each inner loop moves IDX on by the whole framebuffer, and the back offset takes all of that but one away. -/
theorem DefaultTraversal.columnStart (hpos : 0 < c.width * pageCount c) (x : Nat) : columnStart c.expander x = x := by
  obtain ⟨-, hstride, hinner, -, hback⟩ := h.constants
  have hloop : c.expander.innerCount * c.expander.innerStride = c.width * pageCount c := by
    rw [hinner, hstride, ← Nat.mul_assoc, Nat.div_mul_cancel (Nat.dvd_of_mod_eq_zero heven), Nat.mul_comm]
  induction x with
  | zero => rfl
  | succ x ih =>
    rw [Machine.columnStart, ih, hloop, hback]
    omega

/-- Pair `q` of column `x` is the bytes that hold the column's pixels from 16q and from 16q + 8 on. -/
theorem DefaultTraversal.exists_pair {x q : Nat} (hx : x < c.width) (hq : q < pageCount c / 2) :
    ∃ i, (pairStarts c.expander)[x * (pageCount c / 2) + q]? = some i
      ∧ (∀ k < 8, pixelIndex c x (16 * q + k) = i)
      ∧ ∀ k < 8, pixelIndex c x (16 * q + 8 + k) = i + c.expander.pairOffset := by
  obtain ⟨hoffset, hstride, hinner, houter, -⟩ := h.constants
  have hi : pairIndex c.expander x q = x + q * (2 * c.width) := by
    rw [pairIndex, h.columnStart heven (Nat.mul_pos (by omega) (by omega)), hstride]
  have hpair := pairStarts_getElem? (e := c.expander) (x := x) (q := q) (by rwa [houter]) (by rwa [hinner])
  rw [hinner] at hpair
  refine ⟨_, hpair, fun k hk => ?_, fun k hk => ?_⟩
  · rw [hi, pixelIndex, show (16 * q + k) / 8 = 2 * q by omega]
    ring
  · rw [hi, hoffset, pixelIndex, show (16 * q + 8 + k) / 8 = 2 * q + 1 by omega]
    ring

end

/-- The same in the bits of the two source bytes. -/
theorem DefaultTraversal.pair_bits {s : State} (h : DefaultTraversal s.cfg) (heven : pageCount s.cfg % 2 = 0) {x q : Nat}
    (hx : x < s.cfg.width) (hq : q < pageCount s.cfg / 2) :
    ∃ i, (pairStarts s.cfg.expander)[x * (pageCount s.cfg / 2) + q]? = some i
      ∧ (∀ k < 8, (s.fbRead i).getLsbD k = s.pixelOn x (16 * q + k))
      ∧ ∀ k < 8, (s.fbRead (i + s.cfg.expander.pairOffset)).getLsbD k = s.pixelOn x (16 * q + 8 + k) := by
  obtain ⟨i, hi, hlower, hupper⟩ := h.exists_pair heven hx hq
  refine ⟨i, hi, fun k hk => ?_, fun k hk => ?_⟩
  · rw [State.pixelOn, hlower k hk, pixelBit, show (16 * q + k) % 8 = k by omega]
  · rw [State.pixelOn, hupper k hk, pixelBit, show (16 * q + 8 + k) % 8 = k by omega]

/-- The groups of the `k`-th EXP2 byte of a pair come from bits 2k and 2k + 1 of its two sources (R107, R181). -/
theorem pack2_shift_lower (e : Expander) (a b : Byte) (k : Nat) {j : Nat} (hj : j < 2) :
    (pack2 e (a >>> (k * 2)) (b >>> (k * 2))).extractLsb' (j * 2) 2 = group2 e (a.getLsbD (2 * k + j)) := by
  rw [pack2_lower _ _ _ hj, BitVec.getLsbD_ushiftRight, Nat.mul_comm k]

theorem pack2_shift_upper (e : Expander) (a b : Byte) (k : Nat) {j : Nat} (hj : j < 2) :
    (pack2 e (a >>> (k * 2)) (b >>> (k * 2))).extractLsb' (4 + j * 2) 2 = group2 e (b.getLsbD (2 * k + j)) := by
  rw [pack2_upper _ _ _ hj, BitVec.getLsbD_ushiftRight, Nat.mul_comm k]

/-! ### The paged sink (R72, R73, R173) -/

/-- The sink runs and its RAM holds the bytes of `s` below `n`. -/
structure Stores (s : State) (n : Nat) (k : Sink) : Prop where
  running : k.inReset = false
  ram     : ∀ a < n, k.ram.read a = some (s.fbRead a)

/-- The sink stands at page `p`, column `c`, and holds every byte of `s` before that place. -/
structure StandsAt (s : State) (p c : Nat) (k : Sink) : Prop where
  stores : Stores s (p * s.cfg.width + c) k
  page   : k.page = p
  col    : k.col = c

theorem sinkStep_dc (c : Cfg) (k : Sink) (m : DcMode) : sinkStep c k (.dc m) = k := rfl

theorem sinkStep_cmd (c : Cfg) {k : Sink} (h : k.inReset = false) (b rx : Byte) :
    sinkStep c k (.bus .cmd b rx) = sinkCommand c b k := if_neg (by rw [h]; decide)

theorem sinkStep_data (c : Cfg) {k : Sink} (h : k.inReset = false) (b rx : Byte) :
    sinkStep c k (.bus .data b rx) = sinkData c b k := if_neg (by rw [h]; decide)

theorem sinkData_paged {c : Cfg} (hf : c.family = .paged1) (b : Byte) {k : Sink} (hc : k.col < c.width) :
    sinkData c b k = { k with ram := k.ram.write (k.page * c.width + k.col) b, col := k.col + 1 } := by
  simp only [sinkData, hf, if_pos hc]

/-- The page command of page `p` moves the sink to page `p`: PAGE_SELECT is injective (R6). -/
theorem idxOf?_pageSelectByte {c : Cfg} (hl : legal c = true) {p : Nat} (hp : p < pageCount c) :
    c.pageSelect.idxOf? (pageSelectByte c p) = some p := by
  obtain ⟨-, hcmd, -⟩ := legal_parts hl
  obtain ⟨-, -, -, hnodup⟩ := legalCommands_lists hcmd
  obtain ⟨hlt, hbyte⟩ := List.getElem?_eq_some_iff.1 (getElem?_pageSelect hl hp)
  rw [← hbyte, List.idxOf?, List.findIdx?_eq_some_iff_getElem]
  refine ⟨hlt, beq_self_eq_true _, fun j hj => ?_⟩
  rw [beq_iff_eq, hnodup.getElem_inj_iff]
  omega

section
variable {s : State} {k : Sink} (hl : legal s.cfg = true) (hf : s.cfg.family = .paged1)

include hl in
/-- After the command pair of page `p` the sink stands at the page's first column. -/
theorem Stores.after_commandPair {p : Nat} (h : Stores s (p * s.cfg.width) k) (hcol : s.cfg.columnReset ∉ s.cfg.pageSelect)
    (hp : p < pageCount s.cfg) :
    StandsAt s p 0 (sinkCommand s.cfg s.cfg.columnReset (sinkCommand s.cfg (pageSelectByte s.cfg p) k)) := by
  have hnone : s.cfg.pageSelect.idxOf? s.cfg.columnReset = none := List.idxOf?_eq_none_iff.2 hcol
  refine ⟨⟨h.running, h.ram⟩, ?_, if_pos rfl⟩
  simp only [sinkCommand, hnone, idxOf?_pageSelectByte hl hp, Option.getD_none, Option.getD_some]

include hf

/-- The byte of the place the sink stands at is stored there. -/
theorem StandsAt.after_dataByte {p c : Nat} (h : StandsAt s p c k) (hc : c < s.cfg.width) :
    StandsAt s p (c + 1) (sinkData s.cfg (s.fbRead (p * s.cfg.width + c)) k) := by
  obtain ⟨⟨hrun, hram⟩, rfl, rfl⟩ := h
  rw [sinkData_paged hf _ hc]
  refine ⟨⟨hrun, fun a ha => ?_⟩, rfl, rfl⟩
  rw [Memory.read_write]
  split
  · next he => rw [he]
  · exact hram a (by omega)

/-- The first `n` bytes of page `p`, sent from the page's first column on. -/
theorem StandsAt.after_dataRun {p : Nat} (h : StandsAt s p 0 k) {n : Nat} (hn : n ≤ s.cfg.width) : StandsAt s p n
    ((transfers .data ((List.range n).map fun c => s.fbRead (p * s.cfg.width + c))).foldl (sinkStep s.cfg) k) := by
  induction n with
  | zero => exact h
  | succ n ih =>
    have hn' := ih (by omega)
    simp only [transfers, List.range_succ, List.map_append, List.foldl_append, List.map_cons, List.map_nil, List.foldl_cons,
      List.foldl_nil] at hn' ⊢
    rw [sinkStep_data _ hn'.stores.running]
    exact hn'.after_dataByte hf hn

include hl

theorem Stores.after_page {p : Nat} (h : Stores s (p * s.cfg.width) k) (hcol : s.cfg.columnReset ∉ s.cfg.pageSelect)
    (hp : p < pageCount s.cfg) : Stores s ((p + 1) * s.cfg.width) ((pageEvents s p).foldl (sinkStep s.cfg) k) := by
  have hrun : (sinkCommand s.cfg (pageSelectByte s.cfg p) k).inReset = false := h.running
  rw [pageEvents, List.foldl_append, List.foldl_cons, List.foldl_cons, List.foldl_cons, List.foldl_cons, List.foldl_nil,
    sinkStep_dc, sinkStep_dc, sinkStep_cmd _ h.running, sinkStep_cmd _ hrun, Nat.succ_mul]
  exact ((h.after_commandPair hl hcol hp).after_dataRun hf le_rfl).stores

/-- A whole paged PAINT fills the sink's RAM with the framebuffer. -/
theorem Stores.after_pagedEvents (hrun : k.inReset = false) (hcol : s.cfg.columnReset ∉ s.cfg.pageSelect) :
    Stores s (fbSize s.cfg) ((pagedEvents s).foldl (sinkStep s.cfg) k) := by
  have pages : ∀ n ≤ pageCount s.cfg, Stores s (n * s.cfg.width)
      (((List.range n).flatMap (pageEvents s)).foldl (sinkStep s.cfg) k) := by
    intro n hn
    induction n with
    | zero => exact ⟨hrun, fun a ha => by omega⟩
    | succ n ih =>
      rw [List.range_succ, List.flatMap_append, List.flatMap_singleton, List.foldl_append]
      exact (ih (by omega)).after_page hl hf hcol hn
  rw [← pageCount_mul_width hl]
  exact pages _ le_rfl

end

/-- A sink of a 1bpp family whose RAM holds the framebuffer of `s` shows it (R73, R74). -/
theorem sinkPixel_plain {s t : State} (hl : legal s.cfg = true) (hf : s.cfg.family = .paged1 ∨ s.cfg.family = .linear1)
    (hc : t.cfg = s.cfg) (hram : ∀ a < fbSize s.cfg, t.sinkByte a = s.fbRead a) {x y : Nat} (hx : x < s.cfg.width)
    (hy : y < s.cfg.height) : t.sinkPixel x y = s.pixelOn x y := by
  rw [State.pixelOn, ← hram _ (pixelIndex_lt hl hx hy)]
  rcases hf with hf | hf <;> simp only [State.sinkPixel, hc, hf]

theorem getElem?_linearBytes {s : State} {a : Nat} (ha : a < fbSize s.cfg) : (linearBytes s)[a]? = some (s.fbRead a) := by
  rw [linearBytes, List.getElem?_map, List.getElem?_range ha, Option.map_some]

end Sys2Proof.Machine

open Sys2Proof Sys2Proof.Machine

/-- Settles O26: the completion of PAINT with the events of the linear variant. -/
theorem paintLinearCompletes : Obligations.PaintLinearCompletes := by
  intro f s hl hf hready
  have h := paintCompletes_of_busReady hl f hready
  rwa [paintEvents_linear hf, paintDisp_of_not_paged (by simp [hf])] at h

/-- Settles O27: the completion of PAINT with the events of the paged variant. -/
theorem paintPagedCompletes : Obligations.PaintPagedCompletes := by
  intro f s hl hf hready
  have h := paintCompletes_of_busReady hl f hready
  rwa [paintEvents_paged hf, paintDisp_paged hf] at h

/-- Settles O28: the completion of PAINT with the events of EXP4. -/
theorem paintExp4Completes : Obligations.PaintExp4Completes := by
  intro f s hl hf hready
  have h := paintCompletes_of_busReady hl f hready
  rwa [paintEvents_exp4 hf, paintDisp_of_not_paged (by simp [hf])] at h

/-- Settles O29: the completion of PAINT with the events of EXP2. -/
theorem paintExp2Completes : Obligations.PaintExp2Completes := by
  intro f s hl hf hready
  have h := paintCompletes_of_busReady hl f hready
  rwa [paintEvents_exp2 hf, paintDisp_of_not_paged (by simp [hf])] at h

/-- Settles O30: a legal build has bytes to send, so a PAINT without the bus for all of them stalls. -/
theorem paintHangsPartWay : Obligations.PaintHangsPartWay := by
  intro f s hl hready
  obtain ⟨t, hexec, ht, hfb⟩ := exec_paint_hangs hl f hready
  obtain ⟨l, hev, hprefix⟩ := ht.emits
  exact ⟨t, l, hexec, ht.part.port, ht.stuck, hev, hprefix, hfb, ht.part.mkRead, ht.part.setup, ht.part.plat,
    ht.part.sameSystem⟩

/-- Settles O31: byte k of a pair packs bit k of its two source bytes, which are pages 2q and 2q + 1 of the column. -/
theorem exp4PixelMapping : Obligations.Exp4PixelMapping := by
  intro s x q k htrav heven hx hq hk
  obtain ⟨i, hi, hlower, hupper⟩ := htrav.pair_bits heven hx hq
  refine ⟨_, expanderBytes_getElem? pack4 1 s hi hk, ?_, ?_⟩
  · rw [pack4_lower, BitVec.getLsbD_ushiftRight, Nat.mul_one, Nat.add_zero, hlower k hk]
    rfl
  · rw [pack4_upper, BitVec.getLsbD_ushiftRight, Nat.mul_one, Nat.add_zero, hupper k hk]
    rfl

/-- Settles O32: byte k of a pair packs bits 2k and 2k + 1 of its two source bytes, pages 2q and 2q + 1 of the column. -/
theorem exp2PixelMapping : Obligations.Exp2PixelMapping := by
  intro s x q k htrav heven hx hq hk
  obtain ⟨i, hi, hlower, hupper⟩ := htrav.pair_bits heven hx hq
  have lower {j : Nat} (hj : j < 2) := (pack2_shift_lower s.cfg.expander (s.fbRead i)
    (s.fbRead (i + s.cfg.expander.pairOffset)) k hj).trans (congrArg (group2 _) (hlower (2 * k + j) (by omega)))
  have upper {j : Nat} (hj : j < 2) := (pack2_shift_upper s.cfg.expander (s.fbRead i)
    (s.fbRead (i + s.cfg.expander.pairOffset)) k hj).trans (congrArg (group2 _) (hupper (2 * k + j) (by omega)))
  exact ⟨_, expanderBytes_getElem? pack2 2 s hi hk, lower Nat.two_pos, lower Nat.one_lt_two, upper Nat.two_pos,
    upper Nat.one_lt_two⟩

/-- Settles O33: the pages are consecutive rows, and a traversal without repetition over all indices is a permutation of them. -/
theorem eachIndexVisitedOnce : Obligations.EachIndexVisitedOnce := by
  intro c hl
  refine ⟨?_, fun hf => (covers_of_legal hl hf).perm⟩
  rw [flatMap_rows_eq_range, pageCount_mul_width hl]

/-- Settles O34: whatever beginning of its events a PAINT has sent, each byte is zero or one of a paged command pair. -/
theorem zeroFramebufferPaintsZero : Obligations.ZeroFramebufferPaintsZero := by
  intro f s hl (hz : BlankFb s)
  obtain ⟨t, l, hexec, ⟨ev, htr, hshape⟩, hprefix⟩ := exec_paint_emits_prefix hl f
  have sent {m : DcMode} {tx rx : Byte} (he : Event.bus m tx rx ∈ ev) :=
    hz.paintEvents_bytes hl (hprefix.subset (bus_mem_of_shape hshape he))
  refine ⟨t, ev, hexec, htr, fun tx rx he => ?_, fun m tx rx he hne => (sent he).resolve_left hne⟩
  exact (sent he).resolve_right fun ⟨_, hm, _⟩ => by cases hm

/-- Settles O35: the bytes of PAINT fill the sink's RAM once, in index order. -/
theorem sinkShowsLinearPaint : Obligations.SinkShowsLinearPaint := by
  intro f s hl hf hready hdc hshows hptr
  obtain ⟨t, hexec, hdone, hc, hev⟩ := exec_paint_completes hl hready f
  rw [paintEvents_linear hf, hdc] at hev
  have hsize : sinkRamSize s.cfg = fbSize s.cfg := by simp only [sinkRamSize, hf]
  obtain ⟨hend, hram⟩ := sink_after_fill hev hc (by simp [hf]) (State.sinkShows_inReset hshows) hptr
    (by simp [linearBytes, hsize]) (hsize ▸ fbSize_pos hl)
  exact ⟨t, hexec, hdone, hend, fun x y hx hy =>
    sinkPixel_plain hl (.inr hf) hc (fun a ha => hram a _ (getElem?_linearBytes ha)) hx hy⟩

/-- Settles O36: each command pair takes the sink to its page's first column, so the page's bytes land in their own places. -/
theorem sinkShowsPagedPaint : Obligations.SinkShowsPagedPaint := by
  intro f s hl hf hready hcol hshows
  obtain ⟨t, hexec, hdone, hc, hev⟩ := exec_paint_completes hl hready f
  rw [paintEvents_paged hf] at hev
  have hstores := Stores.after_pagedEvents hl hf (State.sinkShows_inReset hshows) hcol
  rw [← hev.sink hc] at hstores
  refine ⟨t, hexec, hdone, fun x y hx hy => sinkPixel_plain hl (.inl hf) hc (fun a ha => ?_) hx hy⟩
  rw [State.sinkByte, hstores.ram a ha, Option.getD_some]

end

section
/-! SUPPORT. The Input Sampler (spec/43_input_sampler.md): which bit of the button mask each line sets, and the states RDBTN and
SAFEMODE leave. -/

namespace Sys2Proof.Machine

/-! ### The button mask (R108) -/

/-- A bit of the mask is set iff it is the bit of a low line. -/
theorem getLsbD_buttonMaskFrom (v : Byte) (b : Nat) (bits : List Nat) (k : Nat) : (buttonMaskFrom v b bits).getLsbD k = true ↔
    k < 8 ∧ ∃ i, bits[i]? = some k ∧ v.getLsbD (b + i) = false := by
  induction bits generalizing b with
  | nil => simp [buttonMaskFrom]
  | cons j bits ih =>
    have head : (if v.getLsbD b then 0#8 else BitVec.twoPow 8 j).getLsbD k = true ↔
        k < 8 ∧ j = k ∧ v.getLsbD b = false := by
      cases v.getLsbD b
      · simp only [Bool.false_eq_true, if_false, BitVec.getLsbD_twoPow, Bool.and_eq_true, decide_eq_true_eq, and_true]
        exact ⟨fun ⟨hj, he⟩ => ⟨he ▸ hj, he⟩, fun ⟨hk, he⟩ => ⟨he ▸ hk, he⟩⟩
      · simp
    have lines : (∃ i, (j :: bits)[i]? = some k ∧ v.getLsbD (b + i) = false) ↔
        (j = k ∧ v.getLsbD b = false) ∨ ∃ i, bits[i]? = some k ∧ v.getLsbD (b + 1 + i) = false := by
      rw [← Nat.or_exists_add_one]
      simp [Nat.add_assoc, Nat.add_comm 1]
    rw [buttonMaskFrom, BitVec.getLsbD_or, Bool.or_eq_true, head, ih, ← and_or_left, lines]

theorem getLsbD_buttonMask (c : Cfg) (v : Byte) (k : Nat) : (buttonMask c v).getLsbD k = true ↔
    k < 8 ∧ ∃ b, c.btnBit[b]? = some k ∧ v.getLsbD b = false := by
  simp only [buttonMask, getLsbD_buttonMaskFrom, Nat.zero_add]

/-- The bit of line `b` is its inverted level: no other line has that bit (R6). -/
theorem getLsbD_buttonMask_mapped {c : Cfg} (hl : legal c = true) (v : Byte) {b k : Nat} (hb : c.btnBit[b]? = some k) :
    (buttonMask c v).getLsbD k = !v.getLsbD b := by
  obtain ⟨-, -, -, -, hbuttons⟩ := legal_parts hl
  obtain ⟨-, -, hlt, hnodup, -⟩ := legalButtons_bounds hbuttons
  obtain ⟨hlen, -⟩ := List.getElem?_eq_some_iff.1 hb
  rw [Bool.eq_iff_iff, getLsbD_buttonMask, Bool.not_eq_true']
  refine ⟨fun ⟨_, i, hi, hlow⟩ => ?_, fun hlow => ⟨hlt k (List.mem_of_getElem? hb), b, hb, hlow⟩⟩
  rwa [(List.getElem?_inj hlen hnodup).1 (hb.trans hi.symm)]

theorem getLsbD_buttonMask_unmapped {c : Cfg} (v : Byte) {k : Nat} (hk : k ∉ c.btnBit) : (buttonMask c v).getLsbD k = false := by
  rw [Bool.eq_false_iff, ne_eq, getLsbD_buttonMask]
  exact fun ⟨_, _, hb, _⟩ => hk (List.mem_of_getElem? hb)

/-! ### RDBTN and SAFEMODE (R200, R202) -/

/-- The state after one sample of the buttons and its event, with the environment at `e`. -/
def State.afterSample (s : State) (e : Env) : State := (s.setEnv e).emit (.btn s.buttonsNow)

theorem exec_rdbtn (s : State) : ∃ e, exec .rdbtn s =
    .next (((s.accept .rdbtn).afterSample e).setResult (buttonMask s.cfg s.buttonsNow)).complete := by
  obtain ⟨hv, e, he, -⟩ := drawButtons_spec (s.accept .rdbtn)
  refine ⟨e, runOp_reached ?_⟩
  rw [rdbtnBody, he, hv]
  rfl

theorem result_of_exec_rdbtn {s t : State} (h : exec .rdbtn s = .next t) : t.port.result = buttonMask s.cfg s.buttonsNow := by
  obtain ⟨e, he⟩ := exec_rdbtn s
  rw [← Host.Outcome.next.inj (he.symm.trans h)]
  rfl

/-- SAFEMODE samples the buttons; the level of the up line decides between its return and the halt. -/
theorem safemodeBody_sampled (s : State) : ∃ e, safemodeBody s =
    if s.buttonsNow.getLsbD s.cfg.btnUp then .reached (s.afterSample e) else .stuck (s.afterSample e).enterSafeHalt := by
  obtain ⟨hv, e, he, -⟩ := drawButtons_spec s
  exact ⟨e, by rw [safemodeBody, he, hv, State.afterSample]⟩

theorem exec_safemode_released {s : State} (h : s.buttonsNow.getLsbD s.cfg.btnUp = true) :
    ∃ e, exec .safemode s = .next ((s.accept .safemode).afterSample e).complete := by
  obtain ⟨e, he⟩ := safemodeBody_sampled (s.accept .safemode)
  exact ⟨e, runOp_reached (he.trans (if_pos h))⟩

theorem exec_safemode_pressed {s : State} (h : s.buttonsNow.getLsbD s.cfg.btnUp = false) :
    ∃ e, exec .safemode s = .next ((s.accept .safemode).afterSample e).enterSafeHalt := by
  obtain ⟨e, he⟩ := safemodeBody_sampled (s.accept .safemode)
  exact ⟨e, runOp_stuck (he.trans (if_neg (Bool.eq_false_iff.1 h)))⟩

end Sys2Proof.Machine

open Sys2Proof Sys2Proof.Machine

/-- Settles O38: the sample's mask goes to RESULT, and in a legal build each line has a bit of its own. -/
theorem rdbtnCompletes : Obligations.RdbtnCompletes := by
  intro s hl
  obtain ⟨e, hexec⟩ := exec_rdbtn s
  exact ⟨_, buttonMask s.cfg s.buttonsNow, hexec, rfl, fun _ _ hb => getLsbD_buttonMask_mapped hl _ hb,
    fun _ hk => getLsbD_buttonMask_unmapped _ hk, rfl, rfl, rfl, rfl, rfl, .of_eq rfl rfl rfl rfl, rfl, rfl, rfl, rfl⟩

/-- Settles O39: RESULT is the mask of the sample under the build's mapping. -/
theorem rdbtnPure : Obligations.RdbtnPure := by
  intro s s' t t' hcfg hbuttons ht ht'
  rw [result_of_exec_rdbtn ht, result_of_exec_rdbtn ht', hcfg, hbuttons]

/-- Settles O40: with the up line high the pseudocode ends at the sample. -/
theorem safemodeReleasedCompletes : Obligations.SafemodeReleasedCompletes := by
  intro s hup
  obtain ⟨e, hexec⟩ := exec_safemode_released hup
  exact ⟨_, hexec, rfl, rfl, rfl, rfl, rfl, rfl, .of_eq rfl rfl rfl rfl, rfl, rfl, rfl, rfl⟩

/-- Settles O41: the halt drives the indicator to its lit level, whether or not the pins are configured. -/
theorem safemodePressedHalts : Obligations.SafemodePressedHalts := by
  intro s hup
  obtain ⟨e, hexec⟩ := exec_safemode_pressed hup
  obtain ⟨p, hp, hpins, hpwr, hsleep, hled, hrest, haux⟩ := enterSafeHalt_spec ((s.accept .safemode).afterSample e)
  rw [hp] at hexec
  refine ⟨_, indicatorLit s.cfg s.cfg.safeIndicator, hexec, rfl, List.append_assoc .., fun _ => rfl, fun ch => ?_, ?_, hpins,
    hpwr, hsleep, rfl, rfl, rfl, .of_eq rfl rfl rfl rfl, rfl, rfl, rfl, rfl⟩
  · split
    · next h => exact (hled ch h).trans (by rw [h]; rfl)
    · next h => exact hrest ch h
  · exact haux.trans (ite_congr rfl (fun h => congrArg _ (Eq.symm h)) fun _ => rfl)

end

section
/-! SUPPORT. The platform operations (spec/44_platform_ops.md): the state each leaves, the channel after SETCH and its algebra, what
CFGPINS leaves open, the marker after MRESTART, and BOOT as its parts one after the other. -/

namespace Sys2Proof.Machine

/-! ### SETCH (R214 to R217) -/

/-- The state that SETCH of `v` on channel `c`, requested at `s` with the operand bits `ch`, leaves (R214). -/
def State.afterSetch (s : State) (ch : BitVec 2) (c : Channel) (v : Byte) : State :=
  State.complete { (s.accept (.setch ch v)).setChan c (setchChan s.cfg c v (s.chan c)) with
    tr := s.tr ++ setchEvents s.cfg c v (s.chan c) }

theorem exec_setch_of_channel {ch : BitVec 2} {c : Channel} (h : channelOfBits ch = some c) (v : Byte) (s : State) :
    exec (.setch ch v) s = .next (s.afterSetch ch c v) := by
  obtain ⟨t, hreach, rfl⟩ := setchBody_spec c v (s.accept (.setch ch v))
  rw [exec, execSetch, h]
  exact runOp_reached hreach

theorem State.afterSetch_chan (s : State) (ch : BitVec 2) (c d : Channel) (v : Byte) : (s.afterSetch ch c v).chan d =
    if d = c then setchChan s.cfg c v (s.chan c) else s.chan d :=
  (s.accept (.setch ch v)).chan_setChan c d _

theorem State.afterSetch_chan_self (s : State) (ch : BitVec 2) (c : Channel) (v : Byte) :
    (s.afterSetch ch c v).chan c = setchChan s.cfg c v (s.chan c) := by
  rw [s.afterSetch_chan, if_pos rfl]

theorem State.afterSetch_tr (s : State) (ch : BitVec 2) (c : Channel) (v : Byte) :
    (s.afterSetch ch c v).tr = s.tr ++ setchEvents s.cfg c v (s.chan c) := rfl

/-- With the pins configured and no waveform on the channel, its pin shows its digital level (R216). -/
theorem State.lineLevel_afterSetch {s : State} (hpins : s.plat.pinsOk = true) (ch : BitVec 2) {c : Channel} {v : Byte}
    (hoff : (setchChan s.cfg c v (s.chan c)).pwmEn = false) :
    (s.afterSetch ch c v).lineLevel (.led (.rgb c)) = (setchChan s.cfg c v (s.chan c)).line := by
  have hkept : (s.afterSetch ch c v).plat.pinsOk = s.plat.pinsOk := (Platform.setChan_rest ..).1
  rw [State.lineLevel_led (hkept.trans hpins) (by rwa [s.afterSetch_chan_self]), s.afterSetch_chan_self]

section
variable {c : Cfg} {ch : Channel} {v : Byte}

/-- The end values on a capable channel (R215). -/
theorem setch_digital (hcap : perChannel c.pwmCapable ch = true) (hv : v = 0#8 ∨ v = 255#8) (x : RgbChan) :
    setchChan c ch v x = { x with pwmEn := false, line := if v = 0#8 then darkLevel c ch else litLevel c ch }
      ∧ setchEvents c ch v x =
        [.pwm ch false x.pwmCmp, .led (.rgb ch) (if v = 0#8 then darkLevel c ch else litLevel c ch)] := by
  rcases hv with rfl | rfl <;> simp [setchChan, setchEvents, hcap]

/-- The values between on a capable channel (R216). -/
theorem setch_waveform (hcap : perChannel c.pwmCapable ch = true) (h0 : v ≠ 0#8) (h255 : v ≠ 255#8) (x : RgbChan) :
    setchChan c ch v x = { x with pwmEn := true, pwmCmp := pwmCompare c ch v }
      ∧ setchEvents c ch v x = [.pwm ch true (pwmCompare c ch v)] := by
  simp [setchChan, setchEvents, hcap, h0, h255]

/-- A binary-only channel (R217). -/
theorem setch_binary (hcap : perChannel c.pwmCapable ch = false) (x : RgbChan) :
    setchChan c ch v x = { x with line := binaryLevel c ch v }
      ∧ setchEvents c ch v x = [.led (.rgb ch) (binaryLevel c ch v)] := by
  simp [setchChan, setchEvents, hcap]

end

theorem pwmCompare_toNat (c : Cfg) (ch : Channel) (v : Byte) :
    (pwmCompare c ch v).toNat = if perChannel c.inverted ch then 255 - v.toNat else v.toNat := by
  unfold pwmCompare
  split
  · bv_omega
  · rfl

/-! ### SETCH after SETCH (R219) -/

theorem chan_of_exec_setch {ch : BitVec 2} {c : Channel} (h : channelOfBits ch = some c) {v : Byte} {s t : State}
    (hexec : exec (.setch ch v) s = .next t) : t.chan c = setchChan s.cfg c v (s.chan c) := by
  cases (exec_setch_of_channel h v s).symm.trans hexec
  exact s.afterSetch_chan_self ch c v

section
variable {v w : Byte} (hv : v = 0#8 ∨ v = 255#8)
include hv

/-- An end value leaves the compare register as it was, on either kind of channel (R215, R217). -/
theorem setchChan_pwmCmp (c : Cfg) (ch : Channel) (x : RgbChan) : (setchChan c ch v x).pwmCmp = x.pwmCmp := by
  cases hcap : perChannel c.pwmCapable ch with
  | true => rw [(setch_digital hcap hv x).1]
  | false => rw [(setch_binary hcap x).1]

/-- An end value hides an end value set before it, on either kind of channel. -/
theorem setchChan_setchChan (hw : w = 0#8 ∨ w = 255#8) (c : Cfg) (ch : Channel) (x : RgbChan) :
    setchChan c ch w (setchChan c ch v x) = setchChan c ch w x := by
  cases hcap : perChannel c.pwmCapable ch with
  | true => simp only [setch_digital hcap hv, setch_digital hcap hw]
  | false => simp only [setch_binary hcap]

end

/-! ### CFGPINS (R210) -/

/-- The state CFGPINS's pseudocode leaves from `s`. -/
def State.withPins (s : State) : State := (cfgpinsBody s).state

theorem exec_cfgpins (s : State) : exec .cfgpins s = .next (s.accept .cfgpins).withPins.complete := rfl

/-- At most the two output lines of the bus are left open (R210). -/
theorem freeBusLines_lines (n : Nat) (b : BusUnit) :
    freeBusLines n b = { b with sck := (freeBusLines n b).sck, mosi := (freeBusLines n b).mosi } := by
  unfold freeBusLines
  split <;> rfl

theorem State.withPins_bus (s : State) :
    s.withPins.bus = { s.bus with sck := s.withPins.bus.sck, mosi := s.withPins.bus.mosi } :=
  freeBusLines_lines s.env.draws s.bus

theorem State.withPins_chan (s : State) (ch : Channel) :
    s.withPins.chan ch = { s.chan ch with line := (s.withPins.chan ch).line } := by cases ch <;> rfl

/-! ### CFGPWR (R212) -/

/-- The state CFGPWR's pseudocode leaves from `s`. -/
def State.withPower (s : State) : State := (cfgpwrBody s).state

theorem exec_cfgpwr (s : State) : exec .cfgpwr s = .next (s.accept .cfgpwr).withPower.complete := rfl

theorem State.withPower_port (s : State) : s.withPower.port = s.port := rfl

theorem State.chan_withPower_complete (s : State) (ch : Channel) : s.withPower.complete.chan ch = s.chan ch := rfl

/-! ### BOOT (R225) -/

/-- The state in which BOOT begins to boot the display: pins and bus configured. -/
def State.withPinsAndBus (s : State) : State := (cfgbusBody s.withPins).state

theorem bootBody_eq (s : State) : bootBody s = (bootDisplay s.withPinsAndBus).bind cfgpwrBody := rfl

theorem State.withPinsAndBus_busReady {s : State} {n : Nat} (h : ShifterLasts s n) : BusReady s.withPinsAndBus n :=
  ⟨rfl, rfl, h⟩

/-- BOOT completes when its BOOTDISP does, and that needs the shifter only: BOOT enables the bus itself. -/
theorem exec_boot_completes {s : State} (h : ShifterLasts s (s.cfg.ramClearCount + s.cfg.cmdTable.length)) :
    ∃ t, exec .boot s = .next t.withPower.complete
      ∧ Streamed (bootEvents s.cfg) (s.cfg.ramClearCount + s.cfg.cmdTable.length) (s.accept .boot).withPinsAndBus t
      ∧ t.disp = bootedDisplay s.cfg ∧ DisplayOnly (s.accept .boot).withPinsAndBus t := by
  obtain ⟨t, hreach, ht, hdisp, honly⟩ := (bootDisplay_streams (s.accept .boot).withPinsAndBus).reaches
    (.inr (State.withPinsAndBus_busReady h))
  refine ⟨t, runOp_reached ?_, ht, hdisp, honly⟩
  rw [bootBody_eq, hreach]
  rfl

/-- A part that begins with SCK at its idle level ends with it there, whether or not it sends a byte (R25). -/
theorem Streamed.sck_idle {l : List Event} {n : Nat} {s t : State} (h : Streamed l n s t) (hs : s.bus.sck = s.bus.cpol) :
    t.bus.sck = t.bus.cpol := by
  by_cases hn : n = 0
  · rw [h.still hn, hs]
  · obtain ⟨-, -, hsck⟩ := h.idle hn
    exact hsck

/-- In Data Mode the DC line is driven to the other level than that of CMD (R29). -/
theorem State.dcLevel_data {s : State} (h : s.disp.dc = .data) : s.dcLevel = !s.cfg.dcCmdLevel := by simp [State.dcLevel, h]

/-! ### IDLE (R226, R227) -/

theorem exec_idle_wakes {s : State} (h : s.wakeNow = true) : ∃ t, exec .idle s = .next t.complete
    ∧ Rested (s.accept .idle) t ∧ t.tr = s.tr ++ [.sleep, .wake] ∧ t.plat = { s.plat with sleeping := false } := by
  obtain ⟨t, hrest, hwake, -⟩ := idleBody_spec (s.accept .idle)
  obtain ⟨hreach, htr, hplat⟩ := hwake h
  exact ⟨t, runOp_reached hreach, hrest, htr, hplat⟩

theorem exec_idle_sleeps {s : State} (h : s.wakeNow = false) : ∃ t, exec .idle s = .next t
    ∧ Rested (s.accept .idle) t ∧ t.tr = s.tr ++ [.sleep] ∧ t.plat = { s.plat with sleeping := true } := by
  obtain ⟨t, hrest, -, hsleep⟩ := idleBody_spec (s.accept .idle)
  obtain ⟨hstuck, htr, hplat⟩ := hsleep h
  exact ⟨t, runOp_stuck hstuck, hrest, htr, hplat⟩

theorem Rested.sameSystem {s t : State} (h : Rested s t) : SameSystem s t := ⟨h.cfg, h.host, h.lives, h.powerOns⟩

/-! ### MRESTART (R66, R228) -/

/-- The watchdog is triggered after the whole marker, or a reset leaves one byte of it. -/
theorem exec_mrestart (s : State) : ∃ e,
    (s.tearNow = .whole → exec .mrestart s =
      .next (((s.accept .mrestart).setEnv e).writeMarker s.cfg.markerValue).triggerWatchdog)
    ∧ (s.tearNow = .lowOnly → exec .mrestart s =
      .next (((s.accept .mrestart).setEnv e).tornMarker 0 (s.cfg.markerValue.extractLsb' 0 8)))
    ∧ (s.tearNow = .highOnly → exec .mrestart s =
      .next (((s.accept .mrestart).setEnv e).tornMarker 1 (s.cfg.markerValue.extractLsb' 8 8))) := by
  obtain ⟨e, hwhole, hlow, hhigh⟩ := mrestartBody_spec (s.accept .mrestart)
  exact ⟨e, fun h => runOp_stuck (hwhole h), fun h => runOp_stuck (hlow h), fun h => runOp_stuck (hhigh h)⟩

/-- The marker write leaves both bytes of the marker, little-endian, and changes no other byte and nothing else (R66). -/
theorem State.writeMarker_spec (s : State) (v : Half) : ∃ m, s.writeMarker v = s.setMarker m ∧ ∀ a, (s.setMarker m).mkRead a =
    if a = 0 then v.extractLsb' 0 8 else if a = 1 then v.extractLsb' 8 8 else s.mkRead a := by
  refine ⟨_, rfl, fun a => ?_⟩
  change (s.writeMarker v).mkRead a = _
  rw [State.writeMarker, State.mkRead_mkWrite, State.mkRead_mkWrite]
  split
  · next h => rw [h]; rfl
  · rfl

/-- Triggering the watchdog touches LIFE and the trace and nothing else (R228). -/
theorem State.triggerWatchdog_frame (s : State) : SameMemory s s.triggerWatchdog ∧ SameSystem s s.triggerWatchdog
    ∧ s.triggerWatchdog.bus = s.bus ∧ s.triggerWatchdog.disp = s.disp ∧ s.triggerWatchdog.eng = s.eng
    ∧ s.triggerWatchdog.plat = s.plat := by
  refine ⟨.of_eq ?_ ?_ ?_ ?_, ?_⟩ <;> simp [State.triggerWatchdog, SameSystem]

theorem State.triggerWatchdog_port (s : State) : s.triggerWatchdog.port = { s.port with life := .resetPending } := by
  simp [State.triggerWatchdog]

theorem State.triggerWatchdog_tr (s : State) : s.triggerWatchdog.tr = s.tr ++ [.marker s.cfg.markerValue, .wdReset] := by
  simp [State.triggerWatchdog]

/-- A torn write leaves one byte of the marker, which survives the reset (R39, R66). -/
theorem State.mkRead_tornMarker (s : State) (i : Nat) (v : Byte) (a : Nat) :
    (s.tornMarker i v).mkRead a = if a = i then v else s.mkRead a := by
  rw [State.tornMarker, hardReset_mkRead _ (by decide), State.mkRead_mkWrite]

/-! ### GETW and GETH (R230, R231) -/

/-- An operation that only puts `n` into RESULT completes with it there; a byte holds it up to 255. -/
theorem exec_reports {i : Instr} {s : State} {n : Nat}
    (hexec : exec i s = .next ((s.accept i).setResult (BitVec.ofNat 8 n)).complete) (hn : n ≤ 255) :
    ∃ t r, exec i s = .next t ∧ AckedWith i r s t ∧ r.toNat = n ∧ t.bus = s.bus ∧ t.disp = s.disp ∧ t.eng = s.eng
      ∧ t.plat = s.plat ∧ t.tr = s.tr ∧ t.env = s.env ∧ SameMemory s t ∧ SameSystem s t := by
  have hr : (BitVec.ofNat 8 n).toNat = n := (BitVec.toNat_ofNat n 8).trans (Nat.mod_eq_of_lt (by omega))
  exact ⟨_, _, hexec, rfl, hr, rfl, rfl, rfl, rfl, rfl, rfl, .of_eq rfl rfl rfl rfl, rfl, rfl, rfl, rfl⟩

end Sys2Proof.Machine

open Sys2Proof Sys2Proof.Machine

/-- Settles O44: the three branches of the meaning, each with the channel and the events it leaves. -/
theorem setchCompletes : Obligations.SetchCompletes := by
  intro ch c v s hch
  obtain ⟨hpins, hpwr, haux, hsleep⟩ := Platform.setChan_rest s.plat c (setchChan s.cfg c v (s.chan c))
  refine ⟨s.afterSetch ch c v, (setchChan s.cfg c v (s.chan c)).line, exec_setch_of_channel hch v s, rfl,
    fun hcap hv => ?_, fun hcap h0 h255 => ?_, fun hcap => ?_, fun d hd => by rw [s.afterSetch_chan, if_neg hd],
    hpins, hpwr, haux, hsleep, rfl, rfl, rfl, rfl, .of_eq rfl rfl rfl rfl, rfl, rfl, rfl, rfl⟩
  · obtain ⟨hchan, hevents⟩ := setch_digital hcap hv (s.chan c)
    refine ⟨fun hok => ⟨?_, State.lineLevel_afterSetch hok ch (by rw [hchan])⟩, ?_, ?_⟩
    · rw [hchan]; rfl
    · rw [s.afterSetch_chan_self, hchan]
    · rw [s.afterSetch_tr, hchan, hevents]
  · obtain ⟨hchan, hevents⟩ := setch_waveform hcap h0 h255 (s.chan c)
    refine ⟨pwmCompare s.cfg c v, pwmCompare_toNat s.cfg c v, ?_, ?_⟩
    · rw [s.afterSetch_chan_self, hchan]
    · rw [s.afterSetch_tr, hevents]
  · obtain ⟨hchan, hevents⟩ := setch_binary (v := v) hcap (s.chan c)
    refine ⟨fun hok => ⟨?_, fun hoff => State.lineLevel_afterSetch hok ch (by rwa [hchan])⟩, ?_, ?_⟩
    · rw [hchan]; rfl
    · rw [s.afterSetch_chan_self, hchan]
    · rw [s.afterSetch_tr, hchan, hevents]

/-- Settles O46: an end value hides the end values before it, and none of them writes the compare register. -/
theorem setchRoundTrip : Obligations.SetchRoundTrip := by
  intro ch c s t u v hch hst htu huv
  have ht := chan_of_exec_setch hch hst
  have hu := chan_of_exec_setch hch htu
  have hv := chan_of_exec_setch hch huv
  rw [exec_cfg htu, exec_cfg hst, hu, exec_cfg hst, setchChan_setchChan (.inr rfl) (.inl rfl), ht,
    setchChan_setchChan (.inl rfl) (.inl rfl)] at hv
  rw [exec_cfg hst, ht, setchChan_setchChan (.inl rfl) (.inr rfl)] at hu
  rw [ht, hu, hv]
  refine ⟨rfl, setchChan_pwmCmp (.inl rfl) .., fun hcap => ?_⟩
  rw [(setch_digital hcap (.inl rfl) (s.chan c)).1, (setch_digital hcap (.inr rfl) (s.chan c)).1]
  exact ⟨rfl, rfl, rfl, rfl, fun _ => rfl⟩

/-- Settles O47: the three channels are released one after the other. -/
theorem relchCompletes : Obligations.RelchCompletes := by
  intro s
  obtain ⟨t, hreach, hplat, htr, hcfg, hbus, hdisp, heng, hport, hfb, hmarker, henv, hhost, hlives, hpowerOns⟩ :=
    relchBody_spec (s.accept .relch)
  refine ⟨t.complete, runOp_reached hreach, ?_, fun ch => ?_, htr, ?_, ?_, ?_, ?_, hbus, hdisp, heng, henv,
    .of_eq hfb hlives hmarker hpowerOns, hcfg, hhost, hlives, hpowerOns⟩
  · rw [Acked, State.complete_port, hport]
    rfl
  · rw [State.chan, State.complete_plat, hplat]
    exact releasedPlat_chan s.plat ch
  all_goals rw [State.complete_plat, hplat]; rfl

/-- Settles O48: BOOTDISP streams its bytes on the bus BOOT has enabled, between the events of the pins and of the power. -/
theorem bootCompletes : Obligations.BootCompletes := by
  intro s hlasts
  obtain ⟨t, hexec, ht, hdisp, honly⟩ := exec_boot_completes hlasts
  obtain ⟨hen, hrole, horder, hcpol, hcpha, hdiv⟩ := ht.part.setup
  have hsck : t.bus.sck = t.bus.cpol := ht.sck_idle rfl
  have hplat : t.plat = (s.accept .boot).withPins.plat := ht.part.plat
  have hpins : t.plat.pinsOk = true := by rw [hplat]; rfl
  have hsleep : t.plat.sleeping = s.plat.sleeping := by rw [hplat]; rfl
  have hchan (ch : Channel) : t.withPower.complete.chan ch = (s.accept .boot).withPins.chan ch := by
    rw [t.chan_withPower_complete, State.chan, hplat]; rfl
  have hdc : t.wiredLevel .dc = !t.cfg.dcCmdLevel := State.dcLevel_data (congrArg Display.dc hdisp)
  have hemits := ((Emits.emit (s.accept .boot) .pins).trans ht.emits).trans (.emit t .power)
  have hline := State.lineLevel_wired (s := t.withPower.complete) hpins
  refine ⟨_, hexec, ?_, hemits, hdisp, hen, hrole, hcpol, hcpha, horder, hdiv, (hline .sck).trans (hsck.trans hcpol),
    (hline .dc).trans ?_, (hline .drst).trans (congrArg Display.drst hdisp), hsck, hpins, rfl, hsleep, fun ch => ?_, honly.eng,
    ht.part.sameMemory honly.fb, ht.part.sameSystem⟩
  · rw [Acked, State.complete_port, State.withPower_port, ht.part.port]
    rfl
  · rwa [← show t.cfg = s.cfg from ht.part.cfg]
  · rw [hchan]
    exact (s.accept .boot).withPins_chan ch

/-- Settles O49, by whether the wake interrupt comes. -/
theorem idleSleepsUntilWake : Obligations.IdleSleepsUntilWake := by
  refine fun s => ⟨fun hwake => ?_, fun hnever => ?_⟩
  · obtain ⟨t, hexec, hrest, htr, hplat⟩ := exec_idle_wakes hwake
    refine ⟨t.complete, hexec, ?_, htr, hplat, hrest.bus, hrest.disp, hrest.eng, hrest.sameMemory, hrest.sameSystem⟩
    rw [Acked, State.complete_port, hrest.port]
    rfl
  · obtain ⟨t, hexec, hrest, htr, hplat⟩ := exec_idle_sleeps hnever
    exact ⟨t, hexec, hrest.port, htr, hplat, hrest.bus, hrest.disp, hrest.eng, hrest.sameMemory, hrest.sameSystem⟩

/-- Settles O50, by where a reset falls among the two marker writes. -/
theorem mrestartWritesMarker : Obligations.MrestartWritesMarker := by
  intro s
  obtain ⟨e, hwhole, hlow, hhigh⟩ := exec_mrestart s
  cases htear : s.tearNow with
  | whole =>
    obtain ⟨m, hm, hwritten⟩ := ((s.accept .mrestart).setEnv e).writeMarker_spec s.cfg.markerValue
    have hexec := hwhole htear
    rw [hm] at hexec
    have hport := State.triggerWatchdog_port (((s.accept .mrestart).setEnv e).setMarker m)
    have htr := State.triggerWatchdog_tr (((s.accept .mrestart).setEnv e).setMarker m)
    obtain ⟨⟨hfb, hmk⟩, ⟨hcfg, hhost, hsys⟩, hbus, hdisp, heng, hplat⟩ :=
      State.triggerWatchdog_frame (((s.accept .mrestart).setEnv e).setMarker m)
    refine ⟨_, hexec, by rw [hport]; rfl, hcfg, hhost, fun _ => ?_, fun h => absurd rfl h, nofun, nofun⟩
    exact ⟨hport, fun a => (hmk a).trans (hwritten a), hfb, htr, hbus, hdisp, heng, hplat, hcfg, hhost, hsys⟩
  | lowOnly =>
    refine ⟨_, hlow htear, rfl, rfl, rfl, nofun, fun _ => ⟨hardReset_atReset .., rfl⟩, fun _ a => ?_, nofun⟩
    rw [State.mkRead_tornMarker]; rfl
  | highOnly =>
    refine ⟨_, hhigh htear, rfl, rfl, rfl, nofun, fun _ => ⟨hardReset_atReset .., rfl⟩, nofun, fun _ a => ?_⟩
    rw [State.mkRead_tornMarker]; rfl

/-- Settles O42: the registers CFGPINS leaves differ from those before in the levels of lines alone. -/
theorem cfgpinsCompletes : Obligations.CfgpinsCompletes := fun s =>
  ⟨_, exec_cfgpins s, rfl, rfl, rfl, (s.accept .cfgpins).withPins_bus, rfl, (s.accept .cfgpins).withPins_chan, rfl, rfl, rfl,
    .of_eq rfl rfl rfl rfl, rfl, rfl, rfl, rfl⟩

/-- Settles O43, field by field of the state CFGPWR leaves. -/
theorem cfgpwrCompletes : Obligations.CfgpwrCompletes := fun s =>
  ⟨_, exec_cfgpwr s, rfl, rfl, rfl, rfl, rfl, rfl, rfl, .of_eq rfl rfl rfl rfl, rfl, rfl, rfl, rfl⟩

/-- Settles O51: W and H of a legal build fit the byte of RESULT. -/
theorem geometryReadsComplete : Obligations.GeometryReadsComplete := by
  intro s hl
  obtain ⟨-, hw, -, hh, -⟩ := legalGeometry_bounds (legal_parts hl).1
  exact ⟨exec_reports rfl hw, exec_reports rfl (hh.trans (by decide))⟩

end

section
/-! SUPPORT. The exceptions (spec/60_exceptions.md §2): the operations whose pseudocode reaches its end, those without a transfer
in every state and those with transfers under BusLive. -/

namespace Sys2Proof.Machine

/-! ### Which operations reach their end (R243, R244) -/

/-- Under BusLive an enabled bus is ready for any number of bytes (R243). -/
theorem BusLive.busReady {s : State} (hlive : BusLive s) (hen : s.bus.en = true) (hrole : s.bus.role = true) (n : Nat) :
    BusReady s n :=
  ⟨hen, hrole, fun m hm => by rw [hlive] at hm; cases hm⟩

/-- Every SETCH runs to its end, whichever branch its channel and value take (R214). -/
theorem setch_reaches (ch : BitVec 2) (v : Byte) (s : State) : ∃ t, opBody (.setch ch v) s = .reached t := by
  simp only [opBody]
  split
  · next c _ =>
    obtain ⟨t, hreach, -⟩ := setchBody_spec c v s
    exact ⟨t, hreach⟩
  · exact ⟨s, rfl⟩

/-- Without a transfer nothing is waited for: only SAFEMODE, IDLE and MRESTART can end elsewhere than at their end (R244). -/
theorem opBody_reaches_of_noTransfer {i : Instr} (hbus : usesBus i = false) (hsafemode : i ≠ .safemode) (hidle : i ≠ .idle)
    (hmrestart : i ≠ .mrestart) (s : State) : ∃ t, opBody i s = .reached t := by
  cases i with
  | xfer _ | sendcmd _ | bootdisp | shutdown | invert _ | fliph _ | flipv _ | allon _ | contrast _ | paint _ | boot => cases hbus
  | safemode => exact absurd rfl hsafemode
  | idle => exact absurd rfl hidle
  | mrestart => exact absurd rfl hmrestart
  | setch ch v => exact setch_reaches ch v s
  | cfgbus | cmdmode | datamode | rdbtn | cfgpins | cfgpwr | relch | getw | geth => exact ⟨_, rfl⟩

/-- With transfers, every byte goes out in turn while the bus stays ready (R243). -/
theorem opBody_reaches_of_busReady {i : Instr} (hbus : usesBus i = true) {s : State} (hr : ∀ n, BusReady s n) :
    ∃ t, opBody i s = .reached t := by
  cases i with
  | xfer b =>
    obtain ⟨t, hreach, -⟩ := transfer_reaches b (hr 1)
    exact ⟨t.setResult t.bus.sdr, congrArg (·.map fun u => u.setResult u.bus.sdr) hreach⟩
  | boot =>
    obtain ⟨t, hreach, -⟩ := (bootDisplay_streams s.withPinsAndBus).reaches
      (.inr (State.withPinsAndBus_busReady (hr _).2.2))
    exact ⟨t.withPower, by rw [opBody, bootBody_eq, hreach]; rfl⟩
  | sendcmd _ | bootdisp | shutdown | invert _ | fliph _ | flipv _ | allon _ | contrast _ | paint _ =>
    obtain ⟨t, hreach, -⟩ := (opBody_flows hbus (by simp) (by simp) s).reaches hr
    exact ⟨t, hreach⟩
  | _ => cases hbus

/-- An operation whose pseudocode reaches its end is acknowledged (R95). -/
theorem exec_acknowledges_of_reached {i : Instr} {s t : State} (hwf : WellFormed i = true)
    (hreach : opBody i (s.accept i) = .reached t) :
    ∃ u, exec i s = .next u ∧ u.port.opBusy = false ∧ u.port.opAck = true :=
  ⟨t.complete, by rw [exec_eq_runOp hwf, runOp_reached hreach], rfl, rfl⟩

end Sys2Proof.Machine

open Sys2Proof Sys2Proof.Machine

/-- Settles O8: the pending reset comes before anything the outside's list holds, and only a power-on loses the marker. -/
theorem watchdogResetAtOnce : Obligations.WatchdogResetAtOnce := fun s hl hlife =>
  ⟨s.hardReset .watchdog, step_of_resetPending hl hlife, hardReset_atReset s .watchdog, rfl, rfl, rfl,
    hardReset_mkRead s (by decide)⟩

/-- Settles O60, by whether the operation contains a transfer; acceptance leaves the bus and the shifter as they were. -/
theorem completesUnderBusLive : Obligations.CompletesUnderBusLive := by
  intro i s hwf hsafemode hidle hmrestart hready
  have hreaches : ∃ t, opBody i (s.accept i) = .reached t := by
    cases hbus : usesBus i with
    | false => exact opBody_reaches_of_noTransfer hbus hsafemode hidle hmrestart _
    | true =>
      obtain ⟨hen, hrole, hlive⟩ := hready hbus
      exact opBody_reaches_of_busReady hbus fun n => BusLive.busReady (s := s.accept i) hlive hen hrole n
  obtain ⟨t, hreach⟩ := hreaches
  exact exec_acknowledges_of_reached hwf hreach

end

section
/-! SUPPORT. Reset and hazards (spec/70_reset_and_hazards.md): the resets of the outside, and what BOOTDISP does while the bus is
not enabled, part by part. -/

namespace Sys2Proof.Machine

/-! ### The resets of the outside (R270) -/

theorem stepHost_powerOn {s : State} {rest : List HostAct} (h : s.host = .powerOn :: rest) :
    stepHost s = .next (s.dropHost.hardReset .powerOn) := by
  rw [stepHost, h]

theorem stepHost_externalReset {s : State} {rest : List HostAct} (h : s.host = .externalReset :: rest) :
    stepHost s = .next (s.dropHost.hardReset .external) := by
  rw [stepHost, h]

/-- The action taken is gone from the outside's list, the rest of it stays. -/
theorem State.dropHost_host_eq {s : State} {a : HostAct} {rest : List HostAct} (h : s.host = a :: rest) :
    s.dropHost.host = rest :=
  congrArg List.tail h

/-! ### BOOTDISP on a bus that is not enabled (R281, R127) -/

/-- A loop whose first turn is stuck is stuck there. -/
theorem loop_stuck_of_first {body : Nat → State → Run} {n : Nat} {s t : State} (hn : n ≠ 0) (h : body 0 s = .stuck t) :
    loop n body s = .stuck t := by
  obtain ⟨m, rfl⟩ := Nat.exists_eq_succ_of_ne_zero hn
  rw [loop, loopFrom, h, Run.bind_stuck]

theorem ramClear_without_pass {s : State} (h : s.cfg.ramClearCount = 0) : ramClear s = .reached s := if_pos h

section
variable {s : State} (hen : s.bus.en = false)
include hen

/-- The clear pass gets as far as Data Mode (R146). -/
theorem ramClear_disabled (hn : s.cfg.ramClearCount ≠ 0) : ∃ t, ramClear s = .stuck t
    ∧ t.tr = s.tr ++ [.dc .data] ∧ t.disp = { s.disp with dc := .data } := by
  refine ⟨(s.driveDc .data).loadSdr 0x00#8, ?_, rfl, rfl⟩
  rw [ramClear, if_neg hn]
  exact loop_stuck_of_first hn (transfer_disabled _ hen)

/-- The table dispatch gets as far as Command Mode, with no byte of the table sent (R147). -/
theorem commandTable_disabled (hn : s.cfg.cmdTable.length ≠ 0) : ∃ t, commandTable s = .stuck t
    ∧ t.tr = s.tr ++ [.dc .cmd] ∧ t.disp = tableDisplay s 0 := by
  have firstTurn (u : State) (hu : u.bus.en = false) : sendTableByte 0 u = .stuck (u.loadSdr (u.ctRead 0)) := by
    rw [sendTableByte, transfer_disabled _ hu, Run.map_stuck]
  have hloop := loop_stuck_of_first hn
    (firstTurn (((s.driveDc .cmd).setDState .commandMode).setDisp (tableDisplay s 0)) hen)
  exact ⟨_, congrArg (·.map fun u => (u.driveDc .data).setDState .dataMode) hloop, rfl, rfl⟩

/-- BOOTDISP with a byte to send makes the whole reset pulse and hangs at the first byte, of the clear pass if the build has one,
else of the table. -/
theorem bootDisplay_disabled (hsends : 0 < s.cfg.ramClearCount + s.cfg.cmdTable.length) : ∃ t, bootDisplay s = .stuck t
    ∧ t.tr = s.tr ++ [.rst false, .delay .rstLow, .rst true, .delay .rstRecover,
        .dc (if s.cfg.ramClearCount = 0 then .cmd else .data)]
    ∧ (s.cfg.ramClearCount = 0 → t.disp = { dc := .cmd, drst := true, dstate := .commandMode, ctp := 0#16 })
    ∧ (s.cfg.ramClearCount ≠ 0 → t.disp = { s.disp with dc := .data, drst := true }) := by
  have hpulse : s.resetPulse.tr = s.tr ++ [.rst false, .delay .rstLow, .rst true, .delay .rstRecover] := by
    simp [State.resetPulse, State.driveRst, State.delayFor]
  by_cases hclear : s.cfg.ramClearCount = 0
  · obtain ⟨t, hstuck, htr, hd⟩ := commandTable_disabled (s := s.resetPulse) hen (show s.cfg.cmdTable.length ≠ 0 by omega)
    refine ⟨t, ?_, by simp [htr, hpulse, hclear], fun _ => hd, fun hne => absurd hclear hne⟩
    rw [bootDisplay, ramClear_without_pass (s := s.resetPulse) hclear, Run.bind_reached, hstuck]
  · obtain ⟨t, hstuck, htr, hd⟩ := ramClear_disabled (s := s.resetPulse) hen hclear
    refine ⟨t, ?_, by simp [htr, hpulse, hclear], fun h0 => absurd h0 hclear, fun _ => hd⟩
    rw [bootDisplay, hstuck, Run.bind_stuck]

end

end Sys2Proof.Machine

open Sys2Proof Sys2Proof.Machine

/-- Settles O7: both resets leave the values of R44 in any state, and only the power-on loses the marker. -/
theorem resetOverrides : Obligations.ResetOverrides := by
  intro s rest hl hlife
  rw [step_eq_stepHost hl hlife]
  refine ⟨fun hhost => ?_, fun hhost => ?_⟩
  · exact ⟨_, stepHost_powerOn hhost, hardReset_atReset _ .powerOn, rfl, State.dropHost_host_eq hhost, rfl, rfl⟩
  · exact ⟨_, stepHost_externalReset hhost, hardReset_atReset _ .external, rfl, State.dropHost_host_eq hhost, rfl,
      hardReset_mkRead s.dropHost (by decide)⟩

/-- Settles O21: no transfer is possible with EN = 0, so the pseudocode stalls, and it does so at its first byte. -/
theorem bootdispBeforeCfgbusHangs : Obligations.BootdispBeforeCfgbusHangs := by
  intro s hen hsends
  obtain ⟨t, hstuck, htr, htable, hclear⟩ := bootDisplay_disabled (s := s.accept .bootdisp) hen hsends
  obtain ⟨ht, -, honly⟩ := (bootDisplay_streams (s.accept .bootdisp)).2 t hstuck
  exact ⟨t, runOp_stuck hstuck, ht.part.port, ht.stuck, htr, htable, hclear, ht.part.setup, honly.eng, ht.part.plat,
    ht.part.sameMemory honly.fb, ht.part.sameSystem⟩

end

section
/-! SUPPORT. The two directions of the round trip between request words and operations (spec/30_encoding.md): the fields of a
request word, what each format reads from the request word of its row, and with them the decoder on every encoding. -/

namespace Sys2Proof

/-! ### The fields of a request word (R90) -/

theorem aField_requestWord (op a b : Byte) : aField (requestWord op a b) = a := by
  refine BitVec.eq_of_getLsbD_eq fun k hk => ?_
  rw [aField, BitVec.getLsbD_extractLsb', requestWord_getLsbD, if_neg (by omega), if_neg (by omega), if_pos (by omega),
    Nat.add_sub_cancel_left, decide_eq_true hk, Bool.true_and]

theorem bField_requestWord (op a b : Byte) : bField (requestWord op a b) = b := by
  refine BitVec.eq_of_getLsbD_eq fun k hk => ?_
  rw [bField, BitVec.getLsbD_extractLsb', requestWord_getLsbD, if_neg (by omega), if_pos (by omega),
    Nat.add_sub_cancel_left, decide_eq_true hk, Bool.true_and]

theorem cField_requestWord (op a b : Byte) : cField (requestWord op a b) = 0#8 := by
  refine BitVec.eq_of_getLsbD_eq fun k hk => ?_
  rw [cField, BitVec.getLsbD_extractLsb', requestWord_getLsbD, if_pos (by omega), Bool.and_false, BitVec.getLsbD_zero]

/-! ### What each format reads from its request word (R91, R93) -/

theorem decodeN_requestWord (op : Byte) (i : Instr) : decodeN (requestWord op 0#8 0#8) i = .ok i :=
  if_pos ⟨aField_requestWord .., bField_requestWord .., cField_requestWord ..⟩

theorem decodeB_requestWord (op b : Byte) (mk : Byte → Instr) : decodeB (requestWord op b 0#8) mk = .ok (mk b) := by
  rw [decodeB, bField_requestWord, cField_requestWord, aField_requestWord, if_pos ⟨rfl, rfl⟩]

theorem flagByte_upper (f : Bool) : (flagByte f).extractLsb' 1 7 = 0#7 := by cases f <;> rfl

theorem flagByte_flag (f : Bool) : (flagByte f).getLsbD 0 = f := by cases f <;> rfl

theorem decodeF_requestWord (op : Byte) (f : Bool) (mk : Bool → Instr) :
    decodeF (requestWord op (flagByte f) 0#8) mk = .ok (mk f) := by
  rw [decodeF, aField_requestWord, bField_requestWord, cField_requestWord, flagByte_flag,
    if_pos ⟨flagByte_upper f, rfl, rfl⟩]

/-- The channel that R96 reserves is the only one format C does not read back. -/
theorem decodeC_requestWord (op v : Byte) {ch : BitVec 2} (hch : ch ≠ 3#2) (mk : BitVec 2 → Byte → Instr) :
    decodeC (requestWord op (0#6 ++ ch) v) mk = .ok (mk ch v) := by
  rw [decodeC, aField_requestWord, bField_requestWord, cField_requestWord,
    BitVec.extractLsb'_append_eq_right, if_pos ⟨BitVec.extractLsb'_append_eq_left, rfl⟩, if_neg hch]

/-! ### The decoder on an encoding (R92, R96) -/

/-- The OP field picks the operation's row, and the row's format reads the operands back. -/
theorem decode_encode {i : Instr} (hwf : WellFormed i = true) : decode (encode i) = .ok i := by
  cases i <;> simp only [encode, decode, opField_requestWord]
  case xfer b | sendcmd b => exact decodeB_requestWord _ b _
  case invert f | fliph f | flipv f | allon f | contrast f | paint f => exact decodeF_requestWord _ f _
  case setch ch v => exact decodeC_requestWord _ v (bne_iff_ne.1 hwf) _
  all_goals exact decodeN_requestWord _ _

end Sys2Proof

open Sys2Proof Sys2Proof.Machine

/-- Settles O1, by the row and the format of each operation. -/
theorem decodeEncodeRoundTrip : Obligations.DecodeEncodeRoundTrip := fun _ => decode_encode

/-- Settles O2: each format accepts a word only when its fields make up the encoding of what it gives. -/
theorem encodeDecodeRoundTrip : Obligations.EncodeDecodeRoundTrip := fun _ _ => isRequestOf_of_decode

/-- Settles O3: the ten accepted words are encodings; the decoder runs on the five others. -/
theorem sampleWordsDecode : Obligations.SampleWordsDecode :=
  ⟨decode_encode (i := .cfgbus) rfl, decode_encode (i := .xfer 0xA5#8) rfl, decode_encode (i := .xfer 0#8) rfl,
    decode_encode (i := .cmdmode) rfl, decode_encode (i := .sendcmd 0xAF#8) rfl, decode_encode (i := .invert true) rfl,
    decode_encode (i := .paint true) rfl, decode_encode (i := .rdbtn) rfl, decode_encode (i := .setch 1#2 100#8) rfl,
    decode_encode (i := .geth) rfl, by decide, by decide, by decide, by decide, by decide⟩

end
